-- ==== Sys2Proof/Word.lean ====
section
/-! DEFINITION. The words and typed operand values the block handles: the sample word `F` (R8, R79), a character
code, the five stage kinds (R75), the values a register takes (R26), and a host request before it is decoded
(R70, R76). No instruction and no meaning stands here. -/

namespace Sys2Proof

/-- An 8-bit character code, format `CHAR8` (R70). -/
abbrev Byte := BitVec 8

/-- A sample word: an IEEE 754 binary32 value as its 32 bits (R8, R79). -/
abbrev F := BitVec 32

/-- The five stage kinds (R75); codes 5 to 7 name no stage (R81 (c), U19). -/
inductive Kind where
  | reverb
  | distortion
  | bassboost
  | overdrive
  | distance
  deriving DecidableEq, Repr, Inhabited

/-- The values of the parameter and status registers, by the type of R26: a natural number (0, 1), a word of which
six bits are kept (2), an exact rational (3, 8, 9, 10, 13), an `F` (the others of 0 to 15). -/
inductive CfgVal where
  | nat (n : Nat)
  | word (w : Nat)
  | real (q : Rat)
  | f (x : F)
  deriving DecidableEq, Repr

/-- The typed operands of a host command (R76); the spec fixes no bit packing for them. A `PRODUCE` hands over the
caller's buffer: `none` is the buffer as the last command left it, `some b` a buffer whose contents are `b`. -/
inductive Args where
  | none
  | cfgwr (reg : Nat) (value : CfgVal)
  | produce (buf : Option (List F)) (offset maxCount : Nat)
  | fail (code : Nat)
  | cfgrd (reg : Nat)
  deriving DecidableEq, Repr

/-- A request at the host's side of the block, one for each format the block decodes (R70). `text` is a selection
string (`CHAR8`), `select` a selection word (`SEL6`), `kind` one arm of the per-sample dispatch on element `index`
of the buffer (`KIND3`), `cmd` a host command (`CMD3`). -/
inductive Request where
  | text (chars : List Byte)
  | select (w : BitVec 6)
  | kind (code : BitVec 3) (index : Nat)
  | cmd (code : BitVec 3) (args : Args)
  deriving DecidableEq, Repr

end Sys2Proof
end

