-- ==== Sys2Proof/Syntax.lean ====
section
/-! DEFINITION. The instructions: one constructor for each row of opcode_table.json (R84). -/

namespace Sys2Proof

/-- One constructor per row. `charX` is a selector character (R71), `selX` a bit of the selection word (R73), the
five stage kinds carry the index of the buffer element they process (R75; the table: one sample, taken from buf,
written back to the same index), the seven host commands their operands (R76). -/
inductive Instr where
  | charR
  | charD
  | charB
  | charO
  | charF
  | charA
  | selR
  | selD
  | selB
  | selO
  | selF
  | selA
  | reverb (a : Nat)
  | distortion (a : Nat)
  | bassboost (a : Nat)
  | overdrive (a : Nat)
  | distance (a : Nat)
  | reset
  | cfgwr (reg : Nat) (value : CfgVal)
  | build
  | produce (buf : Option (List F)) (offset maxCount : Nat)
  | format
  | fail (code : Nat)
  | cfgrd (reg : Nat)
  deriving DecidableEq, Repr

end Sys2Proof
end

