-- ==== Sys2Proof/WellFormed.lean ====
section
/-! DEFINITION. Which instructions are well formed: the operand ranges and types of R76 and R26, and a handed-over
buffer that holds the requested range (R90). An ill-formed one still has a meaning where the spec gives it one
(it is refused, R180); well-formedness is about the term. -/

namespace Sys2Proof

/-- The type R26 gives to register `reg`, as a check on a value. False for a register that cannot be written. -/
def CfgVal.fits (reg : Nat) : CfgVal → Bool
  | .nat _ => reg == 0 || reg == 1
  | .word _ => reg == 2
  | .real _ => reg == 3 || reg == 8 || reg == 9 || reg == 10 || reg == 13
  | .f _ => reg == 4 || reg == 5 || reg == 6 || reg == 7 || reg == 11 || reg == 12 || reg == 14 || reg == 15

/-- Operand ranges of R76: `CFGWR` of 0 to 15 with a value of the register's type (R166), `CFGRD` of 0 to 17 (R167),
`FAIL` of 2 or 3 (R177), `PRODUCE` within a buffer it hands over (R90). -/
def Instr.wf : Instr → Bool
  | .cfgwr reg value => value.fits reg
  | .cfgrd reg => decide (reg ≤ 17)
  | .fail code => code == 2 || code == 3
  | .produce (some b) offset maxCount => decide (offset + maxCount ≤ b.length)
  | _ => true

end Sys2Proof
end

