-- ==== Sys2Proof/Decode.lean ====
section
/-! DEFINITION. The decoder, total on every request and rejecting by name, written from the tables of R71, R73, R75
and R76; then the encoder, written from the same tables; then the two views of a bare word of opcode_table.json. -/

namespace Sys2Proof

/-- Why a request names no instruction. `reservedCommand`: command code 7 (R81 (d)). `reservedKind`: stage kind codes
5 to 7 (R81 (c), U19). `malformedCommand`: the operands handed over are those of another command (D27 (4)). -/
inductive DecodeError where
  | reservedCommand
  | reservedKind (code : Nat)
  | malformedCommand (code : Nat)
  deriving DecidableEq, Repr

/-- What the decoder answers: the matching rows' instructions in table order (a string has many characters and a
selection word many bits, and each matching row applies, R84), or a rejection by name. -/
inductive Decoded where
  | instrs (is : List Instr)
  | rejected (why : DecodeError)
  deriving DecidableEq, Repr

/-- A row of opcode_table.json: a value `v` selects it when `v & mask = pattern` (R84). -/
structure Row (w : Nat) where
  pattern : BitVec w
  mask : BitVec w
  instr : Instr
  deriving DecidableEq, Repr

/-- The selection test of R84. -/
def Row.hits {w : Nat} (r : Row w) (v : BitVec w) : Bool :=
  v &&& r.mask == r.pattern

/-- The six `CHAR8` rows (R71): the mask ignores bit 5, the case of an ASCII letter. -/
def charRows : List (Row 8) :=
  [⟨0x52#8, 0xDF#8, .charR⟩, ⟨0x44#8, 0xDF#8, .charD⟩, ⟨0x42#8, 0xDF#8, .charB⟩,
   ⟨0x4F#8, 0xDF#8, .charO⟩, ⟨0x46#8, 0xDF#8, .charF⟩, ⟨0x41#8, 0xDF#8, .charA⟩]

/-- The six `SEL6` rows (R73), one per bit. -/
def selRows : List (Row 6) :=
  [⟨0x01#6, 0x01#6, .selR⟩, ⟨0x02#6, 0x02#6, .selD⟩, ⟨0x04#6, 0x04#6, .selB⟩,
   ⟨0x08#6, 0x08#6, .selO⟩, ⟨0x10#6, 0x10#6, .selF⟩, ⟨0x20#6, 0x20#6, .selA⟩]

/-- The five `KIND3` rows (R75), applied to buffer element `a`. -/
def kindRows (a : Nat) : List (Row 3) :=
  [⟨0#3, 7#3, .reverb a⟩, ⟨1#3, 7#3, .distortion a⟩, ⟨2#3, 7#3, .bassboost a⟩,
   ⟨3#3, 7#3, .overdrive a⟩, ⟨4#3, 7#3, .distance a⟩]

/-- One selector character; `none` for a character that is silently ignored (R72, R81 (a)). -/
def decodeChar (c : Byte) : Option Instr :=
  (charRows.find? (fun r => r.hits c)).map (fun r => r.instr)

/-- The rows a selection word matches, in bit order (R73, R84). -/
def decodeSelect (w : BitVec 6) : List Instr :=
  (selRows.filter (fun r => r.hits w)).map (fun r => r.instr)

/-- A stage kind code (R75). -/
def decodeKind (code : BitVec 3) (a : Nat) : Decoded :=
  match (kindRows a).find? (fun r => r.hits code) with
  | some r => .instrs [r.instr]
  | none => .rejected (.reservedKind code.toNat)

/-- A host command code with its operands (R76). -/
def decodeCmd (code : BitVec 3) (args : Args) : Decoded :=
  match code.toNat, args with
  | 0, .none => .instrs [.reset]
  | 1, .cfgwr reg value => .instrs [.cfgwr reg value]
  | 2, .none => .instrs [.build]
  | 3, .produce buf offset maxCount => .instrs [.produce buf offset maxCount]
  | 4, .none => .instrs [.format]
  | 5, .fail c => .instrs [.fail c]
  | 6, .cfgrd reg => .instrs [.cfgrd reg]
  | 7, _ => .rejected .reservedCommand
  | n, _ => .rejected (.malformedCommand n)

/-- The decoder. No string and no selection word is illegal (R72, R81 (b)). -/
def decode : Request → Decoded
  | .text chars => .instrs (chars.filterMap decodeChar)
  | .select w => .instrs (decodeSelect w)
  | .kind code a => decodeKind code a
  | .cmd code args => decodeCmd code args

/-- The request that carries one instruction: each row's `match` value with its operands (R71, R73, R75, R76). -/
def encode : Instr → Request
  | .charR => .text [0x52#8]
  | .charD => .text [0x44#8]
  | .charB => .text [0x42#8]
  | .charO => .text [0x4F#8]
  | .charF => .text [0x46#8]
  | .charA => .text [0x41#8]
  | .selR => .select 0b000001#6
  | .selD => .select 0b000010#6
  | .selB => .select 0b000100#6
  | .selO => .select 0b001000#6
  | .selF => .select 0b010000#6
  | .selA => .select 0b100000#6
  | .reverb a => .kind 0b000#3 a
  | .distortion a => .kind 0b001#3 a
  | .bassboost a => .kind 0b010#3 a
  | .overdrive a => .kind 0b011#3 a
  | .distance a => .kind 0b100#3 a
  | .reset => .cmd 0b000#3 .none
  | .cfgwr reg value => .cmd 0b001#3 (.cfgwr reg value)
  | .build => .cmd 0b010#3 .none
  | .produce buf offset maxCount => .cmd 0b011#3 (.produce buf offset maxCount)
  | .format => .cmd 0b100#3 .none
  | .fail code => .cmd 0b101#3 (.fail code)
  | .cfgrd reg => .cmd 0b110#3 (.cfgrd reg)

/-- Operands of zeros for a bare command code: register 0, value 0, offset and count 0 in the buffer as it stands. -/
def zeroArgs (code : Nat) : Args :=
  if code = 1 then .cfgwr 0 (.nat 0)
  else if code = 3 then .produce none 0 0
  else if code = 5 then .fail 0
  else if code = 6 then .cfgrd 0
  else .none

/-- The request a bare word of opcode_table.json stands for. The table's four formats overlap as bare bytes and a word
does not say its format, so one is chosen: three bits are a command, six a selection word; a byte is a selector
character where it is one, else a command below 8, else a selection word below 64, else an ignored character.
DESIGN CHOICE (log 13). -/
def tableRequest (nbits w : Nat) : Request :=
  if nbits = 3 then .cmd (BitVec.ofNat 3 w) (zeroArgs (w % 8))
  else if nbits = 6 then .select (BitVec.ofNat 6 w)
  else if (decodeChar (BitVec.ofNat 8 w)).isSome then .text [BitVec.ofNat 8 w]
  else if w < 8 then .cmd (BitVec.ofNat 3 w) (zeroArgs w)
  else if w < 64 then .select (BitVec.ofNat 6 w)
  else .text [BitVec.ofNat 8 w]

/-- The instruction the decoder reads from a bare table word; of a selection word with several bits the lowest bit's
row; none where the decoder refuses or ignores the word (log 13). -/
def decodeTableWord (nbits w : Nat) : Option Instr :=
  match decode (tableRequest nbits w) with
  | .instrs (i :: _) => some i
  | .instrs [] => none
  | .rejected _ => none

end Sys2Proof
end

