-- ==== Sys2Proof/Config.lean ====
section
/-! DEFINITION. What an implementation fixes (R5) and the free values: uninterpreted constants, none with a body, so
that nothing can be proved about which value they have. What is proved of the machine holds for every one of them. -/

namespace Sys2Proof

/-- What `round` does at an exact half (R5, R109). -/
inductive Tie where
  | away
  | even
  deriving DecidableEq, Repr, Inhabited

/-- Which `NUM` record the implementation has (R5, R8, R141): the reference definitions, or an instance of which only
the named properties are known. -/
inductive NumSel where
  | reference
  | other
  deriving DecidableEq, Repr, Inhabited

/-- The five coefficients of R139, a0 normalised to 1 and not kept (C7). -/
structure Coefs where
  b0 : F
  b1 : F
  b2 : F
  a1 : F
  a2 : F
  deriving DecidableEq, Repr, Inhabited

/-- The implementation's open parameters (R5), fixed for the machine: no step writes them. `none` and `other` leave a
parameter at its uninterpreted constant below; a value pins it. DESIGN CHOICE (log 3). -/
structure Impl where
  tie : Option Tie := none
  depthMax : Option Nat := none
  num : NumSel := .other
  deriving DecidableEq, Repr

/-- `TIE` (R5, R109; D8). -/
opaque Config.tie : Tie

/-- `DEPTH_MAX` (R5, R162; D9); 0 is read as 1, since it is an integer of at least 1. -/
opaque Config.depthMax : Nat

/-- An implementation's exponential before the properties of R8 are imposed on it (D4, U2). -/
opaque Config.rawExp : F → F

/-- An implementation's coefficient calculator before the tolerance of R141 is imposed on it (D6, U1): a function of
the sample rate, the cutoff, Q and the gain in dB. -/
opaque Config.rawCoef : Nat → Rat → Rat → Rat → Coefs

/-- `TOL_COEF` (R5, R141); a negative value is read as 0. -/
opaque Config.tolCoef : Rat

/-- Free value: the sign and fraction bits of the `i`-th NaN that the operations of stage `k` return (R8, U4). -/
opaque Config.nanDraw : Kind → Nat → F

/-- Free value: the count the source chooses at a call for which `counts` of the state holds none (R96, U12). -/
opaque Config.sourceCount : Nat → Nat

end Sys2Proof
end

