-- ==== Sys2Proof/Machine/Float.lean ====
section
/-! DEFINITION. IEEE 754 binary32 on its 32-bit words (R8, R79): the fields, exact magnitudes, one rounding to
nearest even, and the four operations. Every finite `F` is a whole number of units of 2^-149, so a sum is a sum of
integers and a product a product of integers; each operation computes exactly and rounds once.

An operation that gives NaN returns the NaN it is handed, `q`: which NaN is a draw (R8, U4; log 2). -/

namespace Sys2Proof.Machine

/-- Bit 31 (R79). -/
def signBit (a : F) : Bool := a.toNat / 2 ^ 31 == 1

/-- Bits 30 to 23, the biased exponent (R79). -/
def expField (a : F) : Nat := a.toNat / 2 ^ 23 % 2 ^ 8

/-- Bits 22 to 0, the fraction (R79). -/
def fracField (a : F) : Nat := a.toNat % 2 ^ 23

/-- Bits 30 to 0 as a number: as magnitudes grow, so does it. -/
def absBits (a : F) : Nat := a.toNat % 2 ^ 31

/-- `absBits` of an infinity: exponent 255, fraction 0 (R79). -/
def infBits : Nat := 255 * 2 ^ 23

/-- Exponent 255 with a non-zero fraction (R79). -/
def isNaN (a : F) : Bool := decide (infBits < absBits a)

/-- Exponent 255 with fraction 0 (R79). -/
def isInf (a : F) : Bool := absBits a == infBits

/-- The sign bit over 31 magnitude bits. -/
def pack (neg : Bool) (bits : Nat) : F := BitVec.ofNat 32 ((if neg then 2 ^ 31 else 0) + bits)

/-- `+0` (R8). -/
def fZero : F := 0x00000000#32

/-- `1.0` (R8). -/
def fOne : F := 0x3F800000#32

/-- The magnitude of a finite value in units of 2^-149: subnormal `0.fraction × 2^-126`, else
`1.fraction × 2^(exponent-127)` (R79). -/
def mag (a : F) : Nat :=
  if expField a = 0 then fracField a else (2 ^ 23 + fracField a) * 2 ^ (expField a - 1)

/-- A finite value with its sign, in units of 2^-149. -/
def sval (a : F) : Int := if signBit a then -(mag a : Int) else (mag a : Int)

/-- `n / g` rounded to the nearest integer, a tie to the even one; `g > 0`. -/
def nearestEven (n g : Nat) : Nat :=
  if 2 * (n % g) < g then n / g
  else if g < 2 * (n % g) then n / g + 1
  else n / g + n / g % 2

/-- The magnitude bits of `n / d` units of 2^-149 rounded once: 24 significant bits, fewer in the subnormal range,
and infinity from halfway beyond the largest finite value on, as IEEE 754 rounds (R8; DEDUCED, log 6). With
exponent step `e` the bits of `m × 2^e` units are `e × 2^23 + m`, whether `m` is subnormal, normal, or has carried
into the next binade. -/
def magBits (n d : Nat) : Nat :=
  let e := Nat.log2 (n / d) - 23
  min (e * 2 ^ 23 + nearestEven n (d * 2 ^ e)) infBits

/-- The signed value of magnitude `n / d` units of 2^-149, rounded once. -/
def rndUnits (neg : Bool) (n d : Nat) : F := pack neg (magBits n d)

/-- `rnd_F` of an exact rational (R8): `rnd_F(0) = +0`. -/
def rndF (r : Rat) : F := rndUnits (decide (r.num < 0)) (r.num.natAbs * 2 ^ 149) r.den

/-- Flip the sign bit (R8); exact, of a NaN too. -/
def fneg (a : F) : F := a ^^^ 0x80000000#32

/-- Clear the sign bit (R8); exact, of a NaN too. -/
def fabs (a : F) : F := a &&& 0x7FFFFFFF#32

/-- The sum (R8): NaN from a NaN operand or `Inf - Inf`; an exact zero is `-0` only when both operands are negative. -/
def fadd (q a b : F) : F :=
  if isNaN a || isNaN b then q
  else if isInf a then (if isInf b && signBit a != signBit b then q else a)
  else if isInf b then b
  else if sval a + sval b = 0 then pack (signBit a && signBit b) 0
  else rndUnits (decide (sval a + sval b < 0)) (sval a + sval b).natAbs 1

/-- The difference (R8): `a + (-b)`. -/
def fsub (q a b : F) : F := fadd q a (fneg b)

/-- The product (R8): NaN from a NaN operand or `0 × Inf`; the sign is the product of the signs, of zeros too. -/
def fmul (q a b : F) : F :=
  if isNaN a || isNaN b then q
  else if isInf a || isInf b then
    (if absBits a = 0 || absBits b = 0 then q else pack (signBit a != signBit b) infBits)
  else rndUnits (signBit a != signBit b) (mag a * mag b) (2 ^ 149)

/-- The quotient (R8): NaN from a NaN operand, `0 / 0` or `Inf / Inf`. No rule of the block uses it. -/
def fdiv (q a b : F) : F :=
  if isNaN a || isNaN b then q
  else if isInf a then (if isInf b then q else pack (signBit a != signBit b) infBits)
  else if isInf b then pack (signBit a != signBit b) 0
  else if absBits b = 0 then (if absBits a = 0 then q else pack (signBit a != signBit b) infBits)
  else rndUnits (signBit a != signBit b) (mag a * 2 ^ 149) (mag b)

/-- Any word made a NaN: its sign and fraction, the fraction 1 where it was 0. Every NaN is `asNaN` of itself. -/
def asNaN (w : F) : F := pack (signBit w) (infBits + (if fracField w = 0 then 1 else fracField w))

end Sys2Proof.Machine
end

