-- ==== Sys2Proof/Machine/Flags.lean ====
section
/-! DEFINITION. The block has no condition codes and no status flags (R34); the only truth values its operations form
are the comparisons and the finiteness test of R8, written here. -/

namespace Sys2Proof.Machine

/-- A value's place in the order of non-NaN values: `+0` and `-0` share one, infinities lie outermost. -/
def rank (a : F) : Int := if signBit a then -(absBits a : Int) else (absBits a : Int)

/-- `a < b`, false when either is NaN (R8). -/
def flt (a b : F) : Bool := !isNaN a && !isNaN b && decide (rank a < rank b)

/-- `a > b`, false when either is NaN (R8). -/
def fgt (a b : F) : Bool := flt b a

/-- Neither infinite nor NaN (R8). -/
def isFinite (a : F) : Bool := decide (absBits a < infBits)

/-- One of the two zeros. -/
def isZero (a : F) : Bool := absBits a == 0

end Sys2Proof.Machine
end

