-- ==== Sys2Proof/Machine/Num.lean ====
section
/-! DEFINITION. The `NUM` record (R8, R141): the exponential and the coefficient calculator, each with its reference
definition and with the open instance, of which only the named properties hold; and the NaN draws.

The reference functions are real numbers rounded once. A real is held between two bounds, integers counting units of
2^-p; `p` is doubled until the two bounds round to the same `F` (logs 4, 5). -/

namespace Sys2Proof.Machine

/-! ### NaN draws -/

/-- The `i`-th NaN the operations of stage `k` return: any NaN (R8, U4; log 2). -/
def nanDraw (k : Kind) (i : Nat) : F := asNaN (Config.nanDraw k i)

/-! ### Real numbers between two bounds -/

/-- One, in units of 2^-p. -/
def unit (p : Nat) : Int := ((2 ^ p : Nat) : Int)

/-- `n / d` rounded down; `d > 0`. -/
def divDown (n d : Int) : Int := n / d

/-- `n / d` rounded up; `d > 0`. -/
def divUp (n d : Int) : Int := -(-n / d)

/-- The bounds of a real, in units of 2^-p for a `p` known from the context. -/
structure Enc where
  lo : Int
  hi : Int
  deriving DecidableEq, Repr

/-- An exact value. -/
def Enc.exact (n : Int) : Enc := ⟨n, n⟩

/-- The sum. -/
def Enc.add (a b : Enc) : Enc := ⟨a.lo + b.lo, a.hi + b.hi⟩

/-- The difference. -/
def Enc.sub (a b : Enc) : Enc := ⟨a.lo - b.hi, a.hi - b.lo⟩

/-- The product with a rational. -/
def Enc.scale (r : Rat) (a : Enc) : Enc :=
  if 0 ≤ r.num then ⟨divDown (a.lo * r.num) r.den, divUp (a.hi * r.num) r.den⟩
  else ⟨divDown (a.hi * r.num) r.den, divUp (a.lo * r.num) r.den⟩

/-- The product: the least and the greatest of the four products of bounds. -/
def Enc.mul (p : Nat) (a b : Enc) : Enc :=
  ⟨divDown (min (min (a.lo * b.lo) (a.lo * b.hi)) (min (a.hi * b.lo) (a.hi * b.hi))) (unit p),
   divUp (max (max (a.lo * b.lo) (a.lo * b.hi)) (max (a.hi * b.lo) (a.hi * b.hi))) (unit p)⟩

/-- The quotient by a real whose lower bound is positive. -/
def Enc.div (p : Nat) (a b : Enc) : Enc :=
  ⟨min (divDown (a.lo * unit p) b.lo) (divDown (a.lo * unit p) b.hi),
   max (divUp (a.hi * unit p) b.lo) (divUp (a.hi * unit p) b.hi)⟩

/-- The absolute value of a rational. -/
def ratAbs (q : Rat) : Rat := if q < 0 then -q else q

/-- `fuel` terms of `Σ s^j / ((2j+1) n^(2j+1))` from index `j` on, with `t` the power `2^p / n^(2j+1)` rounded down: an
inverse tangent of `1/n` for `s = -1`, an inverse hyperbolic tangent for `s = 1`. Each term is off by less than 3. -/
def invSeries (s : Int) (n : Nat) : Nat → Nat → Nat → Int
  | 0, _, _ => 0
  | fuel + 1, j, t =>
    if t = 0 then 0
    else ((t / (2 * j + 1) : Nat) : Int) + s * invSeries s n fuel (j + 1) (t / (n * n))

/-- A sum of `invSeries` whose factors sum to at most 20, with its bounds: `20 × 3` units for each of at most `p + 2`
terms. -/
def Enc.around (p : Nat) (m : Int) : Enc := ⟨m - 64 * (p + 2), m + 64 * (p + 2)⟩

/-- π by Machin's formula, `16 atan(1/5) - 4 atan(1/239)`. -/
def encPi (p : Nat) : Enc :=
  Enc.around p (16 * invSeries (-1) 5 p 0 (2 ^ p / 5) - 4 * invSeries (-1) 239 p 0 (2 ^ p / 239))

/-- `ln 10 = 3 ln 2 + ln (5/4) = 6 atanh(1/3) + 2 atanh(1/9)`. -/
def encLn10 (p : Nat) : Enc :=
  Enc.around p (6 * invSeries 1 3 p 0 (2 ^ p / 3) + 2 * invSeries 1 9 p 0 (2 ^ p / 9))

/-- An alternating Taylor series from the term `t ≥ 0` on; the next term is `t · m` over its index `j` (`d = 1`) or over
the two next ones (`d = 2`). What is left when a term is below one unit, or the fuel is out, is smaller than that term. -/
def encTaylor (p d : Nat) (m : Enc) : Nat → Nat → Enc → Enc
  | 0, _, t => ⟨-t.hi, t.hi⟩
  | fuel + 1, j, t =>
    if t.hi ≤ 1 then ⟨-1, 1⟩
    else t.sub (encTaylor p d m fuel (j + d)
      ((Enc.mul p t m).scale (1 / (if d = 1 then (j : Rat) else (j : Rat) * (j + 1)))))

/-- `x ≥ 0` squared `k` times over. -/
def encSquares (p : Nat) : Nat → Enc → Enc
  | 0, x => x
  | k + 1, x => encSquares p k ⟨max 0 (divDown (x.lo * x.lo) (unit p)), divUp (x.hi * x.hi) (unit p)⟩

/-- `e^-y` for `y ≥ 0`, kept within `[0, 1]`: the Taylor series at `y / 2^k`, which is below 2^-8, squared `k` times. -/
def encExpNeg (p : Nat) (y : Enc) : Enc :=
  let k := 9 + Nat.log2 (y.hi.toNat / 2 ^ p)
  let r : Enc := ⟨divDown (max 0 y.lo) (unit k), divUp y.hi (unit k)⟩
  let e := encTaylor p 1 r p 1 (Enc.exact (unit p))
  let f := encSquares p k ⟨max 0 e.lo, e.hi⟩
  ⟨min (max 0 f.lo) (unit p), min (max 0 f.hi) (unit p)⟩

/-- `cos w` for `0 ≤ w ≤ π`. -/
def encCos (p : Nat) (w : Enc) : Enc := encTaylor p 2 (Enc.mul p w w) p 1 (Enc.exact (unit p))

/-- `sin w` for `0 ≤ w ≤ π`. -/
def encSin (p : Nat) (w : Enc) : Enc := encTaylor p 2 (Enc.mul p w w) p 2 w

/-- `rnd_F` of a bound (R8). -/
def roundBound (p : Nat) (x : Int) : F := rndUnits (decide (x < 0)) (x.natAbs * 2 ^ 149) (2 ^ p)

/-! ### The exponential -/

/-- `rnd_F(e^-x)` for `x` of `n` units of 2^-149, `n > 0`: the two bounds round alike at some precision, since `e^-x` is
no rational number. -/
def roundExpNeg (n : Nat) : Nat → Nat → F
  | 0, p => roundBound p (encExpNeg p (Enc.exact ((n * 2 ^ p / 2 ^ 149 : Nat) : Int))).lo
  | fuel + 1, p =>
    let e := encExpNeg p (Enc.exact ((n * 2 ^ p / 2 ^ 149 : Nat) : Int))
    if roundBound p e.lo = roundBound p e.hi then roundBound p e.lo else roundExpNeg n fuel (2 * p)

/-- `rnd_F(e^x)` for `x` of `n` units of 2^-149, `n > 0`, as the reciprocal of `e^-x`. -/
def roundExpPos (n : Nat) : Nat → Nat → F
  | 0, p => rndUnits false (2 ^ p * 2 ^ 149) (encExpNeg p (Enc.exact ((n * 2 ^ p / 2 ^ 149 : Nat) : Int))).hi.toNat
  | fuel + 1, p =>
    let e := encExpNeg p (Enc.exact ((n * 2 ^ p / 2 ^ 149 : Nat) : Int))
    let a := rndUnits false (2 ^ p * 2 ^ 149) e.hi.toNat
    if 0 < e.lo ∧ a = rndUnits false (2 ^ p * 2 ^ 149) e.lo.toNat then a else roundExpPos n fuel (2 * p)

/-- The reference `rnd_F(e^a)` (R8, D4), for `a` not NaN. From 400 bits on, so that `a` itself is exact. -/
def refExp (a : F) : F :=
  if absBits a = 0 then fOne
  else if isInf a then (if signBit a then fZero else a)
  else if signBit a then roundExpNeg (mag a) 16 400
  else if 100 * 2 ^ 149 < mag a then pack false infBits
  else roundExpPos (mag a) 16 400

/-- `p` holds of all numbers below `n`; the largest is asked first. -/
def allBelow (p : Nat → Bool) : Nat → Bool
  | 0 => true
  | n + 1 => p n && allBelow p n

/-- `p` holds of every `F`. -/
def allF (p : F → Bool) : Bool := allBelow (fun n => p (BitVec.ofNat 32 n)) (2 ^ 32)

/-- The value properties R8 names for `NUM.exp` at one argument: 1 at either zero, `+0` at `-Inf`, within `[0, 1]` at
a non-positive argument, NaN at NaN and nowhere else. -/
def expPointOk (e : F → F) (a : F) : Bool :=
  (isNaN (e a) == isNaN a)
    && (!isZero a || e a == fOne)
    && (!(isInf a && signBit a) || e a == fZero)
    && (!signBit a || isNaN a || (!flt (e a) fZero && !fgt (e a) fOne))

/-- All properties R8 requires of an instance of `NUM.exp`: those at each argument, and monotone non-decreasing. -/
def expAdmissible (e : F → F) : Bool :=
  allF (fun a => expPointOk e a) && allF (fun a => allF (fun b => !flt a b || !fgt (e a) (e b)))

/-- An admissible instance that tells nothing more: `+0` at `-Inf`, 1 elsewhere. -/
def expCoarse (a : F) : F :=
  if isNaN a then a else if isInf a && signBit a then fZero else fOne

/-- The open instance: any function with the properties of R8, and no other (log 4). -/
def openExp (a : F) : F :=
  if expAdmissible Config.rawExp then Config.rawExp a else expCoarse a

/-- `NUM.exp` of the implementation (R8); `q` is the NaN returned for a NaN. -/
def numExp (num : NumSel) (q a : F) : F :=
  if isNaN a then q
  else match num with
    | .reference => refExp a
    | .other => openExp a

/-! ### The coefficient calculator -/

/-- The raw coefficients of R138 between their bounds. -/
structure RawCoefs where
  b0r : Enc
  b1r : Enc
  b2r : Enc
  a0r : Enc
  a1r : Enc
  a2r : Enc
  deriving DecidableEq, Repr

/-- A number of bits `s` with `10^(|g|/80) < 2^s`. -/
def gainBits (gdb : Rat) : Nat := gdb.num.natAbs / (20 * gdb.den) + 1

/-- `10^(g/80)`, the square root of the `A` of R137; exact 1 at 0 dB. -/
def encSqrtA (p : Nat) (gdb : Rat) : Enc :=
  if gdb = 0 then Enc.exact (unit p)
  else
    let e := encExpNeg p ((encLn10 p).scale (ratAbs gdb / 80))
    if gdb < 0 then e
    else ⟨divDown (unit (2 * p)) (max 1 e.hi),
      if e.lo ≤ 0 then unit (p + gainBits gdb) else divUp (unit (2 * p)) e.lo⟩

/-- The intermediate quantities of R137 and the raw coefficients of R138, in units of 2^-p. `ALPHA_FORM` is the `Q` form
(R5, D7). -/
def rawCoefs (p : Nat) (fs : Nat) (f0 q gdb : Rat) : RawCoefs :=
  let one := Enc.exact (unit p)
  let sa := encSqrtA p gdb
  let A := Enc.mul p sa sa
  let w0 := (encPi p).scale (2 * f0 / fs)
  let cw := encCos p w0
  let alpha := (encSin p w0).scale (1 / (2 * q))
  let beta := (Enc.mul p sa alpha).scale 2
  let up := A.add one
  let down := A.sub one
  { b0r := Enc.mul p A ((up.sub (Enc.mul p down cw)).add beta)
    b1r := (Enc.mul p A (down.sub (Enc.mul p up cw))).scale 2
    b2r := Enc.mul p A ((up.sub (Enc.mul p down cw)).sub beta)
    a0r := (up.add (Enc.mul p down cw)).add beta
    a1r := (down.add (Enc.mul p up cw)).scale (-2)
    a2r := (up.add (Enc.mul p down cw)).sub beta }

/-- The bits by which a quotient of two raw coefficients differs from a rational number of which `size` bounds the bits
of numerator and denominator together, unless it is that number: the raw coefficients are algebraic numbers, of which
`h` bounds the bits of every conjugate and `d` the degree, so a difference that is not 0 is at least 2^-(h d) (log 5). -/
def sepBits (size fs : Nat) (f0 q gdb : Rat) : Nat :=
  let h := size + 8 * gainBits gdb + Nat.log2 (q.num.natAbs + q.den) + 17
  let d := 4 * (f0 / fs).den * (gdb / 80).den
  h * d

/-- The precision the search starts from. -/
def coefPrecision (gdb : Rat) : Nat := 400 + gdb.num.natAbs / (2 * gdb.den)

/-- How often the precision is doubled: until bounds as close as `sep` bits are certain. -/
def doublings (sep : Nat) : Nat := Nat.log2 sep + 8

/-- The bits of a boundary of rounding to `F`: a multiple of 2^-150 of magnitude at most 2^128. -/
def boundaryBits : Nat := 280

/-- `rnd_F` of the real quotient `n / d` (R139), where the bounds tell: both bounds round alike, or they are so close
that the boundary between them is the quotient itself (a tie, or 0). -/
def roundQuotient (p sep : Nat) (n d : Enc) : Option F :=
  if d.lo ≤ 0 ∨ d.hi < d.lo then none
  else
    let z := Enc.div p n d
    if roundBound p z.lo = roundBound p z.hi then some (roundBound p z.lo)
    else if (z.hi - z.lo) * unit sep < unit p then
      some (roundBound 150 (divUp (z.lo * unit 150) (unit p)))
    else none

/-- All five coefficients, where the bounds tell them. -/
def coefsAt (p sep : Nat) (r : RawCoefs) : Option Coefs :=
  (roundQuotient p sep r.b0r r.a0r).bind fun b0 =>
  (roundQuotient p sep r.b1r r.a0r).bind fun b1 =>
  (roundQuotient p sep r.b2r r.a0r).bind fun b2 =>
  (roundQuotient p sep r.a1r r.a0r).bind fun a1 =>
  (roundQuotient p sep r.a2r r.a0r).map fun a2 =>
  { b0 := b0, b1 := b1, b2 := b2, a1 := a1, a2 := a2 }

/-- The first precision, from `p` on by doubling, whose bounds tell the coefficients; with legal parameters there is one
before the fuel is out (log 5). -/
def coefSearch (sep fs : Nat) (f0 q gdb : Rat) : Nat → Nat → Option Coefs
  | 0, _ => none
  | fuel + 1, p =>
    match coefsAt p sep (rawCoefs p fs f0 q gdb) with
    | some c => some c
    | none => coefSearch sep fs f0 q gdb fuel (2 * p)

/-- The reference `NUM.coef` (R139): each real quotient, rounded once (D6). -/
def refCoef (fs : Nat) (f0 q gdb : Rat) : Coefs :=
  let sep := sepBits boundaryBits fs f0 q gdb
  (coefSearch sep fs f0 q gdb (doublings sep) (coefPrecision gdb)).getD
    { b0 := fZero, b1 := fZero, b2 := fZero, a1 := fZero, a2 := fZero }

/-- `TOL_COEF`, a non-negative real (R5). -/
def tolCoef : Rat := if Config.tolCoef < 0 then 0 else Config.tolCoef

/-- The value of a finite `F`. -/
def fToRat (x : F) : Rat := sval x / 2 ^ 149

/-- Whether the bounds leave it possible that the real quotient `n / d` is at most `tol` away from `x`. -/
def withinAt (p : Nat) (x tol : Rat) (n d : Enc) : Bool :=
  decide (d.lo ≤ 0 ∨ d.hi < d.lo)
    || (decide ((((Enc.div p n d).lo : Int) : Rat) ≤ (x + tol) * 2 ^ p)
      && decide ((x - tol) * 2 ^ p ≤ (((Enc.div p n d).hi : Int) : Rat)))

/-- The bits of the two rationals `x - tol` and `x + tol`. -/
def toleranceBits (x tol : Rat) : Nat :=
  Nat.log2 ((x - tol).num.natAbs + (x - tol).den + (x + tol).num.natAbs + (x + tol).den) + 1

/-- Whether `x` is finite and at most `TOL_COEF` away from a real quotient of raw coefficients (R141): no precision
refutes it. The last one tells every difference that is not 0 (log 5). -/
def coefClose (pick : RawCoefs → Enc) (x : F) (fs : Nat) (f0 q gdb : Rat) : Bool :=
  isFinite x &&
    (List.range (doublings (sepBits (toleranceBits (fToRat x) tolCoef) fs f0 q gdb))).all (fun k =>
      let r := rawCoefs (coefPrecision gdb * 2 ^ k) fs f0 q gdb
      withinAt (coefPrecision gdb * 2 ^ k) (fToRat x) tolCoef (pick r) r.a0r)

/-- Whether all five coefficients are within `TOL_COEF` of the real values (R141). -/
def coefsClose (c : Coefs) (fs : Nat) (f0 q gdb : Rat) : Bool :=
  coefClose RawCoefs.b0r c.b0 fs f0 q gdb && coefClose RawCoefs.b1r c.b1 fs f0 q gdb
    && coefClose RawCoefs.b2r c.b2 fs f0 q gdb && coefClose RawCoefs.a1r c.a1 fs f0 q gdb
    && coefClose RawCoefs.a2r c.a2 fs f0 q gdb

/-- The open instance (R141): any function of the four arguments that is within the tolerance, or the reference
(log 5). -/
def openCoef (fs : Nat) (f0 q gdb : Rat) : Coefs :=
  let c := Config.rawCoef fs f0 q gdb
  if coefsClose c fs f0 q gdb then c else refCoef fs f0 q gdb

/-- `NUM.coef` of the implementation (R139, R141). -/
def numCoef (num : NumSel) (fs : Nat) (f0 q gdb : Rat) : Coefs :=
  match num with
  | .reference => refCoef fs f0 q gdb
  | .other => openCoef fs f0 q gdb

end Sys2Proof.Machine
end

