-- ==== Sys2Proof/Machine/State.lean ====
section
/-! DEFINITION. The state: the spec's record `S` (R20) as the field `hw`, and beside it the inputs of a step that the
spec keeps outside `S` (R38), the host's pending requests, the answer to the last one, and the counters of the free
values. Plain data throughout. The reset state stands at the end (R37). -/

namespace Sys2Proof.Machine

/-- `PHASE` (R21). -/
inductive Phase where
  | idle
  | run
  | fault
  deriving DecidableEq, Repr

/-- The contents of the `FAULT` register (R22, R78). -/
inductive FaultCode where
  | none
  | invalidEffectParameter
  | sourceUnreadable
  | writeFailure
  deriving DecidableEq, Repr

/-- The parameter registers 0 to 15 in the order of R26. -/
structure Cfg where
  fs : Option Nat
  nch : Option Nat
  sel : BitVec 6
  rvDelay : Rat
  rvMix : F
  rvFb : F
  dtGain : F
  dtThr : F
  bbF0 : Rat
  bbQ : Rat
  bbGdb : Rat
  odGain : F
  odThr : F
  dsDelay : Rat
  dsMix : F
  dsFb : F
  deriving DecidableEq, Repr

/-- The latched format (R25). -/
structure Fmt where
  fs : Nat
  nch : Nat
  deriving DecidableEq, Repr

/-- A delay memory: the elements that are not `+0`, as (index, value), indices strictly rising; an unlisted element
reads `+0`, which is what `BUILD` fills the memory with (R28; log 14). -/
abbrev Memory := List (Nat × F)

/-- The delay-line record (R28). -/
structure DelayLine where
  len : Nat
  mem : Memory
  idx : Nat
  mix : F
  fb : F
  deriving DecidableEq, Repr

/-- The biquad record: five coefficients, two past inputs, two past outputs (R30). -/
structure Biquad where
  b0 : F
  b1 : F
  b2 : F
  a1 : F
  a2 : F
  x1 : F
  x2 : F
  y1 : F
  y2 : F
  deriving DecidableEq, Repr

/-- The latched gain and threshold of a waveshaper (R32). -/
structure Shaper where
  g : F
  t : F
  deriving DecidableEq, Repr

/-- The record `S` of R20. A stage record is absent until `BUILD` writes it: the spec gives it no value before
(R37, U7; log 10). -/
structure Hw where
  phase : Phase
  fault : FaultCode
  cfg : Cfg
  fmt : Option Fmt
  eff : BitVec 5
  rv : Option DelayLine
  dt : Option Shaper
  bb : Option Biquad
  od : Option Shaper
  ds : Option DelayLine
  deriving DecidableEq, Repr

/-- The source (R96): what is left of its stream, the counts it hands over at its next calls, and the index of the
free value that stands for its choice once `counts` is used up (U12; log 11). -/
structure Source where
  stream : List F
  counts : List Nat
  pulls : Nat
  deriving DecidableEq, Repr

/-- The working registers of the two set decoders: the `sel` of `DecodeSel` (R72) and the value of `EFF` (R74) while
a string or a word is decoded (log 8). -/
structure Dec where
  sel : BitVec 6
  eff : BitVec 5
  deriving DecidableEq, Repr

/-- For each stage, the index of its next NaN draw (R8, U4; log 2). -/
structure Draws where
  rv : Nat
  dt : Nat
  bb : Nat
  od : Nat
  ds : Nat
  deriving DecidableEq, Repr

/-- Why a request was refused (R180). `stageNotInChain` and `noSuchSample` answer a single stage step whose stage is
not part of a running chain or whose element lies outside the buffer (R20, R54; log 9). -/
inductive Reject where
  | wrongPhase
  | noSuchRegister
  | readOnlyRegister
  | beyondBuffer
  | badFailCode
  | reservedCommand
  | stageNotInChain
  | noSuchSample
  deriving DecidableEq, Repr

/-- What `CFGRD` returns: a register's value, "no value", the phase or the number of the fault code (R167, R78). -/
inductive ReadVal where
  | noValue
  | value (v : CfgVal)
  | phase (p : Phase)
  | fault (code : Nat)
  deriving DecidableEq, Repr

/-- The answer to the last request (the result column of R76; log 18). `none`: no request yet. `ended`: accepted, no
result. `refused`: not accepted, which is no success (R180). -/
inductive Response where
  | none
  | ended
  | refused (why : Reject)
  | count (n : Nat)
  | format (fs nch : Nat)
  | value (v : ReadVal)
  | selection (sel : BitVec 6)
  | effective (eff : BitVec 5)
  | sample (y : F)
  deriving DecidableEq, Repr

/-- The whole state. `hw` is `S` (R20). `buf` is the caller's block buffer (R50), `src` the source (R96), `queue` the
host's pending requests, oldest first (R2), `resp` the answer to the last one; `dec`, `draws` and `impl` are the
model's own. -/
structure State where
  hw : Hw
  buf : List F
  src : Source
  queue : List Request
  resp : Response
  dec : Dec
  draws : Draws
  impl : Impl
  deriving DecidableEq, Repr

/-- Why the machine stops with a fault. None is a fault of the hardware, whose faults are recorded in `FAULT` and are
next states (R177). Both are raised only in states that no run reaches (log 19), and both are safe. -/
inductive Fault where
  /-- A stage step or `PRODUCE` in `RUN` whose selected stage has no record; `BUILD` leaves every selected stage a
  record (R37). Safe: the machine stops. -/
  | stageRecordAbsent (k : Kind)
  /-- `FORMAT` in `RUN` with no latched format; `BUILD` latches one (R25). Safe: the machine stops. -/
  | formatAbsent
  deriving DecidableEq, Repr

/-- Why a request has no meaning. A command the spec refuses (R180) is none of these: it is a next state. -/
inductive Refusal where
  /-- Raised by the dispatch for an instruction that has no meaning yet. Safe. -/
  | notModelled (mnemonic : String)
  /-- Raised by `CFGWR` with a value that is not of the register's type, to which the spec gives no move
  (D27 (4), R208). Safe. -/
  | valueOfWrongType (reg : Nat)
  /-- Raised by the step for stage kind codes 5 to 7, which no chain contains (R81 (c), U19). Safe. -/
  | reservedKind (code : Nat)
  /-- Raised by the step for a command code handed over with another command's operands, to which the spec gives no
  move (R76, D27 (4)). Safe. -/
  | malformedCommand (code : Nat)
  deriving DecidableEq, Repr

/-- The parameter registers at reset: the documented defaults (R6, R26, R37). -/
def Cfg.reset : Cfg where
  fs := none
  nch := none
  sel := 0b000000#6
  rvDelay := 1 / 10
  rvMix := 0x3F000000#32
  rvFb := 0x3F800000#32
  dtGain := 0x40400000#32
  dtThr := 0x3F19999A#32
  bbF0 := 200
  bbQ := 1
  bbGdb := 6
  odGain := 0x40400000#32
  odThr := 0x3E99999A#32
  dsDelay := 1 / 2
  dsMix := 0x3F000000#32
  dsFb := 0x3F000000#32

/-- The record `S` at reset (R37). -/
def Hw.reset : Hw where
  phase := .idle
  fault := .none
  cfg := Cfg.reset
  fmt := none
  eff := 0b00000#5
  rv := none
  dt := none
  bb := none
  od := none
  ds := none

/-- The machine right after reset: `S` as R37 gives it; no buffer handed over, no source stream, no pending request
(DESIGN CHOICE, logs 1, 11, 12); the counters of the free values at 0 (DESIGN CHOICE, logs 2, 11); the open
parameters not pinned (logs 3, 4, 5). -/
def State.reset : State where
  hw := Hw.reset
  buf := []
  src := { stream := [], counts := [], pulls := 0 }
  queue := []
  resp := .none
  dec := { sel := 0b000000#6, eff := 0b00000#5 }
  draws := { rv := 0, dt := 0, bb := 0, od := 0, ds := 0 }
  impl := { tie := none, depthMax := none, num := .other }

end Sys2Proof.Machine
end

