-- ==== Sys2Proof/Machine/Operands.lean ====
section
/-! DEFINITION. Values assembled from operands and configuration (R80): the register file by number (R26, R77), the
selection word and its expansion (R73, R74), the delay length (R109), the open parameters (R5). -/

namespace Sys2Proof.Machine

/-! ### Stage kinds and masks -/

/-- A stage's code, which is its bit number in `EFF` (R75). -/
def kindCode : Kind → Nat
  | .reverb => 0
  | .distortion => 1
  | .bassboost => 2
  | .overdrive => 3
  | .distance => 4

/-- The canonical order, increasing code (R75, R158). -/
def canonicalOrder : List Kind := [.reverb, .distortion, .bassboost, .overdrive, .distance]

/-- Whether a mask selects a stage (R25, R75). -/
def selects (eff : BitVec 5) (k : Kind) : Bool := eff.getLsbD (kindCode k)

/-- `EFF` of a selection word (R74): all five where the "all" marker, bit 5, is present, else bits 4 to 0. -/
def effOf (sel : BitVec 6) : BitVec 5 :=
  if sel.getLsbD 5 then 0b11111#5 else sel.setWidth 5

/-! ### The register file by number -/

/-- The code of a fault, the value of the `FAULT` register as a number (R78). -/
def faultNumber : FaultCode → Nat
  | .none => 0
  | .invalidEffectParameter => 1
  | .sourceUnreadable => 2
  | .writeFailure => 3

/-- The fault a code of R78 names. -/
def faultOfNumber : Nat → Option FaultCode
  | 0 => some .none
  | 1 => some .invalidEffectParameter
  | 2 => some .sourceUnreadable
  | 3 => some .writeFailure
  | _ => none

/-- A value of `FS` or `NCH` as `CFGRD` returns it, possibly "no value" (R167). -/
def readNat : Option Nat → ReadVal
  | none => .noValue
  | some n => .value (.nat n)

/-- The register `reg` (R26): 16 is the phase, 17 the fault code (R78); `none` for a number that does not exist (R77). -/
def cfgGet (reg : Nat) (hw : Hw) : Option ReadVal :=
  match reg with
  | 0 => some (readNat hw.cfg.fs)
  | 1 => some (readNat hw.cfg.nch)
  | 2 => some (.value (.word hw.cfg.sel.toNat))
  | 3 => some (.value (.real hw.cfg.rvDelay))
  | 4 => some (.value (.f hw.cfg.rvMix))
  | 5 => some (.value (.f hw.cfg.rvFb))
  | 6 => some (.value (.f hw.cfg.dtGain))
  | 7 => some (.value (.f hw.cfg.dtThr))
  | 8 => some (.value (.real hw.cfg.bbF0))
  | 9 => some (.value (.real hw.cfg.bbQ))
  | 10 => some (.value (.real hw.cfg.bbGdb))
  | 11 => some (.value (.f hw.cfg.odGain))
  | 12 => some (.value (.f hw.cfg.odThr))
  | 13 => some (.value (.real hw.cfg.dsDelay))
  | 14 => some (.value (.f hw.cfg.dsMix))
  | 15 => some (.value (.f hw.cfg.dsFb))
  | 16 => some (.phase hw.phase)
  | 17 => some (.fault (faultNumber hw.fault))
  | _ => none

/-- `cfg[reg] <- value` (R166) for `reg` of 0 to 15 and a value of its type, a word for `SEL` cut to bits 5 to 0 (R73);
`none` for a value of another type. -/
def cfgSet (reg : Nat) (value : CfgVal) (c : Cfg) : Option Cfg :=
  match reg, value with
  | 0, .nat n => some { c with fs := some n }
  | 1, .nat n => some { c with nch := some n }
  | 2, .word w => some { c with sel := BitVec.ofNat 6 w }
  | 3, .real q => some { c with rvDelay := q }
  | 4, .f x => some { c with rvMix := x }
  | 5, .f x => some { c with rvFb := x }
  | 6, .f x => some { c with dtGain := x }
  | 7, .f x => some { c with dtThr := x }
  | 8, .real q => some { c with bbF0 := q }
  | 9, .real q => some { c with bbQ := q }
  | 10, .real q => some { c with bbGdb := q }
  | 11, .f x => some { c with odGain := x }
  | 12, .f x => some { c with odThr := x }
  | 13, .real q => some { c with dsDelay := q }
  | 14, .f x => some { c with dsMix := x }
  | 15, .f x => some { c with dsFb := x }
  | _, _ => none

/-! ### Open parameters and the delay length -/

/-- `TIE` of the implementation (R5; log 3). -/
def tieOf (p : Impl) : Tie := p.tie.getD Config.tie

/-- `DEPTH_MAX` of the implementation, at least 1 (R5; log 3). -/
def depthMaxOf (p : Impl) : Nat := max 1 (p.depthMax.getD Config.depthMax)

/-- `round_len` of a non-negative rational (R109). -/
def roundLen (tie : Tie) (v : Rat) : Nat :=
  let k := v.num.toNat / v.den
  let r := v.num.toNat % v.den
  if 2 * r < v.den then k
  else if v.den < 2 * r then k + 1
  else match tie with
    | .away => k + 1
    | .even => if k % 2 = 0 then k else k + 1

/-- `len = max(1, round_len(DELAY × FS))`, the product exact (R109, R80 (b)). -/
def delayLen (p : Impl) (delay : Rat) (fs : Nat) : Nat := max 1 (roundLen (tieOf p) (delay * (fs : Rat)))

end Sys2Proof.Machine
end

