-- ==== Sys2Proof/Machine/Ops.lean ====
section
/-! DEFINITION. The shared operations over the state: the delay memories and the block buffer (R54, R55), the source
(R96), answers and refusals (R180), fault entry (R177) and the return from it (R178), and one stage step on one
buffer element (R98). -/

namespace Sys2Proof.Machine

/-! ### Delay memories (R55) -/

/-- Element `a`; an unlisted one reads `+0` (log 14). -/
def Memory.get : Memory → Nat → F
  | [], _ => fZero
  | (b, w) :: rest, a => if a = b then w else Memory.get rest a

/-- `mem[a] <- v`, keeping the canonical form: writing `+0` removes the entry. -/
def Memory.set : Memory → Nat → F → Memory
  | [], a, v => if v = fZero then [] else [(a, v)]
  | (b, w) :: rest, a, v =>
    if a < b then (if v = fZero then (b, w) :: rest else (a, v) :: (b, w) :: rest)
    else if a = b then (if v = fZero then rest else (a, v) :: rest)
    else (b, w) :: Memory.set rest a v

/-- Indices strictly rising from `lo` on and below `len`, and no listed `+0`. -/
def Memory.wfFrom (len : Nat) : Nat → Memory → Bool
  | _, [] => true
  | lo, (a, v) :: rest => decide (lo ≤ a) && decide (a < len) && decide (v ≠ fZero) && Memory.wfFrom len (a + 1) rest

/-- The canonical form of a delay memory of `len` elements. -/
def Memory.wf (len : Nat) (m : Memory) : Bool := Memory.wfFrom len 0 m

/-- `DlRead(dl) = dl.mem[dl.idx]` (R55). -/
def dlRead (dl : DelayLine) : F := Memory.get dl.mem dl.idx

/-- `DlWrite(dl, v)`: `dl.mem[dl.idx] <- v` (R55). -/
def dlWrite (dl : DelayLine) (v : F) : DelayLine := { dl with mem := Memory.set dl.mem dl.idx v }

/-! ### The block buffer (R54) -/

/-- `BufRead(buf, a)`, for `a < buflen`. -/
def bufRead (buf : List F) (a : Nat) : F := buf.getD a fZero

/-- `BufWrite(buf, a, v)`, for `a < buflen`. -/
def bufWrite (buf : List F) (a : Nat) (v : F) : List F := buf.set a v

/-- Consecutive samples written from index `a` on. -/
def bufFill : List F → Nat → List F → List F
  | buf, _, [] => buf
  | buf, a, x :: xs => bufFill (bufWrite buf a x) (a + 1) xs

/-! ### Answers, refusals, faults -/

/-- Give an answer to the request being served. -/
def respond (r : Response) (s : State) : State := { s with resp := r }

/-- `refuse` (R180): no state of the block changes, no result, no fault; the host sees that the command was refused
(log 7). -/
def refuse (why : Reject) (s : State) : Host.Outcome State Fault Refusal := .next (respond (.refused why) s)

/-- `raise X` and `FAIL` (R177): the first code is kept, `PHASE <- FAULT`, nothing is saved, no result. -/
def raiseFault (code : FaultCode) (s : State) : State :=
  { s with
    hw := { s.hw with
      fault := if s.hw.fault = .none then code else s.hw.fault
      phase := .fault }
    resp := .ended }

/-- The reset event and the way out of `RUN` and of `FAULT` (R165, R178, R190): the whole of `S` takes its reset
values. -/
def resetHw (s : State) : State := { s with hw := Hw.reset, resp := .ended }

/-! ### The source (R96) -/

/-- How many samples the source hands over when at most `avail > 0` can be: its choice, at least 1 and at most
`avail` (R96 (a), (c), (d)). -/
def sourceChoice (src : Source) (avail : Nat) : Nat :=
  match src.counts with
  | c :: _ => max 1 (min c avail)
  | [] => max 1 (min (Config.sourceCount src.pulls) avail)

/-- `PULL`: the samples handed over, at most `maxCount`, none only when `maxCount = 0` or nothing remains; and the
source after it (R96; log 11). -/
def pull (maxCount : Nat) (src : Source) : List F × Source :=
  let avail := min maxCount src.stream.length
  if avail = 0 then ([], src)
  else
    let n := sourceChoice src avail
    (src.stream.take n,
      { stream := src.stream.drop n, counts := src.counts.tail, pulls := src.pulls + 1 })

/-! ### One stage step (R98) -/

/-- One pass of the inner loop of `PRODUCE` (R98): `x = BufRead(buf, a)`, `y = STEP_k(x)`, `BufWrite(buf, a, y)`. -/
def sampleAt (step : F → State → F × State) (a : Nat) (s : State) : State :=
  let r := step (bufRead s.buf a) s
  { r.2 with buf := bufWrite r.2.buf a r.1 }

/-- A stage over `n` elements from `a` on, in increasing index (R98, R99). -/
def sweep (step : F → State → F × State) : Nat → Nat → State → State
  | _, 0, s => s
  | a, n + 1, s => sweep step (a + 1) n (sampleAt step a s)

/-- One arm of the per-sample dispatch by itself, on buffer element `a` (R75; log 9). The stage must be part of a
running chain, otherwise no rule reads its record (R20); the element must exist (R54). -/
def runStage (k : Kind) (present : Bool) (step : F → State → F × State) (a : Nat) (s : State) :
    Host.Outcome State Fault Refusal :=
  if s.hw.phase ≠ .run ∨ selects s.hw.eff k = false then refuse .stageNotInChain s
  else if s.buf.length ≤ a then refuse .noSuchSample s
  else if present = false then .fault (.stageRecordAbsent k)
  else .next (respond (.sample (step (bufRead s.buf a) s).1) (sampleAt step a s))

end Sys2Proof.Machine
end

