-- ==== Sys2Proof/Machine/Biquad.lean ====
section
/-! DEFINITION. The biquad filter stage (43_biquad.md): the recurrence and `BASSBOOST`. The coefficient calculator
`BQCOEF` is in Machine/Num.lean and runs inside `BUILD`. -/

namespace Sys2Proof.Machine

/-- The record `BUILD` makes of five coefficients: history all `+0` (R30, R37). -/
def Biquad.fresh (c : Coefs) : Biquad where
  b0 := c.b0
  b1 := c.b1
  b2 := c.b2
  a1 := c.a1
  a2 := c.a2
  x1 := fZero
  x2 := fZero
  y1 := fZero
  y2 := fZero

/-- The direct-form-I sum of R142, left to right, nine operations each rounded once (D31). -/
def biquadOut (q : Nat → F) (bb : Biquad) (x : F) : F :=
  let acc := fmul (q 0) bb.b0 x
  let acc := fadd (q 2) acc (fmul (q 1) bb.b1 bb.x1)
  let acc := fadd (q 4) acc (fmul (q 3) bb.b2 bb.x2)
  let acc := fsub (q 6) acc (fmul (q 5) bb.a1 bb.y1)
  fsub (q 8) acc (fmul (q 7) bb.a2 bb.y2)

/-- `BASSBOOST(x)` (R142): the output, then the history shift from the values before the step (R143). -/
def biquadStep (q : Nat → F) (bb : Biquad) (x : F) : F × Biquad :=
  let y := biquadOut q bb x
  (y, { bb with x2 := bb.x1, x1 := x, y2 := bb.y1, y1 := y })

/-- `STEP_2` (R98): `BASSBOOST` on `S.bb`. -/
def bassboostSample (x : F) (s : State) : F × State :=
  match s.hw.bb with
  | none => (x, s)
  | some bb =>
    let r := biquadStep (fun j => nanDraw .bassboost (s.draws.bb + j)) bb x
    (r.1, { s with hw := { s.hw with bb := some r.2 }, draws := { s.draws with bb := s.draws.bb + 9 } })

/-- `BASSBOOST` on buffer element `a` (R142). -/
def execBassboost (a : Nat) (s : State) : Host.Outcome State Fault Refusal :=
  runStage .bassboost s.hw.bb.isSome bassboostSample a s

end Sys2Proof.Machine
end

