-- ==== Sys2Proof/Machine/Chain.lean ====
section
/-! DEFINITION. The chain wrapper (44_chain_builder.md) and the host-reported failures (R177): `RESET`, `CFGWR`,
`CFGRD`, `BUILD`, `FAIL`. -/

namespace Sys2Proof.Machine

/-- `RESET` (R165): accepted in every phase. -/
def execReset (s : State) : Host.Outcome State Fault Refusal := .next (resetHw s)

/-- `CFGWR(reg, value)` (R166): in `IDLE`, to registers 0 to 15, no check of the value. A value that is not of the
register's type has no move (D27 (4); log 15). -/
def execCfgwr (reg : Nat) (value : CfgVal) (s : State) : Host.Outcome State Fault Refusal :=
  if s.hw.phase ≠ .idle then refuse .wrongPhase s
  else if 18 ≤ reg then refuse .noSuchRegister s
  else if 16 ≤ reg then refuse .readOnlyRegister s
  else match cfgSet reg value s.hw.cfg with
    | none => .refused (.valueOfWrongType reg)
    | some c => .next (respond .ended { s with hw := { s.hw with cfg := c } })

/-- `CFGRD(reg)` (R167): in every phase, registers 0 to 17. -/
def execCfgrd (reg : Nat) (s : State) : Host.Outcome State Fault Refusal :=
  match cfgGet reg s.hw with
  | none => refuse .noSuchRegister s
  | some v => .next (respond (.value v) s)

/-- The checks of `BUILD` on the parameters of stage `k` (R162, R171). -/
def stageOk (p : Impl) (c : Cfg) (fs : Nat) : Kind → Bool
  | .reverb => decide (0 < c.rvDelay) && isFinite c.rvMix && isFinite c.rvFb
      && decide (delayLen p c.rvDelay fs ≤ depthMaxOf p)
  | .distortion => isFinite c.dtGain && isFinite c.dtThr
  | .bassboost => decide (0 < c.bbF0) && decide (2 * c.bbF0 < (fs : Rat)) && decide (0 < c.bbQ)
  | .overdrive => isFinite c.odGain && isFinite c.odThr
  | .distance => decide (0 < c.dsDelay) && isFinite c.dsMix && isFinite c.dsFb
      && decide (delayLen p c.dsDelay fs ≤ depthMaxOf p)

/-- The checks of `BUILD` on the format and on the selected stages only (R162). -/
def buildOk (p : Impl) (c : Cfg) (fs nch : Nat) : Bool :=
  decide (0 < fs) && decide (0 < nch)
    && canonicalOrder.all (fun k => !selects (effOf c.sel) k || stageOk p c fs k)

/-- A fresh delay line: all `+0`, cursor 0 (R37, R162). -/
def DelayLine.fresh (len : Nat) (mix fb : F) : DelayLine where
  len := len
  mem := []
  idx := 0
  mix := mix
  fb := fb

/-- What a successful `BUILD` writes (R162): the latched format and mask, the records of the selected stages,
`PHASE = RUN`. -/
def builtHw (p : Impl) (fs nch : Nat) (hw : Hw) : Hw :=
  let c := hw.cfg
  let e := effOf c.sel
  { hw with
    fmt := some { fs := fs, nch := nch }
    eff := e
    rv := if selects e .reverb then some (DelayLine.fresh (delayLen p c.rvDelay fs) c.rvMix c.rvFb) else hw.rv
    dt := if selects e .distortion then some { g := c.dtGain, t := c.dtThr } else hw.dt
    bb := if selects e .bassboost then some (Biquad.fresh (numCoef p.num fs c.bbF0 c.bbQ c.bbGdb)) else hw.bb
    od := if selects e .overdrive then some { g := c.odGain, t := c.odThr } else hw.od
    ds := if selects e .distance then some (DelayLine.fresh (delayLen p c.dsDelay fs) c.dsMix c.dsFb) else hw.ds
    phase := .run }

/-- `BUILD` (R161, R162): refused outside `IDLE`; `InvalidEffectParameter` when a check fails, which includes a format
register never written; else the chain. -/
def execBuild (s : State) : Host.Outcome State Fault Refusal :=
  if s.hw.phase ≠ .idle then refuse .wrongPhase s
  else match s.hw.cfg.fs, s.hw.cfg.nch with
    | some fs, some nch =>
      if buildOk s.impl s.hw.cfg fs nch then
        .next (respond .ended { s with hw := builtHw s.impl fs nch s.hw })
      else .next (raiseFault .invalidEffectParameter s)
    | _, _ => .next (raiseFault .invalidEffectParameter s)

/-- The failure a `FAIL` code reports: 2 and 3 only, since code 1 is the block's own (R177). -/
def reportedFault (code : Nat) : Option FaultCode :=
  if code = 2 ∨ code = 3 then faultOfNumber code else none

/-- `FAIL(code)` (R177): in every phase, with code 2 or 3. -/
def execFail (code : Nat) (s : State) : Host.Outcome State Fault Refusal :=
  match reportedFault code with
  | some c => .next (raiseFault c s)
  | none => refuse .badFailCode s

end Sys2Proof.Machine
end

