-- ==== Sys2Proof/Machine/DelayLine.lean ====
section
/-! DEFINITION. The delay-line stage (41_delay_line.md): the step both variants share, and `REVERB` and `DISTANCE`. -/

namespace Sys2Proof.Machine

/-- `DLSTEP(dl, x)` (R106): the delayed sample, the mixed output, the feedback from the mixed output (C1), the advance
of the cursor. Two products and a sum, each rounded once; `q j` is the NaN operation `j` would return. -/
def dlStep (q : Nat → F) (dl : DelayLine) (x : F) : F × DelayLine :=
  let d := dlRead dl
  let y := fadd (q 1) x (fmul (q 0) d dl.mix)
  let fed := dlWrite dl (fmul (q 2) dl.fb y)
  (y, { fed with idx := (dl.idx + 1) % dl.len })

/-- `STEP_0` (R98): `DLSTEP` on `S.rv`. -/
def reverbSample (x : F) (s : State) : F × State :=
  match s.hw.rv with
  | none => (x, s)
  | some dl =>
    let r := dlStep (fun j => nanDraw .reverb (s.draws.rv + j)) dl x
    (r.1, { s with hw := { s.hw with rv := some r.2 }, draws := { s.draws with rv := s.draws.rv + 3 } })

/-- `STEP_4` (R98): `DLSTEP` on `S.ds`. -/
def distanceSample (x : F) (s : State) : F × State :=
  match s.hw.ds with
  | none => (x, s)
  | some dl =>
    let r := dlStep (fun j => nanDraw .distance (s.draws.ds + j)) dl x
    (r.1, { s with hw := { s.hw with ds := some r.2 }, draws := { s.draws with ds := s.draws.ds + 3 } })

/-- `REVERB(x)` (R107) on buffer element `a`. -/
def execReverb (a : Nat) (s : State) : Host.Outcome State Fault Refusal :=
  runStage .reverb s.hw.rv.isSome reverbSample a s

/-- `DISTANCE(x)` (R108) on buffer element `a`. -/
def execDistance (a : Nat) (s : State) : Host.Outcome State Fault Refusal :=
  runStage .distance s.hw.ds.isSome distanceSample a s

end Sys2Proof.Machine
end

