-- ==== Sys2Proof/Machine/Waveshaper.lean ====
section
/-! DEFINITION. The waveshaper stages (42_waveshaper.md): `DISTORTION` and `OVERDRIVE`, pure functions of the sample
and the two latched parameters (R120, R128). -/

namespace Sys2Proof.Machine

/-- `clamp(v, lo, hi)` (R122): the lower test first; a NaN, or an argument at a bound, is returned as it is. -/
def clamp (v lo hi : F) : F :=
  if flt v lo then lo else if fgt v hi then hi else v

/-- `fsign(x)` (R124): of the input, NaN for NaN, `+0` for either zero. -/
def fsign (q x : F) : F :=
  if isNaN x then q
  else if isZero x then fZero
  else if signBit x then fneg fOne
  else fOne

/-- `DISTORTION(x)` (R121). -/
def distortion (q : Nat → F) (p : Shaper) (x : F) : F :=
  clamp (fmul (q 0) p.g x) (fneg p.t) p.t

/-- `OVERDRIVE(x)` (R123): above the knee the exponential, at and below it the scaled input. -/
def overdrive (num : NumSel) (q : Nat → F) (p : Shaper) (x : F) : F :=
  let v := fmul (q 0) p.g x
  let u := fabs v
  if fgt u p.t then
    fmul (q 4) (fsign (q 3) x) (fsub (q 2) fOne (numExp num (q 1) (fneg u)))
  else v

/-- `STEP_1` (R98): `DISTORTION` with `S.dt`; no record is written (R32). -/
def distortionSample (x : F) (s : State) : F × State :=
  match s.hw.dt with
  | none => (x, s)
  | some p =>
    (distortion (fun j => nanDraw .distortion (s.draws.dt + j)) p x,
      { s with draws := { s.draws with dt := s.draws.dt + 1 } })

/-- `STEP_3` (R98): `OVERDRIVE` with `S.od`; no record is written (R32). -/
def overdriveSample (x : F) (s : State) : F × State :=
  match s.hw.od with
  | none => (x, s)
  | some p =>
    (overdrive s.impl.num (fun j => nanDraw .overdrive (s.draws.od + j)) p x,
      { s with draws := { s.draws with od := s.draws.od + 5 } })

/-- `DISTORTION` on buffer element `a` (R121). -/
def execDistortion (a : Nat) (s : State) : Host.Outcome State Fault Refusal :=
  runStage .distortion s.hw.dt.isSome distortionSample a s

/-- `OVERDRIVE` on buffer element `a` (R123). -/
def execOverdrive (a : Nat) (s : State) : Host.Outcome State Fault Refusal :=
  runStage .overdrive s.hw.od.isSome overdriveSample a s

end Sys2Proof.Machine
end

