-- ==== Sys2Proof/Machine/Provider.lean ====
section
/-! DEFINITION. The provider contract (40_sample_provider.md): `PRODUCE` on the chain and `FORMAT`. -/

namespace Sys2Proof.Machine

/-- `STEP_k` (R98), the arms of the per-sample dispatch (R75). -/
def stageSample : Kind → F → State → F × State
  | .reverb => reverbSample
  | .distortion => distortionSample
  | .bassboost => bassboostSample
  | .overdrive => overdriveSample
  | .distance => distanceSample

/-- Whether the record of stage `k` exists. -/
def stagePresent (hw : Hw) : Kind → Bool
  | .reverb => hw.rv.isSome
  | .distortion => hw.dt.isSome
  | .bassboost => hw.bb.isSome
  | .overdrive => hw.od.isSome
  | .distance => hw.ds.isSome

/-- Stage `k` over the block, where the chain holds it (R98). -/
def chainStage (a n : Nat) (s : State) (k : Kind) : State :=
  if selects s.hw.eff k then sweep (stageSample k) a n s else s

/-- The selected stages over the block one after another, in canonical order (R98, R158). -/
def throughChain (a n : Nat) (s : State) : State := canonicalOrder.foldl (chainStage a n) s

/-- A selected stage without a record, if there is one (in no state a run reaches). -/
def absentStage (hw : Hw) : Option Kind :=
  canonicalOrder.find? (fun k => selects hw.eff k && !stagePresent hw k)

/-- The source fills the region of `buf` first (R91, R96): the count, and the state after it. -/
def pullInto (buf : List F) (offset maxCount : Nat) (s : State) : Nat × State :=
  let p := pull maxCount s.src
  (p.1.length, { s with buf := bufFill buf offset p.1, src := p.2 })

/-- `PRODUCE(buf, offset, maxCount)` (R90, R98): refused outside `RUN` and beyond the buffer; else the source, the
stages, and the count the source returned. -/
def execProduce (buf : Option (List F)) (offset maxCount : Nat) (s : State) :
    Host.Outcome State Fault Refusal :=
  if s.hw.phase ≠ .run then refuse .wrongPhase s
  else if (buf.getD s.buf).length < offset + maxCount then refuse .beyondBuffer s
  else match absentStage s.hw with
    | some k => .fault (.stageRecordAbsent k)
    | none =>
      let p := pullInto (buf.getD s.buf) offset maxCount s
      .next (respond (.count p.1) (throughChain offset p.1 p.2))

/-- `FORMAT` (R97): the latched format; refused outside `RUN`. -/
def execFormat (s : State) : Host.Outcome State Fault Refusal :=
  if s.hw.phase ≠ .run then refuse .wrongPhase s
  else match s.hw.fmt with
    | none => .fault .formatAbsent
    | some f => .next (respond (.format f.fs f.nch) s)

end Sys2Proof.Machine
end

