-- ==== Sys2Proof/Machine/Select.lean ====
section
/-! DEFINITION. The selection front end: the six selector characters (R71, R72) and the six bits of the selection word
(R73, R74). Both decode sets, so each row sets its bits and the order does not matter (log 8). -/

namespace Sys2Proof.Machine

/-- `sel[k] <- 1` in `DecodeSel` (R72). -/
def setSel (k : Nat) (s : State) : State :=
  let sel := s.dec.sel ||| BitVec.twoPow 6 k
  { s with dec := { s.dec with sel := sel }, resp := .selection sel }

/-- A set bit of the selection word adds `stages` to the effective mask (R73, R74). -/
def addEff (stages : BitVec 5) (s : State) : State :=
  let eff := s.dec.eff ||| stages
  { s with dec := { s.dec with eff := eff }, resp := .effective eff }

/-- `CHAR_R`: `r` or `R` selects reverb, bit 0 (R71). -/
def execCharR (s : State) : Host.Outcome State Fault Refusal := .next (setSel 0 s)

/-- `CHAR_D`: `d` or `D` selects distortion, bit 1 (R71). -/
def execCharD (s : State) : Host.Outcome State Fault Refusal := .next (setSel 1 s)

/-- `CHAR_B`: `b` or `B` selects bassboost, bit 2 (R71). -/
def execCharB (s : State) : Host.Outcome State Fault Refusal := .next (setSel 2 s)

/-- `CHAR_O`: `o` or `O` selects overdrive, bit 3 (R71). -/
def execCharO (s : State) : Host.Outcome State Fault Refusal := .next (setSel 3 s)

/-- `CHAR_F`: `f` or `F` selects distance, bit 4 (R71). -/
def execCharF (s : State) : Host.Outcome State Fault Refusal := .next (setSel 4 s)

/-- `CHAR_A`: `a` or `A` is the "all" marker, bit 5 (R71). -/
def execCharA (s : State) : Host.Outcome State Fault Refusal := .next (setSel 5 s)

/-- `SEL_R`: bit 0 of the selection word, reverb (R73). -/
def execSelR (s : State) : Host.Outcome State Fault Refusal := .next (addEff 0b00001#5 s)

/-- `SEL_D`: bit 1, distortion (R73). -/
def execSelD (s : State) : Host.Outcome State Fault Refusal := .next (addEff 0b00010#5 s)

/-- `SEL_B`: bit 2, bassboost (R73). -/
def execSelB (s : State) : Host.Outcome State Fault Refusal := .next (addEff 0b00100#5 s)

/-- `SEL_O`: bit 3, overdrive (R73). -/
def execSelO (s : State) : Host.Outcome State Fault Refusal := .next (addEff 0b01000#5 s)

/-- `SEL_F`: bit 4, distance (R73). -/
def execSelF (s : State) : Host.Outcome State Fault Refusal := .next (addEff 0b10000#5 s)

/-- `SEL_A`: bit 5, the "all" marker, which expands to the full set (R74). -/
def execSelA (s : State) : Host.Outcome State Fault Refusal := .next (addEff 0b11111#5 s)

end Sys2Proof.Machine
end

