-- ==== Sys2Proof/Machine/Dispatch.lean ====
section
/-! DEFINITION. One arm per instruction, each a direct call of its meaning. -/

namespace Sys2Proof.Machine

def exec (i : Instr) (s : State) : Host.Outcome State Fault Refusal :=
  match i with
  -- selector characters (R71)
  | .charR => Sys2Proof.Machine.execCharR s
  | .charD => Sys2Proof.Machine.execCharD s
  | .charB => Sys2Proof.Machine.execCharB s
  | .charO => Sys2Proof.Machine.execCharO s
  | .charF => Sys2Proof.Machine.execCharF s
  | .charA => Sys2Proof.Machine.execCharA s
  -- selection word bits (R73)
  | .selR => Sys2Proof.Machine.execSelR s
  | .selD => Sys2Proof.Machine.execSelD s
  | .selB => Sys2Proof.Machine.execSelB s
  | .selO => Sys2Proof.Machine.execSelO s
  | .selF => Sys2Proof.Machine.execSelF s
  | .selA => Sys2Proof.Machine.execSelA s
  -- stage kinds (R75)
  | .reverb a => Sys2Proof.Machine.execReverb a s
  | .distortion a => Sys2Proof.Machine.execDistortion a s
  | .bassboost a => Sys2Proof.Machine.execBassboost a s
  | .overdrive a => Sys2Proof.Machine.execOverdrive a s
  | .distance a => Sys2Proof.Machine.execDistance a s
  -- host commands (R76)
  | .reset => Sys2Proof.Machine.execReset s
  | .cfgwr reg value => Sys2Proof.Machine.execCfgwr reg value s
  | .build => Sys2Proof.Machine.execBuild s
  | .produce buf offset maxCount => Sys2Proof.Machine.execProduce buf offset maxCount s
  | .format => Sys2Proof.Machine.execFormat s
  | .fail code => Sys2Proof.Machine.execFail code s
  | .cfgrd reg => Sys2Proof.Machine.execCfgrd reg s

end Sys2Proof.Machine
end

