-- ==== Sys2Proof/Machine/Sequencer.lean ====
section
/-! DEFINITION. How a request is served: taken from the host's queue, decoded, its instructions executed in order, one
request a step (R2; log 1). -/

namespace Sys2Proof.Machine

/-- The matching rows' instructions, each applied (R84); the first stop ends the request. -/
def execAll : List Instr → State → Host.Outcome State Fault Refusal
  | [], s => .next s
  | i :: is, s =>
    match exec i s with
    | .next t => execAll is t
    | .fault r => .fault r
    | .refused r => .refused r

/-- What the two set decoders start from: `sel = 0b000000` (R72), and no stage (R74). The answer of a string or word
without a matching row is then 0. -/
def beginRequest (r : Request) (s : State) : State :=
  match r with
  | .text _ => { s with dec := { s.dec with sel := 0b000000#6 }, resp := .selection 0b000000#6 }
  | .select _ => { s with dec := { s.dec with eff := 0b00000#5 }, resp := .effective 0b00000#5 }
  | .kind _ _ => s
  | .cmd _ _ => s

/-- One request, once taken from the queue. Command code 7 is refused and the machine goes on (R81 (d), R180); a code
that names no stage and operands of another command have no move (log 16). -/
def serve (r : Request) (s : State) : Host.Outcome State Fault Refusal :=
  match decode r with
  | .instrs is => execAll is (beginRequest r s)
  | .rejected .reservedCommand => refuse .reservedCommand s
  | .rejected (.reservedKind code) => .refused (.reservedKind code)
  | .rejected (.malformedCommand code) => .refused (.malformedCommand code)

/-- The next request of the host; with none pending the block holds its state (R186). -/
def runNext (s : State) : Host.Outcome State Fault Refusal :=
  match s.queue with
  | [] => .next s
  | r :: rest => serve r { s with queue := rest }

/-- `s` with a bare table word as the host's next request (log 13). -/
def placeWord (s : State) (nbits w : Nat) : State := { s with queue := tableRequest nbits w :: s.queue }

end Sys2Proof.Machine
end

