-- ==== Sys2Proof/Machine/Step.lean ====
section
/-! DEFINITION. The step, and the placing of a bare table word where the step takes its next request. -/

namespace Sys2Proof.Machine

/-- One step: the host's next request is taken, decoded and executed (R2, R59; log 1). -/
def step (s : State) : Host.Outcome State Fault Refusal := runNext s

/-- `s` with a bare word of opcode_table.json as the request the next step takes (log 13). -/
def State.withFetchWord (s : State) (nbits w : Nat) : State := placeWord s nbits w

end Sys2Proof.Machine
end

