-- ==== Sys2Proof/Safety.lean ====
section
/-! DEFINITION. The terms claims are stated in: the invariant of the machine, a run with its end and its output (R204),
equality up to which NaN, and the spec's own closed descriptions that the machine is compared with. -/

namespace Sys2Proof.Machine

/-! ### The invariant -/

/-- A latched waveshaper: finite gain and threshold (R120). -/
def shaperOk (p : Shaper) : Bool := isFinite p.g && isFinite p.t

/-- A delay line: at least one element, the cursor inside (R28), the memory in canonical form, finite factors (R26). -/
def delayLineOk (dl : DelayLine) : Bool :=
  decide (1 ≤ dl.len) && decide (dl.idx < dl.len) && Memory.wf dl.len dl.mem && isFinite dl.mix && isFinite dl.fb

/-- The latched format: a positive rate and a positive channel count (R23, R25). -/
def fmtOk (f : Fmt) : Bool := decide (0 < f.fs) && decide (0 < f.nch)

/-- What holds of `S` in every phase: `PHASE = FAULT` exactly when a code is recorded (R21, R22); no chain in `IDLE`
and a latched format in `RUN` (R21, R25); a record exactly for each stage of the mask (R20, R37); and the records and
the format well formed. -/
def hwInv (hw : Hw) : Bool :=
  (decide (hw.phase = .fault) == decide (hw.fault ≠ .none))
    && (decide (hw.phase ≠ .idle) || (hw.eff == 0b00000#5 && hw.fmt.isNone))
    && (decide (hw.phase ≠ .run) || hw.fmt.isSome)
    && canonicalOrder.all (fun k => stagePresent hw k == selects hw.eff k)
    && hw.fmt.all fmtOk && hw.rv.all delayLineOk && hw.ds.all delayLineOk
    && hw.dt.all shaperOk && hw.od.all shaperOk

/-- The invariant: `hwInv`, and no delay memory longer than `DEPTH_MAX` (R162). -/
def invOk (s : State) : Bool :=
  hwInv s.hw && s.hw.rv.all (fun dl => decide (dl.len ≤ depthMaxOf s.impl))
    && s.hw.ds.all (fun dl => decide (dl.len ≤ depthMaxOf s.impl))

/-- The invariant as a proposition. -/
abbrev State.Inv (s : State) : Prop := invOk s = true

/-! ### Runs (R204) -/

/-- The seven host commands (R76), of which a run consists. -/
def isHostCommand : Instr → Bool
  | .reset | .cfgwr _ _ | .build | .produce _ _ _ | .format | .fail _ | .cfgrd _ => true
  | .charR | .charD | .charB | .charO | .charF | .charA => false
  | .selR | .selD | .selB | .selO | .selF | .selA => false
  | .reverb _ | .distortion _ | .bassboost _ | .overdrive _ | .distance _ => false

/-- The sub-range `[offset, offset+n)` of the buffer, which a `PRODUCE` that returned `n` filled (R93, R204). -/
def filled (offset n : Nat) (s : State) : List F := (s.buf.drop offset).take n

/-- What is known of the current run: whether it has ended, and its output so far (R204). -/
structure Run where
  ended : Bool
  output : List F
  deriving DecidableEq, Repr

/-- A run at its beginning. -/
def Run.begin : Run where
  ended := false
  output := []

/-- The count a `PRODUCE` returned, where command `i` was one that did and `t` is the state after it. -/
def returnedCount (i : Instr) (t : State) : Option Nat :=
  match i, t.resp with
  | .produce _ _ _, .count n => some n
  | _, _ => none

/-- The samples a command handed over: `buf[offset … offset+n-1]` after a `PRODUCE` that returned `n` (R204). -/
def handedOver (i : Instr) (t : State) : List F :=
  match i, t.resp with
  | .produce _ offset _, .count n => filled offset n t
  | _, _ => []

/-- The run after command `i` led to state `t`: `RESET` begins a run; a `PRODUCE` that returned 0, and `PHASE = FAULT`,
end it for good; a `PRODUCE` that returned samples adds them to its output (R204). -/
def Run.note (i : Instr) (t : State) (r : Run) : Run :=
  if i = .reset then Run.begin
  else
    { ended := r.ended || decide (returnedCount i t = some 0) || decide (t.hw.phase = .fault)
      output := r.output ++ handedOver i t }

/-- A sequence of commands, refused ones included, from a state within a run: the state and the run after it; `none`
where a command stops the machine. -/
def runCommands : List Instr → State → Run → Option (State × Run)
  | [], s, r => some (s, r)
  | i :: is, s, r =>
    match exec i s with
    | .next t => runCommands is t (r.note i t)
    | .fault _ => none
    | .refused _ => none

/-! ### Comparing values -/

/-- Equal, or both NaN: no rule distinguishes one NaN from another (R8). -/
def sameUpToNaN (a b : F) : Bool := a == b || (isNaN a && isNaN b)

/-- Equal up to which NaN and up to the sign of zero (R111, C6). -/
def sameUpToZero (a b : F) : Bool := sameUpToNaN a b || (isZero a && isZero b)

/-! ### The spec's closed descriptions -/

/-- `DecodeSel(str)` as R72 writes it. -/
def decodeSel (str : List Byte) : BitVec 6 :=
  str.foldl (fun sel c =>
    let u := c &&& 0xDF#8
    let sel := if u = 0x52#8 then sel ||| 0b000001#6 else sel
    let sel := if u = 0x44#8 then sel ||| 0b000010#6 else sel
    let sel := if u = 0x42#8 then sel ||| 0b000100#6 else sel
    let sel := if u = 0x4F#8 then sel ||| 0b001000#6 else sel
    let sel := if u = 0x46#8 then sel ||| 0b010000#6 else sel
    if u = 0x41#8 then sel ||| 0b100000#6 else sel) 0b000000#6

/-- A delay line fed a list of samples one by one; sample `n` of the list uses the draws from `3 n` on. -/
def dlRun (q : Nat → F) : DelayLine → List F → List F × DelayLine
  | dl, [] => ([], dl)
  | dl, x :: xs =>
    let r := dlStep q dl x
    let rest := dlRun (fun j => q (j + 3)) r.2 xs
    (r.1 :: rest.1, rest.2)

/-- A biquad fed a list of samples one by one; sample `n` of the list uses the draws from `9 n` on. -/
def biquadRun (q : Nat → F) : Biquad → List F → List F × Biquad
  | bb, [] => ([], bb)
  | bb, x :: xs =>
    let r := biquadStep q bb x
    let rest := biquadRun (fun j => q (j + 9)) r.2 xs
    (r.1 :: rest.1, rest.2)

/-- One sample through all selected stages in canonical order (R100). -/
def throughStages (x : F) (s : State) : F × State :=
  canonicalOrder.foldl (fun p k => if selects p.2.hw.eff k then stageSample k p.1 p.2 else p) (x, s)

/-- The samples of a list one at a time through all selected stages (R100). -/
def oneAtATime : List F → State → List F × State
  | [], s => ([], s)
  | x :: xs, s =>
    let r := throughStages x s
    let rest := oneAtATime xs r.2
    (r.1 :: rest.1, rest.2)

/-- A chain is running, with its format and a record for each stage of its mask (R25, R37). -/
def ChainRuns (s : State) : Prop :=
  s.hw.phase = .run ∧ s.hw.fmt.isSome = true ∧ ∀ k : Kind, selects s.hw.eff k = true → stagePresent s.hw k = true

/-- The commands a run is made of after its `RESET` (R204). -/
def WithinRun (cmds : List Instr) : Prop := ∀ i ∈ cmds, isHostCommand i = true ∧ i ≠ .reset

/-- The checks of `BUILD` in the words of R162: `FS` and `NCH` written and positive, and the parameters of each
selected stage legal. -/
def BuildAccepts (p : Impl) (c : Cfg) : Prop :=
  ∃ fs nch : Nat, c.fs = some fs ∧ c.nch = some nch ∧ 0 < fs ∧ 0 < nch ∧
    (selects (effOf c.sel) .reverb = true →
      0 < c.rvDelay ∧ isFinite c.rvMix = true ∧ isFinite c.rvFb = true ∧
        delayLen p c.rvDelay fs ≤ depthMaxOf p) ∧
    (selects (effOf c.sel) .distortion = true → isFinite c.dtGain = true ∧ isFinite c.dtThr = true) ∧
    (selects (effOf c.sel) .bassboost = true → 0 < c.bbF0 ∧ 2 * c.bbF0 < (fs : Rat) ∧ 0 < c.bbQ) ∧
    (selects (effOf c.sel) .overdrive = true → isFinite c.odGain = true ∧ isFinite c.odThr = true) ∧
    (selects (effOf c.sel) .distance = true →
      0 < c.dsDelay ∧ isFinite c.dsMix = true ∧ isFinite c.dsFb = true ∧
        delayLen p c.dsDelay fs ≤ depthMaxOf p)

/-- What a running chain never changes: the registers, the latched format, mask and stage parameters (R25, R27). -/
def SameParameters (h h' : Hw) : Prop :=
  h'.cfg = h.cfg ∧ h'.fmt = h.fmt ∧ h'.eff = h.eff ∧ h'.dt = h.dt ∧ h'.od = h.od ∧
    h'.rv.map (fun d => (d.len, d.mix, d.fb)) = h.rv.map (fun d => (d.len, d.mix, d.fb)) ∧
    h'.ds.map (fun d => (d.len, d.mix, d.fb)) = h.ds.map (fun d => (d.len, d.mix, d.fb)) ∧
    h'.bb.map (fun b => (b.b0, b.b1, b.b2, b.a1, b.a2)) = h.bb.map (fun b => (b.b0, b.b1, b.b2, b.a1, b.a2))

/-- Stage `k` is part of a running chain and element `a` of the buffer exists (R20, R54). -/
def StageReady (k : Kind) (a : Nat) (s : State) : Prop :=
  s.hw.phase = .run ∧ selects s.hw.eff k = true ∧ a < s.buf.length

/-- `PRODUCE` is accepted: `RUN`, the range inside the buffer (R90), and a record for each selected stage. -/
def ProduceReady (buf : Option (List F)) (offset maxCount : Nat) (s : State) : Prop :=
  s.hw.phase = .run ∧ offset + maxCount ≤ (buf.getD s.buf).length ∧
    ∀ k : Kind, selects s.hw.eff k = true → stagePresent s.hw k = true

end Sys2Proof.Machine
end

