-- ==== Sys2Proof/Certificates/Slice0/Obligations.lean ====
section
/-! DEFINITION. The statements for the provers. Each docstring names the rule of spec/ the statement formalises, and
the log entry where it rests on a choice of the model. A statement about a free value (a NaN draw, the source's
choice, an open parameter) holds for every value of it. -/

open Sys2Proof Sys2Proof.Machine

/-! ### Encoding and requests -/

/-- R84, R71, R73, R75, R76: decoding the request that carries a well-formed instruction gives it back, and a kind or
command request that decodes to an instruction is the one that carries it. -/
def Obligations.EncodedInstructionsDecode : Prop :=
  (∀ i : Instr, i.wf = true → decode (encode i) = .instrs [i]) ∧
  (∀ (code : BitVec 3) (a : Nat) (i : Instr), decode (.kind code a) = .instrs [i] → encode i = .kind code a) ∧
  (∀ (code : BitVec 3) (args : Args) (i : Instr), decode (.cmd code args) = .instrs [i] → encode i = .cmd code args)

/-- R71, R73, R75, R76, R81: words written out from the tables. -/
def Obligations.TableWordsDecode : Prop :=
  decode (.text [0x66#8]) = .instrs [.charF] ∧ decode (.text [0x4F#8]) = .instrs [.charO] ∧
  decode (.text [0x7A#8]) = .instrs [] ∧
  decode (.select 0b010010#6) = .instrs [.selD, .selF] ∧ decode (.select 0b100000#6) = .instrs [.selA] ∧
  (∀ a, decode (.kind 0b010#3 a) = .instrs [.bassboost a]) ∧
  (∀ a, decode (.kind 0b101#3 a) = .rejected (.reservedKind 5)) ∧
  (∀ b o m, decode (.cmd 0b011#3 (.produce b o m)) = .instrs [.produce b o m]) ∧
  (∀ args, decode (.cmd 0b111#3 args) = .rejected .reservedCommand)

/-- The step (R2; log 1): when the host's next request decodes to one instruction, the step is that instruction's
meaning on the state with the request taken from the queue (and, for a string or a selection word, the decoder's
working register at its start, R72, R74). -/
def Obligations.StepRunsDecodedInstruction : Prop :=
  (∀ (s : State) (r : Request) (rest : List Request) (i : Instr),
    s.queue = r :: rest → decode r = .instrs [i] →
      step s = exec i (beginRequest r { s with queue := rest })) ∧
  (∀ (s : State) (code : BitVec 3) (a : Nat), beginRequest (.kind code a) s = s) ∧
  (∀ (s : State) (code : BitVec 3) (args : Args), beginRequest (.cmd code args) s = s)

/-- R186, R81 (d), R180: with no request the block holds its state; command code 7 is refused, whatever its operands,
and the machine goes on (log 7). -/
def Obligations.StepWithoutInstruction : Prop :=
  (∀ s : State, s.queue = [] → step s = .next s) ∧
  (∀ (s : State) (args : Args) (rest : List Request), s.queue = .cmd 0b111#3 args :: rest →
    step s = .next { s with queue := rest, resp := .refused .reservedCommand })

/-- R72: a selection string decodes to `DecodeSel(str)`; no string is illegal; nothing of `S` changes. -/
def Obligations.SelectionStringDecoded : Prop :=
  ∀ (s : State) (str : List Byte) (rest : List Request), s.queue = .text str :: rest →
    step s = .next { s with
      queue := rest, dec := { s.dec with sel := decodeSel str }, resp := .selection (decodeSel str) }

/-- R72: the result does not depend on the order of the characters or on repeats: two strings with the same
characters are decoded alike. -/
def Obligations.SelectionIgnoresOrderAndRepeats : Prop :=
  ∀ (s : State) (str str' : List Byte) (rest : List Request), (∀ c, c ∈ str ↔ c ∈ str') →
    step { s with queue := .text str :: rest } = step { s with queue := .text str' :: rest }

/-- R74: the effective mask of a selection word, as `BUILD` takes it and as a selection request answers it. -/
def Obligations.SelectionWordExpanded : Prop :=
  (∀ w : BitVec 6, effOf w = if w.getLsbD 5 = true then 0b11111#5 else w.setWidth 5) ∧
  (∀ (s : State) (w : BitVec 6) (rest : List Request), s.queue = .select w :: rest →
    step s = .next { s with
      queue := rest
      dec := { s.dec with eff := if w.getLsbD 5 = true then 0b11111#5 else w.setWidth 5 }
      resp := .effective (if w.getLsbD 5 = true then 0b11111#5 else w.setWidth 5) })

/-- R71, R73, R74 (log 8): each selector character sets its bit, each bit of the selection word adds its stages, and
nothing else changes. -/
def Obligations.SelectorRowsSetTheirBits : Prop :=
  (∀ (i : Instr) (bit : BitVec 6),
    (i, bit) ∈ [(Instr.charR, 0b000001#6), (Instr.charD, 0b000010#6), (Instr.charB, 0b000100#6),
      (Instr.charO, 0b001000#6), (Instr.charF, 0b010000#6), (Instr.charA, 0b100000#6)] →
    ∀ s : State, exec i s = .next { s with
      dec := { s.dec with sel := s.dec.sel ||| bit }, resp := .selection (s.dec.sel ||| bit) }) ∧
  (∀ (i : Instr) (stages : BitVec 5),
    (i, stages) ∈ [(Instr.selR, 0b00001#5), (Instr.selD, 0b00010#5), (Instr.selB, 0b00100#5),
      (Instr.selO, 0b01000#5), (Instr.selF, 0b10000#5), (Instr.selA, 0b11111#5)] →
    ∀ s : State, exec i s = .next { s with
      dec := { s.dec with eff := s.dec.eff ||| stages }, resp := .effective (s.dec.eff ||| stages) })

/-! ### Arithmetic -/

/-- R8 (its overflow clause as IEEE 754 rounds, log 6): the magnitude `n / d` units of 2^-149 rounds to the nearest
finite `F`, a tie to the even word; to infinity exactly from halfway beyond the largest finite value on; and the sign
is the one asked for. -/
def Obligations.RoundsToNearestEven : Prop :=
  ∀ n d : Nat, 0 < d →
    (magBits n d = infBits ↔ (2 ^ 25 - 1) * 2 ^ 252 * d ≤ n) ∧
    (∀ neg : Bool, signBit (rndUnits neg n d) = neg ∧ absBits (rndUnits neg n d) = magBits n d) ∧
    (magBits n d < infBits → ∀ c : F, isFinite c = true →
      |(mag (rndUnits false n d) : Int) * d - n| ≤ |(mag c : Int) * d - n| ∧
      (|(mag (rndUnits false n d) : Int) * d - n| = |(mag c : Int) * d - n| →
        mag c ≠ mag (rndUnits false n d) → magBits n d % 2 = 0))

/-- R8: signed zeros, infinities and NaN in the operations; `q` is the NaN drawn. -/
def Obligations.ArithmeticOnSpecialValues : Prop :=
  ∀ q : F,
    fadd q 0x00000000#32 0x80000000#32 = 0x00000000#32 ∧ fadd q 0x80000000#32 0x80000000#32 = 0x80000000#32 ∧
    (∀ x : F, isFinite x = true → fsub q x x = 0x00000000#32) ∧
    (∀ x : F, isInf x = true → fsub q x x = q) ∧
    (∀ x y : F, isZero x = true → isInf y = true → fmul q x y = q ∧ fmul q y x = q) ∧
    (∀ x y : F, isNaN x = true →
      fadd q x y = q ∧ fadd q y x = q ∧ fsub q x y = q ∧ fsub q y x = q ∧ fmul q x y = q ∧ fmul q y x = q ∧
        fdiv q x y = q ∧ fdiv q y x = q) ∧
    (∀ x : F, isFinite x = true → fmul q 0x3F800000#32 x = x)

/-- R8: the comparisons are those of the values, false when either operand is NaN; the two zeros compare equal. -/
def Obligations.ComparisonsFollowRealOrder : Prop :=
  (∀ a b : F, isFinite a = true → isFinite b = true →
    (flt a b = true ↔ sval a < sval b) ∧ (fgt a b = true ↔ sval b < sval a)) ∧
  (∀ a b : F, isNaN a = true ∨ isNaN b = true → flt a b = false ∧ fgt a b = false) ∧
  (∀ a b : F, isFinite a = true → isInf b = true →
    flt a b = !signBit b ∧ fgt a b = signBit b)

/-- R8 (D4; log 4): what every instance of `NUM.exp` satisfies, the reference and the open one; that the open one is
monotone as well. -/
def Obligations.ExponentialProperties : Prop :=
  (∀ (num : NumSel) (q a : F), isNaN a = true → numExp num q a = q) ∧
  (∀ (num : NumSel) (q a : F), isNaN a = false → isNaN (numExp num q a) = false) ∧
  (∀ (num : NumSel) (q a : F), isZero a = true → numExp num q a = 0x3F800000#32) ∧
  (∀ (num : NumSel) (q : F), numExp num q 0xFF800000#32 = 0x00000000#32) ∧
  (∀ (num : NumSel) (q a : F), isNaN a = false → fgt a 0x00000000#32 = false →
    flt (numExp num q a) 0x00000000#32 = false ∧ fgt (numExp num q a) 0x3F800000#32 = false) ∧
  (∀ q a b : F, flt a b = true → fgt (numExp .other q a) (numExp .other q b) = false)

/-! ### The delay-line stages -/

/-- R106: the step of both variants, on element `a` of the buffer: two products and a sum, the buffer fed from the
mixed output, the cursor advanced. `REVERB` works on `rv`, `DISTANCE` on `ds`, and nothing else changes. -/
def Obligations.DelayLineStepsComplete : Prop :=
  (∀ (s : State) (a : Nat) (dl : DelayLine), StageReady .reverb a s → s.hw.rv = some dl →
    let q := fun j => nanDraw .reverb (s.draws.rv + j)
    let y := fadd (q 1) (bufRead s.buf a) (fmul (q 0) (Memory.get dl.mem dl.idx) dl.mix)
    exec (.reverb a) s = .next { s with
      hw := { s.hw with rv := some { dl with
        mem := Memory.set dl.mem dl.idx (fmul (q 2) dl.fb y), idx := (dl.idx + 1) % dl.len } }
      buf := bufWrite s.buf a y
      draws := { s.draws with rv := s.draws.rv + 3 }
      resp := .sample y }) ∧
  (∀ (s : State) (a : Nat) (dl : DelayLine), StageReady .distance a s → s.hw.ds = some dl →
    let q := fun j => nanDraw .distance (s.draws.ds + j)
    let y := fadd (q 1) (bufRead s.buf a) (fmul (q 0) (Memory.get dl.mem dl.idx) dl.mix)
    exec (.distance a) s = .next { s with
      hw := { s.hw with ds := some { dl with
        mem := Memory.set dl.mem dl.idx (fmul (q 2) dl.fb y), idx := (dl.idx + 1) % dl.len } }
      buf := bufWrite s.buf a y
      draws := { s.draws with ds := s.draws.ds + 3 }
      resp := .sample y })

/-- R55, R56: a read of a delay memory in canonical form after a write gives the value written at that index, and
what stood there before at every other index. -/
def Obligations.DelayMemoryReadAfterWrite : Prop :=
  ∀ (len a b : Nat) (v : F) (m : Memory), Memory.wf len m = true → a < len →
    Memory.get (Memory.set m a v) b = if b = a then v else Memory.get m b

/-- R29: after a fresh delay line has processed `k` samples, `idx = k mod len`, and element `(idx + j) mod len` holds
`fmul(fb, y[k - len + j])`, or `+0` where that output does not exist. -/
def Obligations.DelayBufferHoldsLastOutputs : Prop :=
  ∀ (q : Nat → F) (len : Nat) (mix fb : F) (xs : List F), 1 ≤ len →
    let r := dlRun q (DelayLine.fresh len mix fb) xs
    r.1.length = xs.length ∧ r.2.len = len ∧ r.2.mix = mix ∧ r.2.fb = fb ∧ r.2.idx = xs.length % len ∧
    ∀ j, j < len →
      Memory.get r.2.mem ((r.2.idx + j) % len) =
        if len ≤ xs.length + j then
          fmul (q (3 * (xs.length + j - len) + 2)) fb (r.1.getD (xs.length + j - len) fZero)
        else fZero

/-- R112, R111: a fresh delay line passes its first `len` samples, up to the sign of zero, and from then on adds `mix`
times `fb` times the output of `len` samples before, each product and the sum rounded once. -/
def Obligations.CombFilterClosedForm : Prop :=
  ∀ (q : Nat → F) (len : Nat) (mix fb : F) (xs : List F), 1 ≤ len → isFinite mix = true → (∀ j, isNaN (q j) = true) →
    let ys := (dlRun q (DelayLine.fresh len mix fb) xs).1
    ys.length = xs.length ∧
    (∀ n, n < xs.length → n < len → sameUpToZero (ys.getD n fZero) (xs.getD n fZero) = true) ∧
    (∀ n, n < xs.length → len ≤ n →
      ys.getD n fZero =
        fadd (q (3 * n + 1)) (xs.getD n fZero)
          (fmul (q (3 * n)) (fmul (q (3 * (n - len) + 2)) fb (ys.getD (n - len) fZero)) mix))

/-- R98, R106, R142: on a chain of one recursive stage, `PRODUCE` is that stage run over the source's samples. -/
def Obligations.SingleStageChainsRunTheirStage : Prop :=
  (∀ (s : State) (buf : Option (List F)) (offset maxCount : Nat) (dl : DelayLine),
    ProduceReady buf offset maxCount s → s.hw.eff = 0b00001#5 → s.hw.rv = some dl →
    let xs := (pull maxCount s.src).1
    let r := dlRun (fun j => nanDraw .reverb (s.draws.rv + j)) dl xs
    ∃ t, exec (.produce buf offset maxCount) s = .next t ∧ t.resp = .count xs.length ∧
      filled offset xs.length t = r.1 ∧ t.hw = { s.hw with rv := some r.2 }) ∧
  (∀ (s : State) (buf : Option (List F)) (offset maxCount : Nat) (dl : DelayLine),
    ProduceReady buf offset maxCount s → s.hw.eff = 0b10000#5 → s.hw.ds = some dl →
    let xs := (pull maxCount s.src).1
    let r := dlRun (fun j => nanDraw .distance (s.draws.ds + j)) dl xs
    ∃ t, exec (.produce buf offset maxCount) s = .next t ∧ t.resp = .count xs.length ∧
      filled offset xs.length t = r.1 ∧ t.hw = { s.hw with ds := some r.2 }) ∧
  (∀ (s : State) (buf : Option (List F)) (offset maxCount : Nat) (bb : Biquad),
    ProduceReady buf offset maxCount s → s.hw.eff = 0b00100#5 → s.hw.bb = some bb →
    let xs := (pull maxCount s.src).1
    let r := biquadRun (fun j => nanDraw .bassboost (s.draws.bb + j)) bb xs
    ∃ t, exec (.produce buf offset maxCount) s = .next t ∧ t.resp = .count xs.length ∧
      filled offset xs.length t = r.1 ∧ t.hw = { s.hw with bb := some r.2 })

/-- R115: an all-zero stream through `REVERB` alone, or through `DISTANCE` alone, with an all-zero memory and finite
non-negative factors gives an all-zero block, leaves the memory all zero, and advances the cursor by the count. -/
def Obligations.SilenceStaysSilence : Prop :=
  (∀ (s : State) (buf : Option (List F)) (offset maxCount : Nat) (dl : DelayLine),
    ProduceReady buf offset maxCount s → s.hw.eff = 0b00001#5 → s.hw.rv = some dl →
    dl.mem = [] → dl.idx < dl.len → isFinite dl.mix = true → signBit dl.mix = false →
    isFinite dl.fb = true → signBit dl.fb = false → (∀ x ∈ s.src.stream, x = 0x00000000#32) →
    let n := (pull maxCount s.src).1.length
    ∃ t, exec (.produce buf offset maxCount) s = .next t ∧ t.resp = .count n ∧
      filled offset n t = List.replicate n 0x00000000#32 ∧
      t.hw = { s.hw with rv := some { dl with idx := (dl.idx + n) % dl.len } }) ∧
  (∀ (s : State) (buf : Option (List F)) (offset maxCount : Nat) (dl : DelayLine),
    ProduceReady buf offset maxCount s → s.hw.eff = 0b10000#5 → s.hw.ds = some dl →
    dl.mem = [] → dl.idx < dl.len → isFinite dl.mix = true → signBit dl.mix = false →
    isFinite dl.fb = true → signBit dl.fb = false → (∀ x ∈ s.src.stream, x = 0x00000000#32) →
    let n := (pull maxCount s.src).1.length
    ∃ t, exec (.produce buf offset maxCount) s = .next t ∧ t.resp = .count n ∧
      filled offset n t = List.replicate n 0x00000000#32 ∧
      t.hw = { s.hw with ds := some { dl with idx := (dl.idx + n) % dl.len } })

/-- R114 (b): where a delay line reads `+0`, the input `-0` leaves as `+0` when the mix is `+0` or positive and as `-0`
when it is `-0` or negative; of both variants. -/
def Obligations.NegativeZeroThroughDelayLine : Prop :=
  (∀ (s : State) (a : Nat) (dl : DelayLine), StageReady .reverb a s → s.hw.rv = some dl →
    bufRead s.buf a = 0x80000000#32 → Memory.get dl.mem dl.idx = 0x00000000#32 → isFinite dl.mix = true →
    ∃ t, exec (.reverb a) s = .next t ∧
      t.resp = .sample (if signBit dl.mix = true then 0x80000000#32 else 0x00000000#32)) ∧
  (∀ (s : State) (a : Nat) (dl : DelayLine), StageReady .distance a s → s.hw.ds = some dl →
    bufRead s.buf a = 0x80000000#32 → Memory.get dl.mem dl.idx = 0x00000000#32 → isFinite dl.mix = true →
    ∃ t, exec (.distance a) s = .next t ∧
      t.resp = .sample (if signBit dl.mix = true then 0x80000000#32 else 0x00000000#32))

/-! ### The waveshaper stages -/

/-- R121: `DISTORTION` clips `g·x` to `[-t, t]`, writes the sample and no record; for `t ≥ 0` and `g·x` not NaN the
output satisfies `|y| ≤ t` exactly. The three examples of the rule, with the default gain and threshold. -/
def Obligations.DistortionClips : Prop :=
  (∀ (s : State) (a : Nat) (p : Shaper), StageReady .distortion a s → s.hw.dt = some p →
    let v := fmul (nanDraw .distortion s.draws.dt) p.g (bufRead s.buf a)
    let y := if flt v (fneg p.t) = true then fneg p.t else if fgt v p.t = true then p.t else v
    exec (.distortion a) s = .next { s with
      buf := bufWrite s.buf a y, draws := { s.draws with dt := s.draws.dt + 1 }, resp := .sample y } ∧
    (isNaN p.t = false → flt p.t 0x00000000#32 = false → isNaN v = false →
      isNaN y = false ∧ fgt (fabs y) p.t = false)) ∧
  (∀ q : Nat → F,
    distortion q { g := 0x40400000#32, t := 0x3F19999A#32 } 0x3E000000#32 = 0x3EC00000#32 ∧
    distortion q { g := 0x40400000#32, t := 0x3F19999A#32 } 0x3F000000#32 = 0x3F19999A#32 ∧
    distortion q { g := 0x40400000#32, t := 0x3F19999A#32 } 0xBF800000#32 = 0xBF19999A#32)

/-- R123, with the sign of R124 written out: above the knee the sign of the input times `1 - NUM.exp(-u)`, at and below
it `g·x`; the sample is written and no record. The three examples of the rule, with the default gain and threshold and
the reference `NUM.exp`. -/
def Obligations.OverdriveFollowsFormula : Prop :=
  (∀ (s : State) (a : Nat) (p : Shaper), StageReady .overdrive a s → s.hw.od = some p →
    let q := fun j => nanDraw .overdrive (s.draws.od + j)
    let x := bufRead s.buf a
    let v := fmul (q 0) p.g x
    let u := fabs v
    let sgn := if isNaN x = true then q 3 else if isZero x = true then 0x00000000#32
      else if signBit x = true then 0xBF800000#32 else 0x3F800000#32
    let y := if fgt u p.t = true then
        fmul (q 4) sgn (fsub (q 2) 0x3F800000#32 (numExp s.impl.num (q 1) (fneg u)))
      else v
    exec (.overdrive a) s = .next { s with
      buf := bufWrite s.buf a y, draws := { s.draws with od := s.draws.od + 5 }, resp := .sample y }) ∧
  (∀ q : Nat → F,
    overdrive .reference q { g := 0x40400000#32, t := 0x3E99999A#32 } 0x3D800000#32 = 0x3E400000#32 ∧
    overdrive .reference q { g := 0x40400000#32, t := 0x3E99999A#32 } 0x3F000000#32 = 0x3F46E0F1#32 ∧
    overdrive .reference q { g := 0x40400000#32, t := 0x3E99999A#32 } 0xBF000000#32 = 0xBF46E0F1#32)

/-- R125 (C3): where `g·x` is not NaN, `|y| ≤ 1.0` on the saturating branch and `|y| ≤ t` on the linear one, for every
instance of `NUM.exp`. -/
def Obligations.OverdriveIsBounded : Prop :=
  ∀ (s : State) (a : Nat) (p : Shaper), StageReady .overdrive a s → s.hw.od = some p → isNaN p.t = false →
    let v := fmul (nanDraw .overdrive s.draws.od) p.g (bufRead s.buf a)
    isNaN v = false →
    ∃ t y, exec (.overdrive a) s = .next t ∧ t.resp = .sample y ∧ isNaN y = false ∧
      (fgt (fabs v) p.t = true → fgt (fabs y) 0x3F800000#32 = false) ∧
      (fgt (fabs v) p.t = false → fgt (fabs y) p.t = false)

/-- R127 (c): an infinite sample, with a gain that is neither zero nor NaN and a finite threshold, leaves `DISTORTION` as
the threshold with the sign of `g·x` and `OVERDRIVE` as `±1.0` with the sign of `x`. -/
def Obligations.InfiniteSamplesSaturate : Prop :=
  (∀ (s : State) (a : Nat) (p : Shaper), StageReady .distortion a s → s.hw.dt = some p →
    isInf (bufRead s.buf a) = true → isNaN p.g = false → isZero p.g = false → isFinite p.t = true →
    ∃ t, exec (.distortion a) s = .next t ∧
      t.resp = .sample (if signBit p.g = signBit (bufRead s.buf a) then p.t else fneg p.t)) ∧
  (∀ (s : State) (a : Nat) (p : Shaper), StageReady .overdrive a s → s.hw.od = some p →
    isInf (bufRead s.buf a) = true → isNaN p.g = false → isZero p.g = false → isFinite p.t = true →
    ∃ t, exec (.overdrive a) s = .next t ∧
      t.resp = .sample (if signBit (bufRead s.buf a) = true then 0xBF800000#32 else 0x3F800000#32))

/-- R127 (b): a NaN sample leaves either waveshaper as a NaN, and nothing faults. -/
def Obligations.WaveshapersPassNaN : Prop :=
  (∀ (s : State) (a : Nat) (p : Shaper), StageReady .distortion a s → s.hw.dt = some p →
    isNaN (bufRead s.buf a) = true →
    ∃ t y, exec (.distortion a) s = .next t ∧ t.resp = .sample y ∧ isNaN y = true) ∧
  (∀ (s : State) (a : Nat) (p : Shaper), StageReady .overdrive a s → s.hw.od = some p →
    isNaN (bufRead s.buf a) = true →
    ∃ t y, exec (.overdrive a) s = .next t ∧ t.resp = .sample y ∧ isNaN y = true)

/-- R127 (j): with a positive finite gain and a threshold that is not negative, both waveshapers are odd on every
sample that is not NaN. -/
def Obligations.WaveshapersAreOdd : Prop :=
  ∀ (num : NumSel) (q : Nat → F) (p : Shaper) (x : F),
    isFinite p.g = true → flt 0x00000000#32 p.g = true → isNaN p.t = false → flt p.t 0x00000000#32 = false →
    isNaN x = false →
    distortion q p (fneg x) = fneg (distortion q p x) ∧
    overdrive num q p (fneg x) = fneg (overdrive num q p x)

/-- R127 (f): with a negative threshold `DISTORTION` returns `-t` below `-t` and `t` everywhere else, so always `±|t|`. -/
def Obligations.NegativeThresholdClips : Prop :=
  ∀ (s : State) (a : Nat) (p : Shaper), StageReady .distortion a s → s.hw.dt = some p →
    flt p.t 0x00000000#32 = true →
    let v := fmul (nanDraw .distortion s.draws.dt) p.g (bufRead s.buf a)
    isNaN v = false →
    ∃ t, exec (.distortion a) s = .next t ∧
      t.resp = .sample (if flt v (fneg p.t) = true then fneg p.t else p.t)

/-! ### The biquad stage -/

/-- R142: the direct-form-I recurrence, five products summed left to right, each operation rounded once, then the input
history and the output history; nothing else changes. -/
def Obligations.BassboostCompletes : Prop :=
  ∀ (s : State) (a : Nat) (bb : Biquad), StageReady .bassboost a s → s.hw.bb = some bb →
    let q := fun j => nanDraw .bassboost (s.draws.bb + j)
    let x := bufRead s.buf a
    let y := fsub (q 8) (fsub (q 6) (fadd (q 4) (fadd (q 2) (fmul (q 0) bb.b0 x)
      (fmul (q 1) bb.b1 bb.x1)) (fmul (q 3) bb.b2 bb.x2)) (fmul (q 5) bb.a1 bb.y1)) (fmul (q 7) bb.a2 bb.y2)
    exec (.bassboost a) s = .next { s with
      hw := { s.hw with bb := some { bb with x2 := bb.x1, x1 := x, y2 := bb.y1, y1 := y } }
      buf := bufWrite s.buf a y
      draws := { s.draws with bb := s.draws.bb + 9 }
      resp := .sample y }

/-- R31: the history of a fresh biquad after `k` samples is its last two inputs and outputs, `+0` where there are none;
the coefficients stay. -/
def Obligations.BiquadHistoryIsLastSamples : Prop :=
  ∀ (q : Nat → F) (c : Coefs) (xs : List F),
    let r := biquadRun q (Biquad.fresh c) xs
    let k := xs.length
    r.1.length = k ∧
    r.2.x1 = (if 1 ≤ k then xs.getD (k - 1) fZero else 0x00000000#32) ∧
    r.2.x2 = (if 2 ≤ k then xs.getD (k - 2) fZero else 0x00000000#32) ∧
    r.2.y1 = (if 1 ≤ k then r.1.getD (k - 1) fZero else 0x00000000#32) ∧
    r.2.y2 = (if 2 ≤ k then r.1.getD (k - 2) fZero else 0x00000000#32) ∧
    r.2.b0 = c.b0 ∧ r.2.b1 = c.b1 ∧ r.2.b2 = c.b2 ∧ r.2.a1 = c.a1 ∧ r.2.a2 = c.a2

/-- R147 (a): with finite coefficients, `b0` not negative, and zero history, an all-zero input gives all `+0` and leaves
the record as it is. -/
def Obligations.BiquadSilence : Prop :=
  ∀ (q : Nat → F) (c : Coefs) (n : Nat),
    isFinite c.b0 = true → signBit c.b0 = false → isFinite c.b1 = true → isFinite c.b2 = true →
    isFinite c.a1 = true → isFinite c.a2 = true →
    biquadRun q (Biquad.fresh c) (List.replicate n 0x00000000#32) =
      (List.replicate n 0x00000000#32, Biquad.fresh c)

/-- R147 (c), R197: once a NaN has entered the biquad, this output and every later one is NaN, whatever follows. -/
def Obligations.BiquadNaNForEver : Prop :=
  ∀ (q : Nat → F) (bb : Biquad) (x : F) (xs : List F), (∀ j, isNaN (q j) = true) → isNaN x = true →
    (biquadRun q bb (x :: xs)).1.all isNaN = true ∧ (biquadRun q bb (x :: xs)).1.length = xs.length + 1

/-- R139 with the formulas of R137 and R138 (general knowledge of the spec, G4 to G6; logs 5, 22): the reference
coefficients of the defaults at 1000 Hz and at 0 dB (V-BQ-2, V-BQ-12). -/
def Obligations.ReferenceCoefficients : Prop :=
  refCoef 1000 200 1 6 =
    { b0 := 0x3FA83EC1#32, b1 := 0xBE8338E1#32, b2 := 0x3EE387E9#32, a1 := 0xBF218B3E#32, a2 := 0x3EC4A553#32 } ∧
  refCoef 1000 200 1 0 =
    { b0 := 0x3F800000#32, b1 := 0xBED6744E#32, b2 := 0x3EB5FD1E#32, a1 := 0xBED6744E#32, a2 := 0x3EB5FD1E#32 }

/-- R147 (d): at a gain of 0 dB numerator and denominator of the reference filter agree, so `b1 = a1`, `b2 = a2` and, where
the search for the coefficients ends, as it does for legal parameters (log 5), `b0 = 1.0`. -/
def Obligations.ZeroGainCoefficientsAgree : Prop :=
  ∀ (fs : Nat) (f0 q : Rat),
    (refCoef fs f0 q 0).b1 = (refCoef fs f0 q 0).a1 ∧ (refCoef fs f0 q 0).b2 = (refCoef fs f0 q 0).a2 ∧
    (∀ sep fuel c, 150 ≤ sep → coefSearch sep fs f0 q 0 fuel (coefPrecision 0) = some c → c.b0 = 0x3F800000#32)

/-! ### The chain wrapper -/

/-- R165, R37, R190: in every phase `RESET` gives the whole of `S` its reset values, which are those of the machine after
the reset event; nothing outside `S` changes but the answer; and it is the only way out of `RUN` other than into
`FAULT`, and the only one out of `FAULT`. The stage records, undefined, are those of State.reset (log 10). -/
def Obligations.ResetLeavesDefaults : Prop :=
  (∀ s : State, ∃ t, exec .reset s = .next t ∧ t = { s with hw := State.reset.hw, resp := .ended } ∧
    t.hw.phase = .idle ∧ t.hw.fault = .none ∧ t.hw.cfg.fs = none ∧ t.hw.cfg.nch = none ∧
    t.hw.cfg.sel = 0b000000#6 ∧ t.hw.cfg.rvDelay = 1 / 10 ∧ t.hw.cfg.rvMix = rndF (1 / 2) ∧
    t.hw.cfg.rvFb = rndF 1 ∧ t.hw.cfg.dtGain = rndF 3 ∧ t.hw.cfg.dtThr = rndF (6 / 10) ∧
    t.hw.cfg.bbF0 = 200 ∧ t.hw.cfg.bbQ = 1 ∧ t.hw.cfg.bbGdb = 6 ∧ t.hw.cfg.odGain = rndF 3 ∧
    t.hw.cfg.odThr = rndF (3 / 10) ∧ t.hw.cfg.dsDelay = 1 / 2 ∧ t.hw.cfg.dsMix = rndF (1 / 2) ∧
    t.hw.cfg.dsFb = rndF (1 / 2) ∧ t.hw.fmt = none ∧ t.hw.eff = 0b00000#5) ∧
  (∀ (i : Instr) (s t : State), exec i s = .next t → i ≠ .reset →
    (s.hw.phase = .fault → t.hw.phase = .fault) ∧
    (s.hw.phase = .run → t.hw.phase = .run ∨ t.hw.phase = .fault))

/-- R166: `CFGWR` in `IDLE` to a register of 0 to 15 with a value of its type writes that register, a word for `SEL` cut
to six bits, and nothing else; outside `IDLE` and for registers of 16 on it is refused. -/
def Obligations.CfgwrWritesOneRegister : Prop :=
  (∀ (s : State) (reg : Nat) (value : CfgVal), s.hw.phase = .idle → value.fits reg = true →
    ∃ t, exec (.cfgwr reg value) s = .next t ∧
      cfgGet reg t.hw = some (.value (match value with | .word w => .word (w % 64) | v => v)) ∧
      (∀ r, r ≠ reg → cfgGet r t.hw = cfgGet r s.hw) ∧
      t = { s with hw := { s.hw with cfg := t.hw.cfg }, resp := .ended }) ∧
  (∀ (s : State) (reg : Nat) (value : CfgVal), s.hw.phase ≠ .idle →
    exec (.cfgwr reg value) s = .next { s with resp := .refused .wrongPhase }) ∧
  (∀ (s : State) (reg : Nat) (value : CfgVal), s.hw.phase = .idle → 16 ≤ reg →
    exec (.cfgwr reg value) s =
      .next { s with resp := .refused (if 18 ≤ reg then .noSuchRegister else .readOnlyRegister) })

/-- R167, R78: `CFGRD` in every phase returns the register's value, for 0 and 1 possibly "no value", for 16 the phase, for
17 the fault code as its number, and writes nothing; registers of 18 on are refused. -/
def Obligations.CfgrdReturnsRegister : Prop :=
  (∀ (s : State) (reg : Nat) (v : ReadVal),
    (reg, v) ∈ [
      (0, match s.hw.cfg.fs with | none => ReadVal.noValue | some n => .value (.nat n)),
      (1, match s.hw.cfg.nch with | none => .noValue | some n => .value (.nat n)),
      (2, .value (.word s.hw.cfg.sel.toNat)), (3, .value (.real s.hw.cfg.rvDelay)),
      (4, .value (.f s.hw.cfg.rvMix)), (5, .value (.f s.hw.cfg.rvFb)), (6, .value (.f s.hw.cfg.dtGain)),
      (7, .value (.f s.hw.cfg.dtThr)), (8, .value (.real s.hw.cfg.bbF0)), (9, .value (.real s.hw.cfg.bbQ)),
      (10, .value (.real s.hw.cfg.bbGdb)), (11, .value (.f s.hw.cfg.odGain)), (12, .value (.f s.hw.cfg.odThr)),
      (13, .value (.real s.hw.cfg.dsDelay)), (14, .value (.f s.hw.cfg.dsMix)), (15, .value (.f s.hw.cfg.dsFb)),
      (16, .phase s.hw.phase),
      (17, .fault (match s.hw.fault with
        | .none => 0 | .invalidEffectParameter => 1 | .sourceUnreadable => 2 | .writeFailure => 3))] →
    cfgGet reg s.hw = some v ∧ exec (.cfgrd reg) s = .next { s with resp := .value v }) ∧
  (∀ (s : State) (reg : Nat), 18 ≤ reg →
    exec (.cfgrd reg) s = .next { s with resp := .refused .noSuchRegister })

/-- R162: `BUILD` outside `IDLE` is refused; in `IDLE`, where a check fails, it raises `InvalidEffectParameter` and
writes nothing else; where all pass, it latches the format and the effective mask, makes the records of the selected
stages, and enters `RUN`. -/
def Obligations.BuildMakesChainOrFaults : Prop :=
  (∀ s : State, s.hw.phase ≠ .idle → exec .build s = .next { s with resp := .refused .wrongPhase }) ∧
  (∀ s : State, s.hw.phase = .idle → ¬ BuildAccepts s.impl s.hw.cfg →
    exec .build s = .next { s with
      hw := { s.hw with
        phase := .fault, fault := if s.hw.fault = .none then .invalidEffectParameter else s.hw.fault }
      resp := .ended }) ∧
  (∀ s : State, s.hw.phase = .idle → BuildAccepts s.impl s.hw.cfg →
    ∃ fs nch : Nat, s.hw.cfg.fs = some fs ∧ s.hw.cfg.nch = some nch ∧
    ∃ t, exec .build s = .next t ∧ t = { s with hw := t.hw, resp := .ended } ∧
      t.hw.phase = .run ∧ t.hw.fault = s.hw.fault ∧ t.hw.cfg = s.hw.cfg ∧
      t.hw.fmt = some { fs := fs, nch := nch } ∧ t.hw.eff = effOf s.hw.cfg.sel ∧
      t.hw.rv = (if selects (effOf s.hw.cfg.sel) .reverb = true then
        some { len := delayLen s.impl s.hw.cfg.rvDelay fs, mem := [], idx := 0,
               mix := s.hw.cfg.rvMix, fb := s.hw.cfg.rvFb } else s.hw.rv) ∧
      t.hw.dt = (if selects (effOf s.hw.cfg.sel) .distortion = true then
        some { g := s.hw.cfg.dtGain, t := s.hw.cfg.dtThr } else s.hw.dt) ∧
      t.hw.bb = (if selects (effOf s.hw.cfg.sel) .bassboost = true then
        (let c := numCoef s.impl.num fs s.hw.cfg.bbF0 s.hw.cfg.bbQ s.hw.cfg.bbGdb
         some { b0 := c.b0, b1 := c.b1, b2 := c.b2, a1 := c.a1, a2 := c.a2,
                x1 := 0x00000000#32, x2 := 0x00000000#32, y1 := 0x00000000#32, y2 := 0x00000000#32 })
        else s.hw.bb) ∧
      t.hw.od = (if selects (effOf s.hw.cfg.sel) .overdrive = true then
        some { g := s.hw.cfg.odGain, t := s.hw.cfg.odThr } else s.hw.od) ∧
      t.hw.ds = (if selects (effOf s.hw.cfg.sel) .distance = true then
        some { len := delayLen s.impl s.hw.cfg.dsDelay fs, mem := [], idx := 0,
               mix := s.hw.cfg.dsMix, fb := s.hw.cfg.dsFb } else s.hw.ds))

/-- R109: the delay length is the nearest integer to the exact product `DELAY × FS`, at least 1; at an exact half it goes
up under `AWAY` and to the even one under `EVEN`; a delay that is not positive, and a length beyond `DEPTH_MAX`, make
`BUILD` fault where the stage is selected. -/
def Obligations.DelayLengthIsNearest : Prop :=
  (∀ (p : Impl) (delay : Rat) (fs : Nat), 0 < delay → 1 ≤ fs →
    1 ≤ delayLen p delay fs ∧
    (delay * fs < 1 / 2 → delayLen p delay fs = 1) ∧
    (1 / 2 ≤ delay * fs →
      delay * fs - 1 / 2 ≤ (delayLen p delay fs : Rat) ∧ (delayLen p delay fs : Rat) ≤ delay * fs + 1 / 2) ∧
    (∀ k : Nat, delay * fs = k + 1 / 2 → tieOf p = .away → delayLen p delay fs = k + 1) ∧
    (∀ k : Nat, delay * fs = k + 1 / 2 → tieOf p = .even →
      delayLen p delay fs = max 1 (if k % 2 = 0 then k else k + 1))) ∧
  (∀ (s : State) (fs : Nat), s.hw.phase = .idle → s.hw.cfg.fs = some fs →
    ((selects (effOf s.hw.cfg.sel) .reverb = true ∧
        (s.hw.cfg.rvDelay ≤ 0 ∨ depthMaxOf s.impl < delayLen s.impl s.hw.cfg.rvDelay fs)) ∨
      (selects (effOf s.hw.cfg.sel) .distance = true ∧
        (s.hw.cfg.dsDelay ≤ 0 ∨ depthMaxOf s.impl < delayLen s.impl s.hw.cfg.dsDelay fs))) →
    ∃ t, exec .build s = .next t ∧ t.hw.phase = .fault)

/-! ### The provider -/

/-- R98, R158: `PRODUCE` is refused outside `RUN` and beyond the buffer; else the source fills the region and the selected
stages run over it one after another, reverb, distortion, bass boost, overdrive, distance, and the count the source
returned is the result. -/
def Obligations.ProduceRunsCanonicalOrder : Prop :=
  (∀ (s : State) (buf : Option (List F)) (offset maxCount : Nat), s.hw.phase ≠ .run →
    exec (.produce buf offset maxCount) s = .next { s with resp := .refused .wrongPhase }) ∧
  (∀ (s : State) (buf : Option (List F)) (offset maxCount : Nat), s.hw.phase = .run →
    (buf.getD s.buf).length < offset + maxCount →
    exec (.produce buf offset maxCount) s = .next { s with resp := .refused .beyondBuffer }) ∧
  (∀ (s : State) (buf : Option (List F)) (offset maxCount : Nat), ProduceReady buf offset maxCount s →
    let p := pull maxCount s.src
    let n := p.1.length
    let s0 : State := { s with buf := bufFill (buf.getD s.buf) offset p.1, src := p.2 }
    let s1 := if s.hw.eff.getLsbD 0 = true then sweep reverbSample offset n s0 else s0
    let s2 := if s.hw.eff.getLsbD 1 = true then sweep distortionSample offset n s1 else s1
    let s3 := if s.hw.eff.getLsbD 2 = true then sweep bassboostSample offset n s2 else s2
    let s4 := if s.hw.eff.getLsbD 3 = true then sweep overdriveSample offset n s3 else s3
    let s5 := if s.hw.eff.getLsbD 4 = true then sweep distanceSample offset n s4 else s4
    exec (.produce buf offset maxCount) s = .next { s5 with resp := .count n })

/-- R92, R90, R96: the count the host receives is the count the source returned, between 0 and `maxCount`, whatever the
chain; those samples are the next of the stream; and it is 0 only when `maxCount` is 0 or the stream has ended. -/
def Obligations.ProduceReturnsSourceCount : Prop :=
  ∀ (s : State) (buf : Option (List F)) (offset maxCount : Nat), ProduceReady buf offset maxCount s →
    ∃ t n, exec (.produce buf offset maxCount) s = .next t ∧ t.resp = .count n ∧ n ≤ maxCount ∧
      n ≤ s.src.stream.length ∧ t.src.stream = s.src.stream.drop n ∧
      (pull maxCount s.src).1 = s.src.stream.take n ∧
      (n = 0 ↔ maxCount = 0 ∨ s.src.stream = [])

/-- R93, R27: `PRODUCE` writes nothing of the buffer outside `[offset, offset+n)`, and changes of `S` only the data state of
the selected stages. That the elements from `offset+n` up to `offset+maxCount` are unchanged is the model's choice
(log 12): its source leaves them alone, as one under R96 (e) does, where R65 and U5 leave them open. -/
def Obligations.ProduceFrame : Prop :=
  ∀ (s : State) (buf : Option (List F)) (offset maxCount : Nat), ProduceReady buf offset maxCount s →
    ∃ t n, exec (.produce buf offset maxCount) s = .next t ∧ t.resp = .count n ∧
      t.buf.length = (buf.getD s.buf).length ∧
      (∀ i, i < offset ∨ offset + n ≤ i → t.buf.getD i fZero = (buf.getD s.buf).getD i fZero) ∧
      t.hw.phase = s.hw.phase ∧ t.hw.fault = s.hw.fault ∧ SameParameters s.hw t.hw ∧
      (selects s.hw.eff .reverb = false → t.hw.rv = s.hw.rv) ∧
      (selects s.hw.eff .bassboost = false → t.hw.bb = s.hw.bb) ∧
      (selects s.hw.eff .distance = false → t.hw.ds = s.hw.ds) ∧
      t.queue = s.queue ∧ t.dec = s.dec ∧ t.impl = s.impl

/-- R102: with no stage selected the block holds the source's samples unchanged, bit for bit, and `S` is as before. -/
def Obligations.EmptyChainIsIdentity : Prop :=
  ∀ (s : State) (buf : Option (List F)) (offset maxCount : Nat), ProduceReady buf offset maxCount s →
    s.hw.eff = 0b00000#5 →
    ∃ t n, exec (.produce buf offset maxCount) s = .next t ∧ t.resp = .count n ∧
      n = (pull maxCount s.src).1.length ∧ filled offset n t = s.src.stream.take n ∧ t.hw = s.hw

/-- R95: a `PRODUCE` with `maxCount = 0`, and one after the stream has ended, is accepted, returns 0, and changes
nothing but the answer (and the buffer, where another one is handed over). That a source whose stream has ended is itself
unchanged (log 11) and leaves the requested region alone (log 12, U5) is the model's choice. -/
def Obligations.ZeroCountChangesNothing : Prop :=
  ∀ (s : State) (buf : Option (List F)) (offset maxCount : Nat), ProduceReady buf offset maxCount s →
    (maxCount = 0 ∨ s.src.stream = []) →
    exec (.produce buf offset maxCount) s = .next { s with buf := buf.getD s.buf, resp := .count 0 }

/-- R100: over any sequence of host commands on a running chain, whatever the host asks for in each `PRODUCE`, whatever
counts the source returns and whatever other commands stand between, the samples handed over, put one after another,
and the stage records left are those of passing the next samples of the stream one at a time through all selected
stages; so two schedules that hand over equally many samples hand over the same ones and leave the same records. The NaN
draws of an operation are the same in both schedules (log 2), so the agreement says nothing about which NaN. -/
def Obligations.BlockSizeIndependence : Prop :=
  (∀ (s : State) (cmds : List Instr) (r : Run), ChainRuns s → WithinRun cmds →
    ∃ t r' m, runCommands cmds s r = some (t, r') ∧ m ≤ s.src.stream.length ∧
      (let o := oneAtATime (s.src.stream.take m) s
       r'.output = r.output ++ o.1 ∧ o.1.length = m ∧
         t.hw = { o.2.hw with phase := t.hw.phase, fault := t.hw.fault } ∧ t.draws = o.2.draws ∧
         t.src.stream = s.src.stream.drop m)) ∧
  (∀ (s s' t t' : State) (cmds cmds' : List Instr) (r r' : Run), ChainRuns s → WithinRun cmds → WithinRun cmds' →
    s'.hw = s.hw → s'.draws = s.draws → s'.impl = s.impl → s'.src.stream = s.src.stream →
    runCommands cmds s Run.begin = some (t, r) → runCommands cmds' s' Run.begin = some (t', r') →
    r.output.length = r'.output.length →
    r.output = r'.output ∧ t.hw.rv = t'.hw.rv ∧ t.hw.bb = t'.hw.bb ∧ t.hw.ds = t'.hw.ds)

/-- R97: `FORMAT` in `RUN` returns the latched format and writes nothing; elsewhere it is refused; and after a `BUILD`
that enters `RUN` it returns the rate and the channel count of the registers, whatever the selection. -/
def Obligations.FormatReportsLatchedFormat : Prop :=
  (∀ (s : State) (f : Fmt), s.hw.phase = .run → s.hw.fmt = some f →
    exec .format s = .next { s with resp := .format f.fs f.nch }) ∧
  (∀ s : State, s.hw.phase ≠ .run → exec .format s = .next { s with resp := .refused .wrongPhase }) ∧
  (∀ (s t : State) (fs nch : Nat), s.hw.cfg.fs = some fs → s.hw.cfg.nch = some nch → s.hw.phase = .idle →
    exec .build s = .next t → t.hw.phase = .run →
    exec .format t = .next { t with resp := .format fs nch })

/-! ### Faults and the whole machine -/

/-- R177: `FAIL` with code 2 or 3 in any phase keeps the first code, enters `FAULT`, and changes nothing else; with any
other code it is refused. A `BUILD` that raises does the same with its own code. Register 17 then reads as the code's
number (R78). In `FAULT` the block accepts neither
`BUILD` nor `CFGWR`, `PRODUCE`, `FORMAT` (log 7). -/
def Obligations.FailRecordsFirstCode : Prop :=
  (∀ (s : State) (code : Nat), code = 2 ∨ code = 3 →
    exec (.fail code) s = .next { s with
      hw := { s.hw with
        phase := .fault
        fault := if s.hw.fault = .none then (if code = 2 then .sourceUnreadable else .writeFailure)
          else s.hw.fault }
      resp := .ended }) ∧
  (∀ (s : State) (code : Nat), code ≠ 2 → code ≠ 3 →
    exec (.fail code) s = .next { s with resp := .refused .badFailCode }) ∧
  (∀ (s t u : State) (code : Nat), code = 2 ∨ code = 3 → s.hw.fault = .none → exec (.fail code) s = .next t →
    exec (.cfgrd 17) t = .next u → u.resp = .value (.fault code)) ∧
  (∀ (s t u : State), s.hw.phase = .idle → s.hw.fault = .none → ¬ BuildAccepts s.impl s.hw.cfg →
    exec .build s = .next t → exec (.cfgrd 17) t = .next u → u.resp = .value (.fault 1)) ∧
  (∀ s : State, s.hw.phase = .idle → ¬ BuildAccepts s.impl s.hw.cfg →
    ∃ t, exec .build s = .next t ∧
      t.hw = { s.hw with
        phase := .fault, fault := if s.hw.fault = .none then .invalidEffectParameter else s.hw.fault } ∧
      t.resp = .ended) ∧
  (∀ (s : State) (i : Instr), s.hw.phase = .fault →
    (i = .build ∨ (∃ r v, i = .cfgwr r v) ∨ (∃ b o m, i = .produce b o m) ∨ i = .format) →
    exec i s = .next { s with resp := .refused .wrongPhase })

/-- R168: the phase table, every command in every phase; no other instruction changes the phase. -/
def Obligations.PhaseTable : Prop :=
  ∀ (i : Instr) (s t : State), exec i s = .next t →
    (i = .reset → t.hw.phase = .idle) ∧
    (∀ r v, i = .cfgwr r v → t.hw.phase = s.hw.phase ∧
      (s.hw.phase ≠ .idle → t = { s with resp := .refused .wrongPhase })) ∧
    (∀ r, i = .cfgrd r → t.hw.phase = s.hw.phase) ∧
    (i = .build →
      (s.hw.phase = .idle → t.hw.phase = .run ∨ t.hw.phase = .fault) ∧
      (s.hw.phase ≠ .idle → t = { s with resp := .refused .wrongPhase })) ∧
    (∀ b o m, i = .produce b o m → t.hw.phase = s.hw.phase ∧
      (s.hw.phase ≠ .run → t = { s with resp := .refused .wrongPhase })) ∧
    (i = .format → t.hw.phase = s.hw.phase ∧
      (s.hw.phase ≠ .run → t = { s with resp := .refused .wrongPhase })) ∧
    (∀ c, i = .fail c → c = 2 ∨ c = 3 → t.hw.phase = .fault ∧
      (s.hw.fault ≠ .none → t.hw.fault = s.hw.fault)) ∧
    (i ≠ .reset → i ≠ .build → (∀ c, i ≠ .fail c) → t.hw.phase = s.hw.phase)

/-- R22: once a code is recorded, `FAULT` changes only at `RESET`, which clears it; where none is recorded only `BUILD`
and `FAIL` record one; and the register cannot be written. -/
def Obligations.FaultCodeIsSticky : Prop :=
  (∀ (i : Instr) (s t : State), exec i s = .next t → s.hw.fault ≠ .none → i ≠ .reset → t.hw.fault = s.hw.fault) ∧
  (∀ s t : State, exec .reset s = .next t → t.hw.fault = .none) ∧
  (∀ (i : Instr) (s t : State), exec i s = .next t → s.hw.fault = .none → t.hw.fault ≠ .none →
    (i = .build ∧ t.hw.fault = .invalidEffectParameter) ∨ (i = .fail 2 ∧ t.hw.fault = .sourceUnreadable) ∨
      (i = .fail 3 ∧ t.hw.fault = .writeFailure)) ∧
  State.reset.hw.fault = .none ∧
  (∀ (s : State) (v : CfgVal), s.hw.phase = .idle →
    exec (.cfgwr 17 v) s = .next { s with resp := .refused .readOnlyRegister })

/-- R27, R25, R62, R200: in `RUN` no instruction but `RESET` changes a parameter register, the latched format or mask, or
a latched stage parameter. -/
def Obligations.ParametersFrozenWhileRunning : Prop :=
  ∀ (i : Instr) (s t : State), s.hw.phase = .run → i ≠ .reset → exec i s = .next t → SameParameters s.hw t.hw

/-- R180, R81 (d): every refused command is a next state in which nothing changed but the answer, which says that it was
refused (log 7); command code 7, which is no instruction, is refused by the step. -/
def Obligations.RefusedCommandsChangeNothing : Prop :=
  (∀ (i : Instr) (s : State),
    ((∃ r v, i = .cfgwr r v ∧ (s.hw.phase ≠ .idle ∨ 16 ≤ r)) ∨
      (∃ r, i = .cfgrd r ∧ 18 ≤ r) ∨
      (i = .build ∧ s.hw.phase ≠ .idle) ∨
      (∃ b o m, i = .produce b o m ∧ (s.hw.phase ≠ .run ∨ (b.getD s.buf).length < o + m)) ∨
      (i = .format ∧ s.hw.phase ≠ .run) ∨
      (∃ c, i = .fail c ∧ c ≠ 2 ∧ c ≠ 3)) →
    ∃ why, exec i s = .next { s with resp := .refused why }) ∧
  (∀ (s : State) (args : Args) (rest : List Request), s.queue = .cmd 0b111#3 args :: rest →
    ∃ why, step s = .next { s with queue := rest, resp := .refused why })

/-- R20, R58, R34: one stage step writes its own record and its own element of the buffer, and nothing else of `S` or of
the buffer; the waveshapers write no record (R32). -/
def Obligations.StagesOwnTheirRecords : Prop :=
  ∀ (s t : State) (a : Nat) (i : Instr),
    i ∈ [Instr.reverb a, .distortion a, .bassboost a, .overdrive a, .distance a] → exec i s = .next t →
    (∀ b, b ≠ a → t.buf.getD b fZero = s.buf.getD b fZero) ∧ t.buf.length = s.buf.length ∧
    t.src = s.src ∧ t.queue = s.queue ∧ t.dec = s.dec ∧ t.impl = s.impl ∧
    (i = .reverb a → t.hw = { s.hw with rv := t.hw.rv }) ∧
    (i = .distortion a → t.hw = s.hw) ∧
    (i = .bassboost a → t.hw = { s.hw with bb := t.hw.bb }) ∧
    (i = .overdrive a → t.hw = s.hw) ∧
    (i = .distance a → t.hw = { s.hw with ds := t.hw.ds })

/-- R180, R187: from every state that meets the invariant every instruction completes with a next state, but for a
`CFGWR` in `IDLE` of a value that is not of the register's type (D27 (4); log 15). -/
def Obligations.EveryCommandCompletes : Prop :=
  ∀ (s : State) (i : Instr), s.Inv →
    (∀ r v, i = .cfgwr r v → s.hw.phase = .idle → r ≤ 15 → v.fits r = true) →
    ∃ t, exec i s = .next t

/-- R21, R22, R25, R28, R37, R120, R162: every step keeps the invariant: a fault code exactly in `FAULT`; no chain in
`IDLE`; a record exactly for each stage of the mask; cursors inside delay memories of 1 to `DEPTH_MAX` elements that
keep their canonical form; finite latched factors. -/
def Obligations.InvariantKeptByEveryStep : Prop :=
  ∀ s t : State, s.Inv → step s = .next t → t.Inv

/-- The machine right after reset meets the invariant (R37). -/
def Obligations.ResetStateMeetsInvariant : Prop :=
  State.reset.Inv

/-! ### Statements added after the first review -/

/-- R204: a run begins with `RESET`, whatever was before it, with no output; it has ended, and stays ended, when a `PRODUCE`
in `RUN` has returned 0 or the phase is `FAULT`; its output grows by exactly the samples of each `PRODUCE` that returned
some, and by nothing at any other command, refused ones included; in `FAULT` nothing more is handed over. -/
def Obligations.RunEndsAndOutput : Prop :=
  (∀ (s : State) (cmds : List Instr) (r : Run),
    ∃ t, exec .reset s = .next t ∧ runCommands (.reset :: cmds) s r = runCommands cmds t Run.begin) ∧
  (∀ (i : Instr) (s t : State) (r : Run), isHostCommand i = true → i ≠ .reset → exec i s = .next t →
    ((r.note i t).ended = true ↔
      r.ended = true ∨ ((∃ b o m, i = .produce b o m) ∧ s.hw.phase = .run ∧ t.resp = .count 0) ∨ t.hw.phase = .fault) ∧
    (∀ b o m n, i = .produce b o m → t.resp = .count n →
      (r.note i t).output = r.output ++ (t.buf.drop o).take n ∧ (r.note i t).output.length = r.output.length + n) ∧
    ((∀ b o m n, i = .produce b o m → t.resp ≠ .count n) → (r.note i t).output = r.output)) ∧
  (∀ (cmds : List Instr) (s t : State) (r r' : Run), WithinRun cmds → runCommands cmds s r = some (t, r') →
    (r.ended = true → r'.ended = true) ∧ (∃ more, r'.output = r.output ++ more) ∧
    (s.hw.phase = .fault → r'.output = r.output))

/-- R8 (a magnitude beyond the largest finite value as IEEE 754 rounds, log 6): on finite operands the sum, the
difference, the product and the quotient are the exact real result rounded once, with the sign rules for zeros; an
infinity with a finite operand gives an infinity. `q` is the NaN drawn. -/
def Obligations.ArithmeticRoundsExactResult : Prop :=
  ∀ q : F,
    (∀ a b : F, isFinite a = true → isFinite b = true →
      (sval a + sval b ≠ 0 → fadd q a b = rndF (fToRat a + fToRat b)) ∧
      (sval a + sval b = 0 →
        fadd q a b = if signBit a = true ∧ signBit b = true then 0x80000000#32 else 0x00000000#32) ∧
      (sval a ≠ sval b → fsub q a b = rndF (fToRat a - fToRat b)) ∧
      (sval a = sval b →
        fsub q a b = if signBit a = true ∧ signBit b = false then 0x80000000#32 else 0x00000000#32) ∧
      (sval a ≠ 0 → sval b ≠ 0 →
        fmul q a b = rndF (fToRat a * fToRat b) ∧ fdiv q a b = rndF (fToRat a / fToRat b)) ∧
      (sval a = 0 ∨ sval b = 0 →
        fmul q a b = if signBit a = signBit b then 0x00000000#32 else 0x80000000#32)) ∧
    (∀ a b : F, isInf a = true → isFinite b = true →
      fadd q a b = a ∧ fadd q b a = a ∧ fsub q a b = a ∧ fsub q b a = fneg a ∧
      (isZero b = false →
        fmul q a b = (if signBit a = signBit b then 0x7F800000#32 else 0xFF800000#32) ∧ fmul q b a = fmul q a b))

/-- R139: a coefficient is the real quotient rounded once. Every rational between the two bounds of the quotient rounds to
it; or the bounds are so close that only one multiple of 2^-150 can lie between them, and it is that multiple rounded
(the quotient itself by the separation of log 5: a tie, or 0). -/
def Obligations.CoefficientsRoundedOnce : Prop :=
  ∀ (p sep : Nat) (n d : Enc) (x : F), roundQuotient p sep n d = some x →
    0 < d.lo ∧ d.lo ≤ d.hi ∧
    ((∀ r : Rat, ((Enc.div p n d).lo : Rat) ≤ r * 2 ^ p → r * 2 ^ p ≤ ((Enc.div p n d).hi : Rat) → rndF r = x) ∨
      (((Enc.div p n d).hi - (Enc.div p n d).lo) * 2 ^ sep < 2 ^ p ∧
        ∃ k : Int, (Enc.div p n d).lo * 2 ^ 150 ≤ k * 2 ^ p ∧ (k - 1) * 2 ^ p < (Enc.div p n d).lo * 2 ^ 150 ∧
          rndF (k / 2 ^ 150) = x))

/-- R141 (log 5): for every value of the open function and of `TOL_COEF`, which is not negative, `NUM.coef` is the
reference or its five coefficients are finite and no bounds of the real quotient that are tried leave it more than
`TOL_COEF` away: a real number between those bounds is within `TOL_COEF` and the width of the bounds. -/
def Obligations.CoefficientsWithinTolerance : Prop :=
  0 ≤ tolCoef ∧
  ∀ (fs : Nat) (f0 q gdb : Rat),
    numCoef .reference fs f0 q gdb = refCoef fs f0 q gdb ∧
    (numCoef .other fs f0 q gdb = refCoef fs f0 q gdb ∨
      ∀ (x : F) (pick : RawCoefs → Enc),
        (x, pick) ∈ [((numCoef .other fs f0 q gdb).b0, RawCoefs.b0r), ((numCoef .other fs f0 q gdb).b1, RawCoefs.b1r),
          ((numCoef .other fs f0 q gdb).b2, RawCoefs.b2r), ((numCoef .other fs f0 q gdb).a1, RawCoefs.a1r),
          ((numCoef .other fs f0 q gdb).a2, RawCoefs.a2r)] →
        isFinite x = true ∧
        ∀ k, k < doublings (sepBits (toleranceBits (fToRat x) tolCoef) fs f0 q gdb) →
          let p := coefPrecision gdb * 2 ^ k
          let r := rawCoefs p fs f0 q gdb
          let z := Enc.div p (pick r) r.a0r
          0 < r.a0r.lo → r.a0r.lo ≤ r.a0r.hi →
          ∀ v : Rat, (z.lo : Rat) ≤ v * 2 ^ p → v * 2 ^ p ≤ (z.hi : Rat) →
            |fToRat x - v| * 2 ^ p ≤ tolCoef * 2 ^ p + ((z.hi : Rat) - z.lo))
end

