-- ==== Sys2Proof/Laws/Memory.lean ====
section
/-! SUPPORT. The canonical form of a delay memory, and that every operation on one keeps it. -/

namespace Sys2Proof.Machine

theorem Memory.wfFrom_cons {len lo a : Nat} {v : F} {rest : Memory} :
    Memory.wfFrom len lo ((a, v) :: rest) = true ↔
      lo ≤ a ∧ a < len ∧ v ≠ fZero ∧ Memory.wfFrom len (a + 1) rest = true := by
  simp [Memory.wfFrom, and_assoc]

/-- A canonical list that starts late is one that starts early. -/
theorem Memory.wfFrom_mono {len lo lo' : Nat} (h : lo' ≤ lo) {m : Memory}
    (hm : Memory.wfFrom len lo m = true) : Memory.wfFrom len lo' m = true := by
  cases m with
  | nil => rfl
  | cons p rest =>
    obtain ⟨h1, h2, h3, h4⟩ := Memory.wfFrom_cons.mp hm
    exact Memory.wfFrom_cons.mpr ⟨h.trans h1, h2, h3, h4⟩

/-- Writing inside the memory keeps the form, from any starting index not above the one written. -/
theorem Memory.set_wfFrom {len a : Nat} {v : F} (ha : a < len) :
    ∀ {m : Memory} {lo : Nat}, lo ≤ a → Memory.wfFrom len lo m = true →
      Memory.wfFrom len lo (Memory.set m a v) = true := by
  intro m
  induction m with
  | nil =>
    intro lo hlo _
    by_cases hv : v = fZero
    · simp [Memory.set, hv, Memory.wfFrom]
    · simpa [Memory.set, hv] using Memory.wfFrom_cons.mpr ⟨hlo, ha, hv, rfl⟩
  | cons p rest ih =>
    obtain ⟨b, w⟩ := p
    intro lo hlo hm
    obtain ⟨h1, h2, h3, h4⟩ := Memory.wfFrom_cons.mp hm
    rcases lt_trichotomy a b with hab | hab | hab
    · by_cases hv : v = fZero
      · simpa [Memory.set, hab, hv] using hm
      · simpa [Memory.set, hab, hv] using Memory.wfFrom_cons.mpr
          ⟨hlo, ha, hv, Memory.wfFrom_cons.mpr ⟨hab, h2, h3, h4⟩⟩
    · subst hab
      by_cases hv : v = fZero
      · simpa [Memory.set, hv] using Memory.wfFrom_mono (by omega) h4
      · simpa [Memory.set, hv] using Memory.wfFrom_cons.mpr ⟨hlo, ha, hv, h4⟩
    · have hne : ¬ a < b := by omega
      have hne' : a ≠ b := by omega
      simpa [Memory.set, hne, hne'] using Memory.wfFrom_cons.mpr ⟨h1, h2, h3, ih (by omega) h4⟩

/-- A write inside a delay memory keeps its canonical form. -/
theorem Memory.set_wf {len a : Nat} {v : F} {m : Memory} (ha : a < len) (hm : Memory.wf len m = true) :
    Memory.wf len (Memory.set m a v) = true :=
  Memory.set_wfFrom ha (Nat.zero_le a) hm

/-- The memory `BUILD` makes, all `+0`, is in canonical form. -/
theorem Memory.wf_nil (len : Nat) : Memory.wf len [] = true := rfl

/-- `DlWrite` keeps the canonical form. -/
theorem dlWrite_wf {dl : DelayLine} {v : F} (hi : dl.idx < dl.len) (hm : Memory.wf dl.len dl.mem = true) :
    Memory.wf (dlWrite dl v).len (dlWrite dl v).mem = true :=
  Memory.set_wf hi hm

/-- At reset there is no delay memory that could be out of form. -/
theorem reset_memories_wf :
    Hw.reset.rv.all (fun dl => Memory.wf dl.len dl.mem) = true ∧
      Hw.reset.ds.all (fun dl => Memory.wf dl.len dl.mem) = true :=
  ⟨rfl, rfl⟩

end Sys2Proof.Machine
end

