-- ==== Sys2Proof/Laws/Num.lean ====
section
/-! SUPPORT. What the searches for a coefficient and for an exponential can answer; callers cite these and do not unfold
the searches. -/

namespace Sys2Proof.Machine

@[simp] theorem Enc.exact_lo (n : Int) : (Enc.exact n).lo = n := rfl

@[simp] theorem Enc.exact_hi (n : Int) : (Enc.exact n).hi = n := rfl

theorem unit_pos (p : Nat) : 0 < unit p := by
  have : 0 < 2 ^ p := Nat.two_pow_pos p
  unfold unit; omega

/-- The five quotients of an answered set of coefficients. -/
theorem coefsAt_some {p sep : Nat} {r : RawCoefs} {c : Coefs} (h : coefsAt p sep r = some c) :
    roundQuotient p sep r.b0r r.a0r = some c.b0 ∧ roundQuotient p sep r.b1r r.a0r = some c.b1 ∧
    roundQuotient p sep r.b2r r.a0r = some c.b2 ∧ roundQuotient p sep r.a1r r.a0r = some c.a1 ∧
    roundQuotient p sep r.a2r r.a0r = some c.a2 := by
  simp only [coefsAt, Option.bind_eq_some_iff, Option.map_eq_some_iff] at h
  obtain ⟨b0, h0, b1, h1, b2, h2, a1, h3, a2, h4, rfl⟩ := h
  exact ⟨h0, h1, h2, h3, h4⟩

/-- What the search answers, it answers from the bounds of one precision. -/
theorem coefSearch_some {sep fs : Nat} {f0 q gdb : Rat} {c : Coefs} :
    ∀ {fuel p : Nat}, coefSearch sep fs f0 q gdb fuel p = some c →
      ∃ k, k < fuel ∧ coefsAt (2 ^ k * p) sep (rawCoefs (2 ^ k * p) fs f0 q gdb) = some c
  | 0, _, h => by cases h
  | fuel + 1, p, h => by
    unfold coefSearch at h
    split at h
    · cases h; exact ⟨0, by omega, by simpa⟩
    · obtain ⟨k, hk, h⟩ := coefSearch_some h
      have e : 2 ^ (k + 1) * p = 2 ^ k * (2 * p) := by ring
      exact ⟨k + 1, by omega, by rw [e]; exact h⟩

/-- Whatever the fuel, the exponential of a negative argument is one bound of `e^-x`, which lies within `[0, 1]`,
rounded. -/
theorem roundExpNeg_cases (n : Nat) : ∀ fuel p : Nat,
    ∃ (p' : Nat) (x : Int), 0 ≤ x ∧ x ≤ unit p' ∧ roundExpNeg n fuel p = roundBound p' x
  | 0, p => ⟨p, _, le_min (le_max_left _ _) (unit_pos p).le, min_le_right _ _, rfl⟩
  | fuel + 1, p => by
    unfold roundExpNeg
    dsimp only
    split
    · exact ⟨p, _, le_min (le_max_left _ _) (unit_pos p).le, min_le_right _ _, rfl⟩
    · exact roundExpNeg_cases n fuel (2 * p)

/-- Whatever the fuel, the exponential of a positive argument is one rounded positive quotient. -/
theorem roundExpPos_cases (n : Nat) : ∀ fuel p : Nat,
    ∃ a d : Nat, roundExpPos n fuel p = rndUnits false a d
  | 0, p => ⟨_, _, rfl⟩
  | fuel + 1, p => by
    unfold roundExpPos
    dsimp only
    split
    · exact ⟨_, _, rfl⟩
    · exact roundExpPos_cases n fuel (2 * p)

end Sys2Proof.Machine
end

