-- ==== Sys2Proof/Laws/State.lean ====
section
/-! SUPPORT. One lemma per field per named update of the state, each true by definition, so that no later proof unfolds
a record update. -/

namespace Sys2Proof.Machine

/-! ### `respond`: the answer alone -/

@[simp] theorem respond_hw (r : Response) (s : State) : (respond r s).hw = s.hw := rfl

@[simp] theorem respond_buf (r : Response) (s : State) : (respond r s).buf = s.buf := rfl

@[simp] theorem respond_src (r : Response) (s : State) : (respond r s).src = s.src := rfl

@[simp] theorem respond_queue (r : Response) (s : State) : (respond r s).queue = s.queue := rfl

@[simp] theorem respond_resp (r : Response) (s : State) : (respond r s).resp = r := rfl

@[simp] theorem respond_dec (r : Response) (s : State) : (respond r s).dec = s.dec := rfl

@[simp] theorem respond_draws (r : Response) (s : State) : (respond r s).draws = s.draws := rfl

@[simp] theorem respond_impl (r : Response) (s : State) : (respond r s).impl = s.impl := rfl

/-! ### `raiseFault`: the phase, the fault code and the answer -/

@[simp] theorem raiseFault_buf (c : FaultCode) (s : State) : (raiseFault c s).buf = s.buf := rfl

@[simp] theorem raiseFault_src (c : FaultCode) (s : State) : (raiseFault c s).src = s.src := rfl

@[simp] theorem raiseFault_queue (c : FaultCode) (s : State) : (raiseFault c s).queue = s.queue := rfl

@[simp] theorem raiseFault_resp (c : FaultCode) (s : State) : (raiseFault c s).resp = .ended := rfl

@[simp] theorem raiseFault_dec (c : FaultCode) (s : State) : (raiseFault c s).dec = s.dec := rfl

@[simp] theorem raiseFault_draws (c : FaultCode) (s : State) : (raiseFault c s).draws = s.draws := rfl

@[simp] theorem raiseFault_impl (c : FaultCode) (s : State) : (raiseFault c s).impl = s.impl := rfl

@[simp] theorem raiseFault_hw_phase (c : FaultCode) (s : State) :
    (raiseFault c s).hw.phase = .fault := rfl

@[simp] theorem raiseFault_hw_fault (c : FaultCode) (s : State) :
    (raiseFault c s).hw.fault = if s.hw.fault = .none then c else s.hw.fault := rfl

@[simp] theorem raiseFault_hw_cfg (c : FaultCode) (s : State) :
    (raiseFault c s).hw.cfg = s.hw.cfg := rfl

@[simp] theorem raiseFault_hw_fmt (c : FaultCode) (s : State) :
    (raiseFault c s).hw.fmt = s.hw.fmt := rfl

@[simp] theorem raiseFault_hw_eff (c : FaultCode) (s : State) :
    (raiseFault c s).hw.eff = s.hw.eff := rfl

@[simp] theorem raiseFault_hw_rv (c : FaultCode) (s : State) :
    (raiseFault c s).hw.rv = s.hw.rv := rfl

@[simp] theorem raiseFault_hw_dt (c : FaultCode) (s : State) :
    (raiseFault c s).hw.dt = s.hw.dt := rfl

@[simp] theorem raiseFault_hw_bb (c : FaultCode) (s : State) :
    (raiseFault c s).hw.bb = s.hw.bb := rfl

@[simp] theorem raiseFault_hw_od (c : FaultCode) (s : State) :
    (raiseFault c s).hw.od = s.hw.od := rfl

@[simp] theorem raiseFault_hw_ds (c : FaultCode) (s : State) :
    (raiseFault c s).hw.ds = s.hw.ds := rfl

/-! ### `resetHw`: the whole of `S` and the answer -/

@[simp] theorem resetHw_hw (s : State) : (resetHw s).hw = Hw.reset := rfl

@[simp] theorem resetHw_buf (s : State) : (resetHw s).buf = s.buf := rfl

@[simp] theorem resetHw_src (s : State) : (resetHw s).src = s.src := rfl

@[simp] theorem resetHw_queue (s : State) : (resetHw s).queue = s.queue := rfl

@[simp] theorem resetHw_resp (s : State) : (resetHw s).resp = .ended := rfl

@[simp] theorem resetHw_dec (s : State) : (resetHw s).dec = s.dec := rfl

@[simp] theorem resetHw_draws (s : State) : (resetHw s).draws = s.draws := rfl

@[simp] theorem resetHw_impl (s : State) : (resetHw s).impl = s.impl := rfl

/-! ### `setSel` and `addEff`: a decoder register and the answer -/

@[simp] theorem setSel_hw (k : Nat) (s : State) : (setSel k s).hw = s.hw := rfl

@[simp] theorem setSel_buf (k : Nat) (s : State) : (setSel k s).buf = s.buf := rfl

@[simp] theorem setSel_src (k : Nat) (s : State) : (setSel k s).src = s.src := rfl

@[simp] theorem setSel_queue (k : Nat) (s : State) : (setSel k s).queue = s.queue := rfl

@[simp] theorem setSel_draws (k : Nat) (s : State) : (setSel k s).draws = s.draws := rfl

@[simp] theorem setSel_impl (k : Nat) (s : State) : (setSel k s).impl = s.impl := rfl

@[simp] theorem addEff_hw (e : BitVec 5) (s : State) : (addEff e s).hw = s.hw := rfl

@[simp] theorem addEff_buf (e : BitVec 5) (s : State) : (addEff e s).buf = s.buf := rfl

@[simp] theorem addEff_src (e : BitVec 5) (s : State) : (addEff e s).src = s.src := rfl

@[simp] theorem addEff_queue (e : BitVec 5) (s : State) : (addEff e s).queue = s.queue := rfl

@[simp] theorem addEff_draws (e : BitVec 5) (s : State) : (addEff e s).draws = s.draws := rfl

@[simp] theorem addEff_impl (e : BitVec 5) (s : State) : (addEff e s).impl = s.impl := rfl

@[simp] theorem setSel_dec_sel (k : Nat) (s : State) :
    (setSel k s).dec.sel = s.dec.sel ||| BitVec.twoPow 6 k := rfl

@[simp] theorem setSel_dec_eff (k : Nat) (s : State) : (setSel k s).dec.eff = s.dec.eff := rfl

@[simp] theorem addEff_dec_eff (e : BitVec 5) (s : State) : (addEff e s).dec.eff = s.dec.eff ||| e := rfl

@[simp] theorem addEff_dec_sel (e : BitVec 5) (s : State) : (addEff e s).dec.sel = s.dec.sel := rfl

/-! ### `dlWrite`, fresh records, `builtHw` -/

@[simp] theorem dlWrite_len (dl : DelayLine) (v : F) : (dlWrite dl v).len = dl.len := rfl

@[simp] theorem dlWrite_idx (dl : DelayLine) (v : F) : (dlWrite dl v).idx = dl.idx := rfl

@[simp] theorem dlWrite_mix (dl : DelayLine) (v : F) : (dlWrite dl v).mix = dl.mix := rfl

@[simp] theorem dlWrite_fb (dl : DelayLine) (v : F) : (dlWrite dl v).fb = dl.fb := rfl

@[simp] theorem DelayLine.fresh_len (len : Nat) (mix fb : F) :
    (DelayLine.fresh len mix fb).len = len := rfl

@[simp] theorem DelayLine.fresh_mem (len : Nat) (mix fb : F) :
    (DelayLine.fresh len mix fb).mem = [] := rfl

@[simp] theorem DelayLine.fresh_idx (len : Nat) (mix fb : F) :
    (DelayLine.fresh len mix fb).idx = 0 := rfl

@[simp] theorem DelayLine.fresh_mix (len : Nat) (mix fb : F) :
    (DelayLine.fresh len mix fb).mix = mix := rfl

@[simp] theorem DelayLine.fresh_fb (len : Nat) (mix fb : F) :
    (DelayLine.fresh len mix fb).fb = fb := rfl

@[simp] theorem Biquad.fresh_b0 (c : Coefs) : (Biquad.fresh c).b0 = c.b0 := rfl

@[simp] theorem Biquad.fresh_b1 (c : Coefs) : (Biquad.fresh c).b1 = c.b1 := rfl

@[simp] theorem Biquad.fresh_b2 (c : Coefs) : (Biquad.fresh c).b2 = c.b2 := rfl

@[simp] theorem Biquad.fresh_a1 (c : Coefs) : (Biquad.fresh c).a1 = c.a1 := rfl

@[simp] theorem Biquad.fresh_a2 (c : Coefs) : (Biquad.fresh c).a2 = c.a2 := rfl

@[simp] theorem Biquad.fresh_x1 (c : Coefs) : (Biquad.fresh c).x1 = fZero := rfl

@[simp] theorem Biquad.fresh_x2 (c : Coefs) : (Biquad.fresh c).x2 = fZero := rfl

@[simp] theorem Biquad.fresh_y1 (c : Coefs) : (Biquad.fresh c).y1 = fZero := rfl

@[simp] theorem Biquad.fresh_y2 (c : Coefs) : (Biquad.fresh c).y2 = fZero := rfl

@[simp] theorem builtHw_phase (p : Impl) (fs nch : Nat) (hw : Hw) :
    (builtHw p fs nch hw).phase = .run := rfl

@[simp] theorem builtHw_fault (p : Impl) (fs nch : Nat) (hw : Hw) :
    (builtHw p fs nch hw).fault = hw.fault := rfl

@[simp] theorem builtHw_cfg (p : Impl) (fs nch : Nat) (hw : Hw) :
    (builtHw p fs nch hw).cfg = hw.cfg := rfl

@[simp] theorem builtHw_eff (p : Impl) (fs nch : Nat) (hw : Hw) :
    (builtHw p fs nch hw).eff = effOf hw.cfg.sel := rfl

@[simp] theorem builtHw_fmt (p : Impl) (fs nch : Nat) (hw : Hw) :
    (builtHw p fs nch hw).fmt = some { fs := fs, nch := nch } := rfl

end Sys2Proof.Machine
end

