-- ==== Sys2Proof/Laws/Ops.lean ====
section
/-! SUPPORT. One lemma per shared operation that says everything it can do; callers cite it and do not unfold the
operation. -/

namespace Sys2Proof.Machine

/-! ### The buffer -/

@[simp] theorem bufWrite_length (b : List F) (a : Nat) (v : F) : (bufWrite b a v).length = b.length := by
  simp [bufWrite]

theorem bufRead_write_other {b : List F} {a c : Nat} {v : F} (h : c ≠ a) :
    bufRead (bufWrite b a v) c = bufRead b c := by
  simp [bufRead, bufWrite, List.getD_eq_getElem?_getD, List.getElem?_set_ne (Ne.symm h)]

theorem bufRead_write_same {b : List F} {a : Nat} {v : F} (h : a < b.length) :
    bufRead (bufWrite b a v) a = v := by
  simp [bufRead, bufWrite, List.getD_eq_getElem?_getD, h]

@[simp] theorem bufFill_length : ∀ (xs b : List F) (a : Nat), (bufFill b a xs).length = b.length
  | [], _, _ => rfl
  | x :: xs, b, a => by simpa [bufFill] using bufFill_length xs (bufWrite b a x) (a + 1)

/-- Filling from `a` on leaves every element before `a` and after the last one filled. -/
theorem bufFill_outside : ∀ (xs b : List F) (a c : Nat), c < a ∨ a + xs.length ≤ c →
    bufRead (bufFill b a xs) c = bufRead b c
  | [], _, _, _, _ => rfl
  | x :: xs, b, a, c, h => by
    simp only [List.length_cons] at h
    rw [bufFill, bufFill_outside xs (bufWrite b a x) (a + 1) c (by omega), bufRead_write_other (by omega)]

/-! ### The source -/

theorem sourceChoice_bounds (src : Source) {avail : Nat} (h : avail ≠ 0) :
    1 ≤ sourceChoice src avail ∧ sourceChoice src avail ≤ avail := by
  unfold sourceChoice
  split <;> omega

/-- What `pull` can do: with nothing to hand over the source is as it was; else it hands over `n` samples, from 1 to
what is asked and there, in stream order. -/
theorem pull_cases (mc : Nat) (src : Source) :
    ((mc = 0 ∨ src.stream = []) ∧ pull mc src = ([], src)) ∨
    (∃ n, 1 ≤ n ∧ n ≤ mc ∧ n ≤ src.stream.length ∧
      pull mc src = (src.stream.take n,
        { stream := src.stream.drop n, counts := src.counts.tail, pulls := src.pulls + 1 })) := by
  by_cases h : min mc src.stream.length = 0
  · refine .inl ⟨?_, by simp [pull, h]⟩
    rcases Nat.eq_zero_or_pos mc with h0 | h0
    · exact .inl h0
    · exact .inr (List.length_eq_zero_iff.mp (by omega))
  · have hb := sourceChoice_bounds src h
    exact .inr ⟨_, hb.1, by omega, by omega, by simp [pull, h]⟩

theorem pull_length_le (mc : Nat) (src : Source) : (pull mc src).1.length ≤ mc := by
  rcases pull_cases mc src with ⟨-, h⟩ | ⟨n, -, h2, h3, h⟩
  · simp [h]
  · simp [h]; omega

/-! ### Stage steps -/

/-- What a single stage step can do: be refused, stop for want of a record, or run the step on the element. -/
theorem runStage_cases (k : Kind) (present : Bool) (f : F → State → F × State) (a : Nat) (s : State) :
    ((s.hw.phase ≠ .run ∨ selects s.hw.eff k = false) ∧
      runStage k present f a s = .next (respond (.refused .stageNotInChain) s)) ∨
    (s.hw.phase = .run ∧ selects s.hw.eff k = true ∧ s.buf.length ≤ a ∧
      runStage k present f a s = .next (respond (.refused .noSuchSample) s)) ∨
    (s.hw.phase = .run ∧ selects s.hw.eff k = true ∧ a < s.buf.length ∧ present = false ∧
      runStage k present f a s = .fault (.stageRecordAbsent k)) ∨
    (s.hw.phase = .run ∧ selects s.hw.eff k = true ∧ a < s.buf.length ∧ present = true ∧
      runStage k present f a s =
        .next (respond (.sample (f (bufRead s.buf a) s).1) (sampleAt f a s))) := by
  by_cases h1 : s.hw.phase ≠ .run ∨ selects s.hw.eff k = false
  · exact .inl ⟨h1, by simp only [runStage, if_pos h1, refuse]⟩
  · have hp : s.hw.phase = .run := by by_contra h; exact h1 (.inl h)
    have hk : selects s.hw.eff k = true := by
      cases h : selects s.hw.eff k
      · exact absurd (.inr h) h1
      · rfl
    by_cases h2 : s.buf.length ≤ a
    · exact .inr (.inl ⟨hp, hk, h2, by simp only [runStage, if_neg h1, if_pos h2, refuse]⟩)
    · cases hpr : present
      · exact .inr (.inr (.inl ⟨hp, hk, by omega, rfl, by simp [runStage, hp, hk, h2]⟩))
      · exact .inr (.inr (.inr ⟨hp, hk, by omega, rfl, by simp [runStage, hp, hk, h2]⟩))

/-- A property every pass of the inner loop keeps is kept by the whole loop. -/
theorem sweep_induction {f : F → State → F × State} (P : State → Prop)
    (h : ∀ a s, P s → P (sampleAt f a s)) : ∀ (n a : Nat) (s : State), P s → P (sweep f a n s)
  | 0, _, _, hs => hs
  | n + 1, a, s, hs => sweep_induction P h n (a + 1) (sampleAt f a s) (h a s hs)

/-- A property every pass of every stage keeps is kept by the chain. -/
theorem throughChain_induction (P : State → Prop)
    (h : ∀ k a s, P s → P (sampleAt (stageSample k) a s)) (a n : Nat) (s : State) (hs : P s) :
    P (throughChain a n s) := by
  have key : ∀ (ks : List Kind) (s : State), P s → P (ks.foldl (chainStage a n) s) := by
    intro ks
    induction ks with
    | nil => exact fun _ h => h
    | cons k ks ih =>
      intro s hs
      refine ih _ ?_
      unfold chainStage
      split
      · exact sweep_induction P (h k) n a s hs
      · exact hs
  exact key canonicalOrder s hs

/-- What a stage's sample step writes of the state: its own record and its own draw counter. -/
theorem stageSample_writes (k : Kind) (x : F) (s : State) :
    (stageSample k x s).2 =
      { s with
        hw := match k with
          | .reverb => { s.hw with rv := (stageSample k x s).2.hw.rv }
          | .bassboost => { s.hw with bb := (stageSample k x s).2.hw.bb }
          | .distance => { s.hw with ds := (stageSample k x s).2.hw.ds }
          | .distortion => s.hw
          | .overdrive => s.hw
        draws := (stageSample k x s).2.draws } := by
  cases k
  · simp only [stageSample, reverbSample]; split <;> rfl
  · simp only [stageSample, distortionSample]; split <;> rfl
  · simp only [stageSample, bassboostSample]; split <;> rfl
  · simp only [stageSample, overdriveSample]; split <;> rfl
  · simp only [stageSample, distanceSample]; split <;> rfl

/-! ### The register file -/

/-- A register can be written exactly with a value of its type. -/
theorem cfgSet_isSome (reg : Nat) (v : CfgVal) (c : Cfg) : (cfgSet reg v c).isSome = v.fits reg := by
  rcases Nat.lt_or_ge reg 16 with h | h
  · cases v <;> interval_cases reg <;> rfl
  · obtain ⟨n, rfl⟩ := Nat.exists_eq_add_of_le h
    have e : 16 + n = n + 16 := Nat.add_comm _ _
    cases v <;> simp [cfgSet, CfgVal.fits, e]

/-- The codes `FAIL` accepts, with the faults they report. -/
theorem reportedFault_cases (code : Nat) :
    (code = 2 ∧ reportedFault code = some .sourceUnreadable) ∨ (code = 3 ∧ reportedFault code = some .writeFailure) ∨
    (code ≠ 2 ∧ code ≠ 3 ∧ reportedFault code = none) := by
  by_cases h2 : code = 2
  · subst h2; exact .inl ⟨rfl, rfl⟩
  · by_cases h3 : code = 3
    · subst h3; exact .inr (.inl ⟨rfl, rfl⟩)
    · exact .inr (.inr ⟨h2, h3, by simp [reportedFault, h2, h3]⟩)

@[simp] theorem faultOfNumber_faultNumber (c : FaultCode) : faultOfNumber (faultNumber c) = some c := by
  cases c <;> rfl

/-! ### Runs -/

@[simp] theorem Run.note_reset (t : State) (r : Run) : r.note .reset t = Run.begin := rfl

theorem Run.note_other {i : Instr} (h : i ≠ .reset) (t : State) (r : Run) :
    r.note i t =
      { ended := r.ended || decide (returnedCount i t = some 0) || decide (t.hw.phase = .fault)
        output := r.output ++ handedOver i t } := by
  simp [Run.note, h]

/-- A command that leads to a next state is noted, and the rest follows. -/
theorem runCommands_next {i : Instr} {s t : State} (h : exec i s = .next t) (is : List Instr) (r : Run) :
    runCommands (i :: is) s r = runCommands is t (r.note i t) := by
  simp [runCommands, h]

end Sys2Proof.Machine
end

