-- ==== Sys2Proof/Laws/PerInstr.lean ====
section
/-! SUPPORT. Statements made for every instruction, one lemma per constructor. -/

namespace Sys2Proof.Laws.NotReserved

/-- The request that carries an instruction is never one the decoder rejects (R81). -/
def Statement (i : Instr) : Prop := ∀ why, decode (encode i) ≠ .rejected why

theorem charR : Statement .charR := fun _ => nofun
theorem charD : Statement .charD := fun _ => nofun
theorem charB : Statement .charB := fun _ => nofun
theorem charO : Statement .charO := fun _ => nofun
theorem charF : Statement .charF := fun _ => nofun
theorem charA : Statement .charA := fun _ => nofun
theorem selR : Statement .selR := fun _ => nofun
theorem selD : Statement .selD := fun _ => nofun
theorem selB : Statement .selB := fun _ => nofun
theorem selO : Statement .selO := fun _ => nofun
theorem selF : Statement .selF := fun _ => nofun
theorem selA : Statement .selA := fun _ => nofun
theorem reverb (a : Nat) : Statement (.reverb a) := by
  simp [Statement, encode, decode, decodeKind, kindRows, Row.hits]
theorem distortion (a : Nat) : Statement (.distortion a) := by
  simp [Statement, encode, decode, decodeKind, kindRows, Row.hits]
theorem bassboost (a : Nat) : Statement (.bassboost a) := by
  simp [Statement, encode, decode, decodeKind, kindRows, Row.hits]
theorem overdrive (a : Nat) : Statement (.overdrive a) := by
  simp [Statement, encode, decode, decodeKind, kindRows, Row.hits]
theorem distance (a : Nat) : Statement (.distance a) := by
  simp [Statement, encode, decode, decodeKind, kindRows, Row.hits]
theorem reset : Statement .reset := fun _ => nofun
theorem cfgwr (reg : Nat) (value : CfgVal) : Statement (.cfgwr reg value) := fun _ => nofun
theorem build : Statement .build := fun _ => nofun
theorem produce (buf : Option (List F)) (offset maxCount : Nat) : Statement (.produce buf offset maxCount) :=
  fun _ => nofun
theorem format : Statement .format := fun _ => nofun
theorem fail (code : Nat) : Statement (.fail code) := fun _ => nofun
theorem cfgrd (reg : Nat) : Statement (.cfgrd reg) := fun _ => nofun

end Sys2Proof.Laws.NotReserved
end

