-- ==== Sys2Proof/Tests/Slice0.lean ====
section
/-! SUPPORT. The model's own tests, expected results from 95_test_vectors.md or by hand from the rules: the decoding of
every row, ill-formed terms that `Instr.wf` refuses, single steps on small states. Then, for each obligation with
hypotheses, states and operands that meet them. -/

namespace Sys2Proof.Tests
open Sys2Proof.Machine

set_option Elab.async false

/-! ### Helpers -/

/-- The open parameters pinned to `AWAY`, a `DEPTH_MAX` of 100000 and the reference `NUM`. -/
def pinned : Impl := { tie := some .away, depthMax := some 100000, num := .reference }

/-- The reset state with the open parameters pinned. -/
def base : State := { State.reset with impl := pinned }

/-- The defaults with a rate, one channel and a selection. -/
def cfgOf (fs : Nat) (sel : BitVec 6) : Cfg := { Cfg.reset with fs := some fs, nch := some 1, sel := sel }

/-- `IDLE` with those registers. -/
def idleWith (c : Cfg) : State := { base with hw := { Hw.reset with cfg := c } }

/-- A chain just built from `c` at rate `fs`, a buffer, and a source with the counts it will choose. -/
def running (fs : Nat) (c : Cfg) (buf stream : List F) (counts : List Nat) : State :=
  { base with
    hw := builtHw pinned fs 1 { Hw.reset with cfg := c }
    buf := buf
    src := { stream := stream, counts := counts, pulls := 0 } }

/-- The outcome is a next state of which `p` holds. -/
def nextIs (o : Host.Outcome State Machine.Fault Refusal) (p : State → Bool) : Bool :=
  match o with
  | .next t => p t
  | .fault _ => false
  | .refused _ => false

/-- The next state's answer. -/
def answers (o : Host.Outcome State Machine.Fault Refusal) (r : Response) : Bool := nextIs o (fun t => t.resp == r)

/-! ### Well-formedness -/

theorem test_wf_cfgwr_wrong_type : Instr.wf (.cfgwr 0 (.f 0x3F800000#32)) = false := by decide
theorem test_wf_cfgwr_read_only : Instr.wf (.cfgwr 16 (.nat 1)) = false := by decide
theorem test_wf_cfgrd_no_register : Instr.wf (.cfgrd 18) = false := by decide
theorem test_wf_fail_code_one : Instr.wf (.fail 1) = false := by decide
theorem test_wf_produce_beyond_buffer : Instr.wf (.produce (some [0#32, 0#32]) 1 2) = false := by decide
theorem test_wf_accepts : Instr.wf (.cfgwr 15 (.f 0#32)) = true ∧ Instr.wf (.cfgrd 17) = true ∧
    Instr.wf (.fail 3) = true ∧ Instr.wf (.produce (some [0#32, 0#32]) 1 1) = true := by decide

/-! ### Decoding, one word for each row (R71, R73, R75, R76) -/

/-- The letters in both cases, as ASCII codes. -/
theorem test_decode_char :
    decodeChar 0b01010010#8 = some .charR ∧ decodeChar 0b01110010#8 = some .charR ∧
    decodeChar 0b01000100#8 = some .charD ∧ decodeChar 0b01100100#8 = some .charD ∧
    decodeChar 0b01000010#8 = some .charB ∧ decodeChar 0b01100010#8 = some .charB ∧
    decodeChar 0b01001111#8 = some .charO ∧ decodeChar 0b01101111#8 = some .charO ∧
    decodeChar 0b01000110#8 = some .charF ∧ decodeChar 0b01100110#8 = some .charF ∧
    decodeChar 0b01000001#8 = some .charA ∧ decodeChar 0b01100001#8 = some .charA := by decide

/-- Blank, digit, the letter z, and a byte that differs from `R` in bit 7 only name no row. -/
theorem test_decode_char_ignored :
    decodeChar 0x20#8 = none ∧ decodeChar 0x31#8 = none ∧ decodeChar 0x7A#8 = none ∧ decodeChar 0xD2#8 = none := by
  decide

theorem test_decode_select :
    decode (.select 0b000001#6) = .instrs [.selR] ∧ decode (.select 0b000010#6) = .instrs [.selD] ∧
    decode (.select 0b000100#6) = .instrs [.selB] ∧ decode (.select 0b001000#6) = .instrs [.selO] ∧
    decode (.select 0b010000#6) = .instrs [.selF] ∧ decode (.select 0b100000#6) = .instrs [.selA] ∧
    decode (.select 0b000000#6) = .instrs [] := by decide

theorem test_decode_kind :
    decode (.kind 0b000#3 9) = .instrs [.reverb 9] ∧ decode (.kind 0b001#3 9) = .instrs [.distortion 9] ∧
    decode (.kind 0b010#3 9) = .instrs [.bassboost 9] ∧ decode (.kind 0b011#3 9) = .instrs [.overdrive 9] ∧
    decode (.kind 0b100#3 9) = .instrs [.distance 9] ∧ decode (.kind 0b111#3 9) = .rejected (.reservedKind 7) := by
  decide

theorem test_decode_cmd :
    decode (.cmd 0b000#3 .none) = .instrs [.reset] ∧
    decode (.cmd 0b001#3 (.cfgwr 0 (.nat 44100))) = .instrs [.cfgwr 0 (.nat 44100)] ∧
    decode (.cmd 0b010#3 .none) = .instrs [.build] ∧
    decode (.cmd 0b011#3 (.produce none 2 5)) = .instrs [.produce none 2 5] ∧
    decode (.cmd 0b100#3 .none) = .instrs [.format] ∧ decode (.cmd 0b101#3 (.fail 3)) = .instrs [.fail 3] ∧
    decode (.cmd 0b110#3 (.cfgrd 17)) = .instrs [.cfgrd 17] ∧
    decode (.cmd 0b111#3 .none) = .rejected .reservedCommand ∧
    decode (.cmd 0b001#3 (.cfgrd 0)) = .rejected (.malformedCommand 1) := by decide

/-- No byte matches two `CHAR8` rows, no code two `KIND3` rows (R84). -/
theorem test_rows_disjoint :
    (∀ n, n < 256 → (charRows.filter (fun r => r.hits (BitVec.ofNat 8 n))).length ≤ 1) ∧
    (∀ n, n < 8 → ((kindRows 0).filter (fun r => r.hits (BitVec.ofNat 3 n))).length ≤ 1) := by decide +kernel

/-- A bare table word placed at reset is the next step (log 13). -/
theorem test_table_word_runs :
    decodeTableWord 8 0x46 = some .charF ∧ decodeTableWord 8 0x10 = some .selF ∧ decodeTableWord 8 6 = some (.cfgrd 0) ∧
    answers (step (State.reset.withFetchWord 8 0x46)) (.selection 0b010000#6) = true ∧
    answers (step (State.reset.withFetchWord 8 6)) (.value .noValue) = true := by decide +kernel

/-! ### Selection (V-CH-1, V-CH-2) -/

/-- V-CH-1: `"Df d"`. -/
theorem test_select_string :
    answers (step { base with queue := [.text [0x44#8, 0x66#8, 0x20#8, 0x64#8]] }) (.selection 0b010010#6) = true := by
  decide

/-- V-CH-1: `"ar"` and `"zzz"`. -/
theorem test_select_all_and_none :
    answers (step { base with queue := [.text [0x61#8, 0x72#8]] }) (.selection 0b100001#6) = true ∧
    answers (step { base with queue := [.text [0x7A#8, 0x7A#8, 0x7A#8]] }) (.selection 0b000000#6) = true := by decide

/-- V-CH-2: `0b001100` and `0b100001`. -/
theorem test_select_word :
    answers (step { base with queue := [.select 0b001100#6] }) (.effective 0b01100#5) = true ∧
    answers (step { base with queue := [.select 0b100001#6] }) (.effective 0b11111#5) = true := by decide

/-! ### Arithmetic -/

/-- R6: the four printed words of the decimal defaults. -/
theorem test_round_defaults :
    rndF (6 / 10) = 0x3F19999A#32 ∧ rndF (3 / 10) = 0x3E99999A#32 ∧ rndF (2 / 10) = 0x3E4CCCCD#32 ∧
    rndF (1 / 10) = 0x3DCCCCCD#32 ∧ rndF (-1 / 5) = 0xBE4CCCCD#32 ∧ rndF 0 = 0x00000000#32 := by decide +kernel

/-- V-DL-14: half the smallest subnormal is a tie and goes to zero; half the smallest normal is subnormal. -/
theorem test_mul_subnormal :
    fmul 0#32 0x00000001#32 0x3F000000#32 = 0x00000000#32 ∧ fmul 0#32 0x00800000#32 0x3F000000#32 = 0x00400000#32 := by
  decide +kernel

/-- V-DL-12: `1e38 + 2 × 1e38` and the overflow that follows. -/
theorem test_add_overflow :
    fadd 0#32 0x7E967699#32 (fmul 0#32 0x7E967699#32 0x40000000#32) = 0x7F61B1E6#32 ∧
    fadd 0#32 0x7E967699#32 (fmul 0#32 0x7F61B1E6#32 0x40000000#32) = 0x7F800000#32 := by decide +kernel

/-! ### Stage steps -/

/-- V-DL-3's third and fourth sample: element 3 is `0.5 + 0.5 × 0.5`. -/
theorem test_reverb_echo :
    nextIs (exec (.reverb 0) { running 30 (cfgOf 30 0b000001#6) [0x3F000000#32] [] [] with
        hw := { (running 30 (cfgOf 30 0b000001#6) [] [] []).hw with
          rv := some { len := 3, mem := [(0, 0x3F000000#32), (1, 0xBE800000#32), (2, 0x3F800000#32)], idx := 0,
                       mix := 0x3F000000#32, fb := 0x3F800000#32 } } })
      (fun t => t.buf == [0x3F400000#32] && t.resp == .sample 0x3F400000#32 &&
        t.hw.rv.map (fun d => (d.idx, d.mem)) ==
          some (1, [(0, 0x3F400000#32), (1, 0xBE800000#32), (2, 0x3F800000#32)])) = true := by decide +kernel

/-- V-DL-8: `-0` through a fresh reverb is `+0`. -/
theorem test_reverb_signed_zero :
    answers (exec (.reverb 0) (running 20 (cfgOf 20 0b000001#6) [0x80000000#32] [] [])) (.sample 0x00000000#32) = true := by
  decide +kernel

/-- V-DL-5: the whole input, and the end state. -/
theorem test_distance_block :
    nextIs (exec (.produce none 0 7) (running 6 (cfgOf 6 0b010000#6) (List.replicate 7 0#32)
        [0x3F000000#32, 0xBE800000#32, 0x3F800000#32, 0x3F000000#32, 0x3F000000#32, 0x3F000000#32, 0#32] [7]))
      (fun t => t.buf == [0x3F000000#32, 0xBE800000#32, 0x3F800000#32, 0x3F200000#32, 0x3EE00000#32, 0x3F400000#32,
          0x3E200000#32] &&
        t.hw.ds.map (fun d => (d.idx, d.mem)) ==
          some (1, [(0, 0x3DA00000#32), (1, 0x3E600000#32), (2, 0x3EC00000#32)])) = true := by decide +kernel

/-- A stage that is not in the chain is refused, the buffer unchanged (log 9). -/
theorem test_distance_not_in_chain :
    nextIs (exec (.distance 0) (running 20 (cfgOf 20 0b000001#6) [0x80000000#32] [] []))
      (fun t => t.resp == .refused .stageNotInChain && t.buf == [0x80000000#32]) = true := by decide +kernel

/-- V-WS-2, V-WS-3: the knee, one unit above it, and a large sample. -/
theorem test_distortion_knee :
    answers (exec (.distortion 0) (running 8 (cfgOf 8 0b000010#6) [0x3E4CCCCD#32] [] [])) (.sample 0x3F19999A#32) = true ∧
    answers (exec (.distortion 0) (running 8 (cfgOf 8 0b000010#6) [0x3E4CCCCE#32] [] [])) (.sample 0x3F19999A#32) = true ∧
    answers (exec (.distortion 0) (running 8 (cfgOf 8 0b000010#6) [0x7149F2CA#32] [] [])) (.sample 0x3F19999A#32) = true := by
  decide +kernel

/-- V-WS-5, V-WS-4: `-0` and `-Inf`. -/
theorem test_distortion_special :
    answers (exec (.distortion 0) (running 8 (cfgOf 8 0b000010#6) [0x80000000#32] [] [])) (.sample 0x80000000#32) = true ∧
    answers (exec (.distortion 0) (running 8 (cfgOf 8 0b000010#6) [0xFF800000#32] [] [])) (.sample 0xBF19999A#32) = true := by
  decide +kernel

/-- V-WS-12: at the knee the linear branch, just above it the saturating one. -/
theorem test_overdrive_knee :
    answers (exec (.overdrive 0) (running 8 (cfgOf 8 0b001000#6) [0x3DCCCCCE#32] [] [])) (.sample 0x3E99999A#32) = true ∧
    answers (exec (.overdrive 0) (running 8 (cfgOf 8 0b001000#6) [0x3DCCCCD0#32] [] [])) (.sample 0x3E84B37C#32) = true := by
  decide +kernel

/-- V-WS-8, V-WS-10: `-1.0`, `0.5` and `5.8f`. -/
theorem test_overdrive_saturates :
    answers (exec (.overdrive 0) (running 8 (cfgOf 8 0b001000#6) [0xBF800000#32] [] [])) (.sample 0xBF734128#32) = true ∧
    answers (exec (.overdrive 0) (running 8 (cfgOf 8 0b001000#6) [0x3F000000#32] [] [])) (.sample 0x3F46E0F1#32) = true ∧
    answers (exec (.overdrive 0) (running 8 (cfgOf 8 0b001000#6) [0x40B9999A#32] [] [])) (.sample 0x3F800000#32) = true := by
  decide +kernel

/-- V-BQ-11: the first sample `1.0` leaves as `b0`, and the history moves. -/
theorem test_bassboost_first :
    nextIs (exec (.bassboost 0) (running 1000 (cfgOf 1000 0b000100#6) [0x3F800000#32] [] []))
      (fun t => t.resp == .sample 0x3FA83EC1#32 &&
        t.hw.bb.map (fun b => (b.x1, b.x2, b.y1, b.y2)) == some (0x3F800000#32, 0#32, 0x3FA83EC1#32, 0#32)) = true := by
  decide +kernel

/-- A cutoff and a Q of 10^-160, where `alpha` is about pi/1000 (R137): `a2` is 0.9947 (R139). -/
theorem test_coefficients_tiny_cutoff :
    (refCoef 1000 (mkRat 1 (10 ^ 160)) (mkRat 1 (10 ^ 160)) 6).a2 = 0x3F7EA673#32 := by decide +kernel

/-- At 800 Hz and 0 dB `cw = 0` and `a2 = (1 - alpha)/(1 + alpha)`, here `1/2 + 2^-25 + 2^-240`, just above a tie (R139). -/
theorem test_coefficients_near_tie :
    let a : Rat := 1 / 2 + mkRat 1 (2 ^ 25) + mkRat 1 (2 ^ 240)
    let r := rawCoefs 800 800 200 ((1 + a) / (2 * (1 - a))) 0
    roundQuotient 800 5000 r.a2r r.a0r = some 0x3F000001#32 := by decide +kernel

/-- The worked example of R142, seven samples through coefficients that are exact in few bits. -/
theorem test_biquad_worked_example :
    biquadRun (fun _ => 0#32)
      (Biquad.fresh { b0 := 0x3F000000#32, b1 := 0x3E800000#32, b2 := 0x3E000000#32, a1 := 0xBF000000#32,
                      a2 := 0x3E800000#32 })
      [0x3F800000#32, 0#32, 0#32, 0#32, 0#32, 0x40000000#32, 0xBF800000#32] =
    ([0x3F000000#32, 0x3F000000#32, 0x3E800000#32, 0#32, 0xBD800000#32, 0x3F780000#32, 0x3F000000#32],
      { b0 := 0x3F000000#32, b1 := 0x3E800000#32, b2 := 0x3E000000#32, a1 := 0xBF000000#32, a2 := 0x3E800000#32,
        x1 := 0xBF800000#32, x2 := 0x40000000#32, y1 := 0x3F000000#32, y2 := 0x3F780000#32 }) := by decide +kernel

/-- P4: bass boost before overdrive over three samples. -/
theorem test_bassboost_overdrive_block :
    nextIs (exec (.produce none 0 3) (running 1000 (cfgOf 1000 0b001100#6) (List.replicate 3 0#32)
        (List.replicate 3 0x3D800000#32) [3]))
      (fun t => t.buf == [0x3E7C5E22#32, 0x3E989C3A#32, 0x3EAC58B6#32] &&
        t.hw.bb.map (fun b => (b.x1, b.x2, b.y1, b.y2)) ==
          some (0x3D800000#32, 0x3D800000#32, 0x3E0C1530#32, 0x3DF19B83#32)) = true := by decide +kernel

/-! ### Host commands -/

/-- P6: `RESET` after a fault. -/
theorem test_reset_from_fault :
    nextIs (exec .reset { base with hw := { Hw.reset with phase := .fault, fault := .sourceUnreadable, eff := 1#5 } })
      (fun t => t.hw == Hw.reset) = true := by decide +kernel

/-- R73: a selection word is cut to six bits. -/
theorem test_cfgwr_sel :
    nextIs (exec (.cfgwr 2 (.word 0x141)) base) (fun t => t.hw.cfg.sel == 0b000001#6 && t.hw.cfg.fs == none) = true := by
  decide +kernel

/-- V-CH-4: `CFGWR` in `RUN`, and registers 17 and 18. -/
theorem test_cfgwr_refused :
    answers (exec (.cfgwr 0 (.nat 8)) (running 8 (cfgOf 8 0#6) [] [] [])) (.refused .wrongPhase) = true ∧
    answers (exec (.cfgwr 17 (.nat 8)) base) (.refused .readOnlyRegister) = true ∧
    answers (exec (.cfgwr 18 (.nat 8)) base) (.refused .noSuchRegister) = true := by decide +kernel

/-- V-BQ-2, V-CH-3: all five stages at 1000 Hz. -/
theorem test_build_all :
    nextIs (exec .build (idleWith (cfgOf 1000 0b100000#6)))
      (fun t => t.hw.phase == .run && t.hw.eff == 0b11111#5 && t.hw.fmt == some { fs := 1000, nch := 1 } &&
        t.hw.rv.map (fun d => (d.len, d.idx, d.mem)) == some (100, 0, []) && t.hw.ds.map (fun d => d.len) == some 500 &&
        t.hw.bb.map (fun b => (b.b0, b.b1, b.b2, b.a1, b.a2)) ==
          some (0x3FA83EC1#32, 0xBE8338E1#32, 0x3EE387E9#32, 0xBF218B3E#32, 0x3EC4A553#32)) = true := by
  decide +kernel

/-- V-CH-3: `FS = 400` with bass boost, and no rate at all. -/
theorem test_build_faults :
    nextIs (exec .build (idleWith (cfgOf 400 0b000100#6)))
      (fun t => t.hw.phase == .fault && t.hw.fault == .invalidEffectParameter && t.hw.bb == none) = true ∧
    nextIs (exec .build (idleWith { Cfg.reset with sel := 1#6 })) (fun t => t.hw.phase == .fault) = true := by
  decide +kernel

/-- V-DL-1: the tie at 11025 Hz. -/
theorem test_delay_length_tie :
    delayLen pinned (1 / 10) 11025 = 1103 ∧ delayLen { pinned with tie := some .even } (1 / 10) 11025 = 1102 ∧
    delayLen { pinned with tie := some .even } (1 / 2) 1 = 1 := by decide +kernel

/-- P1's second call: at offset 2, the last three samples. -/
theorem test_produce_offset :
    nextIs (exec (.produce none 2 5) { running 20 (cfgOf 20 0b000001#6)
        [0x3F800000#32, 0x3F000000#32, 0x3F000000#32, 0x3E800000#32, 0xBF400000#32, 0#32, 0#32, 0#32]
        [0#32, 0#32, 0#32] [3] with
        hw := { (running 20 (cfgOf 20 0b000001#6) [] [] []).hw with
          rv := some { len := 2, mem := [(0, 0xBF400000#32), (1, 0x3E800000#32)], idx := 1,
                       mix := 0x3F000000#32, fb := 0x3F800000#32 } } })
      (fun t => t.resp == .count 3 &&
        t.buf == [0x3F800000#32, 0x3F000000#32, 0x3E000000#32, 0xBEC00000#32, 0x3D800000#32, 0#32, 0#32, 0#32] &&
        t.hw.rv.map (fun d => (d.idx, d.mem)) == some (0, [(0, 0xBEC00000#32), (1, 0x3D800000#32)])) = true := by
  decide +kernel

/-- P2's first call: the source hands over three of ten. -/
theorem test_produce_short_read :
    nextIs (exec (.produce (some (List.replicate 10 0#32)) 0 10) (running 8 (cfgOf 8 0b010010#6) []
        [0x3E000000#32, 0x3F000000#32, 0xBF000000#32, 0#32, 0#32] [3, 1]))
      (fun t => t.resp == .count 3 && t.src.stream == [0#32, 0#32] && t.src.counts == [1] &&
        filled 0 3 t == [0x3EC00000#32, 0x3F19999A#32, 0xBF19999A#32]) = true := by decide +kernel

/-- P0: the format, in `RUN` and in `IDLE`. -/
theorem test_format :
    answers (exec .format (running 44100 (cfgOf 44100 0#6) [] [] [])) (.format 44100 1) = true ∧
    answers (exec .format base) (.refused .wrongPhase) = true := by decide +kernel

/-- P5, P6: the first code is kept. -/
theorem test_fail :
    nextIs (exec (.fail 2) base) (fun t => t.hw.phase == .fault && t.hw.fault == .sourceUnreadable) = true ∧
    nextIs (exec (.fail 3) { base with hw := { Hw.reset with phase := .fault, fault := .invalidEffectParameter } })
      (fun t => t.hw.fault == .invalidEffectParameter) = true ∧
    answers (exec (.fail 1) base) (.refused .badFailCode) = true := by decide +kernel

/-- V-CH-4: `CFGRD` of an unwritten rate and of 18. -/
theorem test_cfgrd :
    answers (exec (.cfgrd 0) base) (.value .noValue) = true ∧ answers (exec (.cfgrd 17) base) (.value (.fault 0)) = true ∧
    answers (exec (.cfgrd 7) base) (.value (.value (.f 0x3F19999A#32))) = true ∧
    answers (exec (.cfgrd 18) base) (.refused .noSuchRegister) = true := by decide +kernel

/-! ### Witnesses: states and operands that meet an obligation's hypotheses -/

/-- A selection word and a kind and a command request that decode to one instruction. -/
theorem witness_EncodedInstructionsDecode :
    Instr.wf (.cfgwr 15 (.f 0#32)) = true ∧ decode (.kind 0b100#3 7) = .instrs [.distance 7] ∧
    decode (.cmd 0b110#3 (.cfgrd 17)) = .instrs [.cfgrd 17] := by decide

theorem witness_StepRunsDecodedInstruction :
    ({ base with queue := [.text [0x72#8], .cmd 2#3 .none] } : State).queue = .text [0x72#8] :: [.cmd 2#3 .none] ∧
    decode (.text [0x72#8]) = .instrs [.charR] := by decide

theorem witness_StepWithoutInstruction :
    State.reset.queue = [] ∧ ({ base with queue := [.cmd 0b111#3 .none] } : State).queue = .cmd 0b111#3 .none :: [] := by
  decide

theorem witness_SelectionStringDecoded :
    ({ base with queue := [.text [0x61#8, 0x7A#8]] } : State).queue = .text [0x61#8, 0x7A#8] :: [] := by decide

/-- `"bo"` and `"obb"` have the same characters. -/
theorem witness_SelectionIgnoresOrderAndRepeats :
    ∀ c : Byte, c ∈ [0x62#8, 0x6F#8] ↔ c ∈ [0x6F#8, 0x62#8, 0x62#8] := by
  intro c; simp only [List.mem_cons, List.not_mem_nil, or_false]; tauto

theorem witness_SelectionWordExpanded :
    ({ base with queue := [.select 0b100001#6] } : State).queue = .select 0b100001#6 :: [] := by decide

theorem witness_SelectorRowsSetTheirBits :
    (Instr.charA, 0b100000#6) ∈ [(Instr.charR, 0b000001#6), (Instr.charA, 0b100000#6)] ∧
    (Instr.selA, 0b11111#5) ∈ [(Instr.selR, 0b00001#5), (Instr.selA, 0b11111#5)] := by decide

/-- A tie between two finite values, `2^24 + 1` units, and the first magnitude that rounds to infinity. -/
theorem witness_RoundsToNearestEven :
    0 < 1 ∧ magBits (2 ^ 24 + 1) 1 < infBits ∧ isFinite 0x01000001#32 = true ∧
    |(mag (rndUnits false (2 ^ 24 + 1) 1) : Int) * 1 - (2 ^ 24 + 1)| = |(mag 0x01000001#32 : Int) * 1 - (2 ^ 24 + 1)| ∧
    mag 0x01000001#32 ≠ mag (rndUnits false (2 ^ 24 + 1) 1) ∧
    magBits ((2 ^ 25 - 1) * 2 ^ 252) 1 = infBits ∧ magBits ((2 ^ 25 - 1) * 2 ^ 252 - 1) 1 < infBits := by
  decide +kernel

/-- Sums and products that are exact, that are zero, and that round. -/
theorem witness_ArithmeticRoundsExactResult :
    isFinite 0x7F7FFFFF#32 = true ∧ isFinite 0x00000001#32 = true ∧ sval 0x7F7FFFFF#32 + sval 0x00000001#32 ≠ 0 ∧
    sval 0x00000000#32 + sval 0x80000000#32 = 0 ∧ sval 0x00000000#32 = sval 0x80000000#32 ∧
    sval 0x80000000#32 = 0 ∧ isInf 0xFF800000#32 = true ∧ isZero 0x00000001#32 = false := by decide +kernel

theorem witness_ArithmeticOnSpecialValues :
    isFinite 0x7F7FFFFF#32 = true ∧ isInf 0xFF800000#32 = true ∧ isZero 0x80000000#32 = true ∧
    isNaN 0x7F800001#32 = true := by decide +kernel

theorem witness_ComparisonsFollowRealOrder :
    isFinite 0x80000000#32 = true ∧ isFinite 0x00000000#32 = true ∧ isNaN 0xFFFFFFFF#32 = true ∧
    isInf 0x7F800000#32 = true := by decide +kernel

theorem witness_ExponentialProperties :
    isNaN 0x7FC00000#32 = true ∧ isNaN 0x80000000#32 = false ∧ isZero 0x80000000#32 = true ∧
    fgt 0xBF800000#32 0x00000000#32 = false ∧ flt 0xBF800000#32 0x80000000#32 = true := by decide +kernel

/-- A chain of all five stages at 1000 Hz, a two-element buffer, four samples of which the source gives one first. -/
def full : State :=
  running 1000 (cfgOf 1000 0b100000#6) [0x3F800000#32, 0x80000000#32]
    [0x3D800000#32, 0x3E800000#32, 0xBF000000#32, 0#32] [1]

/-- Each stage of `full` is ready on the first and on the last element. -/
theorem witness_StageReady (k : Kind) : StageReady k 0 full ∧ StageReady k 1 full := by
  cases k <;> exact ⟨⟨rfl, by decide, by decide⟩, rfl, by decide, by decide⟩

/-- `full` accepts a `PRODUCE` of its whole buffer, of nothing at the buffer's end, and into another buffer. -/
theorem witness_ProduceReady :
    ProduceReady none 0 2 full ∧ ProduceReady none 2 0 full ∧ ProduceReady (some [0#32]) 0 1 full :=
  ⟨⟨rfl, by decide, fun k _ => by cases k <;> rfl⟩, ⟨rfl, by decide, fun k _ => by cases k <;> rfl⟩,
    ⟨rfl, by decide, fun k _ => by cases k <;> rfl⟩⟩

theorem witness_DelayLineStepsComplete :
    full.hw.rv = some (DelayLine.fresh 100 0x3F000000#32 0x3F800000#32) ∧
    full.hw.ds = some (DelayLine.fresh 500 0x3F000000#32 0x3F000000#32) := by decide +kernel

theorem witness_DelayMemoryReadAfterWrite :
    Memory.wf 3 [(0, 0x3F800000#32), (2, 0x3F000000#32)] = true ∧ 2 < 3 ∧ Memory.wf 1 [] = true := by decide +kernel

theorem witness_DelayBufferHoldsLastOutputs : 1 ≤ 1 ∧ 1 ≤ 3 ∧ (2 : Nat) < 3 := by decide

theorem witness_CombFilterClosedForm :
    1 ≤ 2 ∧ isFinite 0x3F000000#32 = true ∧ (∀ j : Nat, isNaN ((fun _ => 0x7FC00000#32) j) = true) ∧
    1 < [0x3F800000#32, 0#32, 0#32].length ∧ 2 < [0x3F800000#32, 0#32, 0#32].length :=
  ⟨by decide, by decide +kernel, fun _ => (by decide +kernel : isNaN 0x7FC00000#32 = true), by decide, by decide⟩

/-- A chain of reverb alone, and one of distance alone, fed silence; and one of bass boost alone. -/
def one (sel : BitVec 6) : State := running 1000 (cfgOf 1000 sel) [0#32, 0#32] [0#32, 0#32, 0#32] [2]

theorem witness_SingleStageChainsRunTheirStage :
    (ProduceReady none 0 2 (one 0b000001#6) ∧ (one 0b000001#6).hw.eff = 0b00001#5 ∧ (one 0b000001#6).hw.rv.isSome = true) ∧
    (ProduceReady none 0 2 (one 0b010000#6) ∧ (one 0b010000#6).hw.eff = 0b10000#5 ∧ (one 0b010000#6).hw.ds.isSome = true) ∧
    (ProduceReady none 0 2 (one 0b000100#6) ∧ (one 0b000100#6).hw.eff = 0b00100#5 ∧ (one 0b000100#6).hw.bb.isSome = true) :=
  ⟨⟨⟨rfl, by decide, fun k h => by cases k <;> first | rfl | exact absurd h (by decide)⟩, by decide, rfl⟩,
    ⟨⟨rfl, by decide, fun k h => by cases k <;> first | rfl | exact absurd h (by decide)⟩, by decide, rfl⟩,
    ⟨⟨rfl, by decide, fun k h => by cases k <;> first | rfl | exact absurd h (by decide)⟩, by decide, rfl⟩⟩

theorem witness_SilenceStaysSilence :
    (one 0b000001#6).hw.rv = some (DelayLine.fresh 100 0x3F000000#32 0x3F800000#32) ∧
    (one 0b010000#6).hw.ds = some (DelayLine.fresh 500 0x3F000000#32 0x3F000000#32) ∧
    (DelayLine.fresh 100 0x3F000000#32 0x3F800000#32).mem = [] ∧ 0 < 100 ∧
    isFinite 0x3F000000#32 = true ∧ signBit 0x3F000000#32 = false ∧ isFinite 0x3F800000#32 = true ∧
    signBit 0x3F800000#32 = false ∧ ((one 0b000001#6).src.stream.all (fun x => x == 0#32)) = true := by decide +kernel

/-- The second element of `full` is `-0`, and its delay lines read `+0`; with the sign of the mix either way. -/
theorem witness_NegativeZeroThroughDelayLine :
    bufRead full.buf 1 = 0x80000000#32 ∧ Memory.get [] 0 = 0x00000000#32 ∧ isFinite 0x3F000000#32 = true ∧
    signBit 0x3F000000#32 = false ∧ isFinite 0xBF000000#32 = true ∧ signBit 0xBF000000#32 = true := by decide +kernel

theorem witness_DistortionClips :
    full.hw.dt = some { g := 0x40400000#32, t := 0x3F19999A#32 } ∧ isNaN 0x3F19999A#32 = false ∧
    flt 0x3F19999A#32 0x00000000#32 = false ∧ isNaN (fmul 0#32 0x40400000#32 (bufRead full.buf 0)) = false := by
  decide +kernel

/-- Both branches of the knee: `1.0` saturates, `-0` does not. -/
theorem witness_OverdriveIsBounded :
    full.hw.od = some { g := 0x40400000#32, t := 0x3E99999A#32 } ∧ isNaN 0x3E99999A#32 = false ∧
    fgt (fabs (fmul 0#32 0x40400000#32 (bufRead full.buf 0))) 0x3E99999A#32 = true ∧
    fgt (fabs (fmul 0#32 0x40400000#32 (bufRead full.buf 1))) 0x3E99999A#32 = false ∧
    isNaN (fmul 0#32 0x40400000#32 (bufRead full.buf 0)) = false := by decide +kernel

/-- A buffer of `-Inf` and NaN under `full`'s chain. -/
theorem witness_InfiniteAndNaNSamples :
    StageReady .distortion 0 { full with buf := [0xFF800000#32, 0x7FC00000#32] } ∧
    StageReady .overdrive 1 { full with buf := [0xFF800000#32, 0x7FC00000#32] } ∧
    isInf (bufRead [0xFF800000#32, 0x7FC00000#32] 0) = true ∧ isNaN (bufRead [0xFF800000#32, 0x7FC00000#32] 1) = true ∧
    isNaN 0x40400000#32 = false ∧ isZero 0x40400000#32 = false ∧ isFinite 0x3F19999A#32 = true :=
  ⟨⟨rfl, by decide, by decide⟩, ⟨rfl, by decide, by decide⟩, by decide +kernel, by decide +kernel, by decide +kernel,
    by decide +kernel, by decide +kernel⟩

theorem witness_WaveshapersAreOdd :
    isFinite 0x40400000#32 = true ∧ flt 0x00000000#32 0x40400000#32 = true ∧ isNaN 0x80000000#32 = false ∧
    flt 0x80000000#32 0x00000000#32 = false ∧ isNaN 0x3F800000#32 = false := by decide +kernel

/-- `full` with the threshold of V-WS-13, on either side of it. -/
theorem witness_NegativeThresholdClips :
    StageReady .distortion 0 { full with hw := { full.hw with dt := some { g := 0x40400000#32, t := 0xBF19999A#32 } } } ∧
    flt 0xBF19999A#32 0x00000000#32 = true ∧ isNaN (fmul 0#32 0x40400000#32 0x3F800000#32) = false ∧
    flt (fmul 0#32 0x40400000#32 0x3F800000#32) (fneg 0xBF19999A#32) = false ∧
    flt (fmul 0#32 0x40400000#32 0x80000000#32) (fneg 0xBF19999A#32) = true :=
  ⟨⟨rfl, by decide, by decide⟩, by decide +kernel, by decide +kernel, by decide +kernel, by decide +kernel⟩

theorem witness_BassboostCompletes : full.hw.bb.isSome = true := rfl

theorem witness_BiquadSilence :
    isFinite 0x3FA83EC1#32 = true ∧ signBit 0x3FA83EC1#32 = false ∧ isFinite 0xBE8338E1#32 = true ∧
    isFinite 0x3EE387E9#32 = true ∧ isFinite 0xBF218B3E#32 = true ∧ isFinite 0x3EC4A553#32 = true := by decide +kernel

theorem witness_BiquadNaNForEver : (∀ j : Nat, isNaN ((fun _ => 0x7FC00000#32) j) = true) ∧ isNaN 0xFFC00001#32 = true :=
  ⟨fun _ => (by decide +kernel : isNaN 0x7FC00000#32 = true), by decide +kernel⟩

theorem witness_CfgwrWritesOneRegister :
    base.hw.phase = .idle ∧ CfgVal.fits 0 (.nat 0) = true ∧ CfgVal.fits 2 (.word 0x141) = true ∧
    CfgVal.fits 15 (.f 0#32) = true ∧ full.hw.phase ≠ .idle ∧ (16 : Nat) ≤ 16 ∧ (16 : Nat) ≤ 18 := by decide +kernel

theorem witness_CfgrdReturnsRegister :
    (17, ReadVal.fault 0) ∈ [(16, ReadVal.phase base.hw.phase), (17, .fault 0)] ∧ (18 : Nat) ≤ 18 := by decide +kernel

/-- V-BQ-12: the search at 1000 Hz and 0 dB ends at its first precision. -/
theorem witness_ZeroGainCoefficientsAgree :
    150 ≤ sepBits boundaryBits 1000 200 1 0 ∧
    (coefSearch (sepBits boundaryBits 1000 200 1 0) 1000 200 1 0 1 (coefPrecision 0)).isSome = true := by decide +kernel

/-- The quotient 1 between bounds, told by its bounds; and the tie `1 + 2^-24` with exact bounds, which goes to 1. -/
theorem witness_CoefficientsRoundedOnce :
    roundQuotient 60 60 ⟨unit 60 - 1, unit 60 + 1⟩ (Enc.exact (unit 60)) = some 0x3F800000#32 ∧
    roundQuotient 60 55 ⟨unit 60 + unit 36 - 1, unit 60 + unit 36 + 1⟩ (Enc.exact (unit 60)) = some 0x3F800000#32 := by
  decide +kernel

/-- Bounds that hold `a0` of the defaults at 1000 Hz above 0, in order, a precision that is tried, and room between the
bounds of `b0`. -/
theorem witness_CoefficientsWithinTolerance :
    0 < (rawCoefs 400 1000 200 1 6).a0r.lo ∧ (rawCoefs 400 1000 200 1 6).a0r.lo ≤ (rawCoefs 400 1000 200 1 6).a0r.hi ∧
    0 < doublings 1 ∧
    (Enc.div 400 (rawCoefs 400 1000 200 1 6).b0r (rawCoefs 400 1000 200 1 6).a0r).lo ≤
      (Enc.div 400 (rawCoefs 400 1000 200 1 6).b0r (rawCoefs 400 1000 200 1 6).a0r).hi := by decide +kernel

/-- An instruction other than `RESET` in `RUN` and in `FAULT`. -/
theorem witness_ResetLeavesDefaults :
    nextIs (exec (.fail 2) full) (fun t => t.hw.phase == .fault) = true ∧ full.hw.phase = .run ∧ Instr.fail 2 ≠ .reset ∧
    nextIs (exec (.cfgrd 17) { base with hw := { Hw.reset with phase := .fault, fault := .sourceUnreadable } })
      (fun t => t.hw.phase == .fault) = true := by decide +kernel

/-- `FAIL` with each accepted code and with one that is not; a faulted machine; a build that is not accepted. -/
theorem witness_FailRecordsFirstCode :
    (2 = 2 ∨ 2 = 3) ∧ (3 = 2 ∨ 3 = 3) ∧ ((4 : Nat) ≠ 2 ∧ (4 : Nat) ≠ 3) ∧ base.hw.phase = .idle ∧
    ¬ BuildAccepts base.impl base.hw.cfg ∧
    ({ base with hw := { Hw.reset with phase := .fault, fault := .sourceUnreadable } } : State).hw.phase = .fault := by
  refine ⟨by decide, by decide, by decide, rfl, ?_, rfl⟩
  rintro ⟨fs, nch, h, -⟩
  simp [base, State.reset, Hw.reset, Cfg.reset] at h

/-- `BUILD` accepts the defaults at 1000 Hz with every stage; at 400 Hz not, nor with no rate. -/
theorem witness_BuildMakesChainOrFaults :
    full.hw.phase ≠ .idle ∧ (idleWith (cfgOf 1000 0b100000#6)).hw.phase = .idle ∧
    BuildAccepts pinned (cfgOf 1000 0b100000#6) ∧ ¬ BuildAccepts pinned (cfgOf 400 0b000100#6) ∧
    ¬ BuildAccepts pinned Cfg.reset := by
  refine ⟨by decide +kernel, by decide +kernel, ⟨1000, 1, rfl, rfl, by decide, by decide, fun _ => ?_, fun _ => ?_,
    fun _ => ?_, fun _ => ?_, fun _ => ?_⟩, ?_, ?_⟩
  · exact ⟨by decide +kernel, by decide +kernel, by decide +kernel, by decide +kernel⟩
  · exact ⟨by decide +kernel, by decide +kernel⟩
  · exact ⟨by decide +kernel, by decide +kernel, by decide +kernel⟩
  · exact ⟨by decide +kernel, by decide +kernel⟩
  · exact ⟨by decide +kernel, by decide +kernel, by decide +kernel, by decide +kernel⟩
  · rintro ⟨fs, nch, h1, -, -, -, -, -, h, -⟩
    obtain rfl : 400 = fs := by simpa [cfgOf] using h1
    exact absurd (h (by decide)).2.1 (by decide +kernel)
  · rintro ⟨fs, nch, h1, -⟩
    simp [Cfg.reset] at h1

/-- A product below one half, the exact halves 0.5 and 1102.5 (V-DL-1), and one of each rule for ties. -/
theorem witness_DelayLengthIsNearest :
    (0 : Rat) < 1 / 10 ∧ 1 ≤ 1 ∧ (1 / 10 : Rat) * (1 : Nat) < 1 / 2 ∧ (1 / 2 : Rat) * (1 : Nat) = (0 : Nat) + 1 / 2 ∧
    (1 / 10 : Rat) * (11025 : Nat) = (1102 : Nat) + 1 / 2 ∧ (1 / 2 : Rat) ≤ (1 / 10 : Rat) * (11025 : Nat) ∧
    tieOf pinned = .away ∧ tieOf { pinned with tie := some .even } = .even := by
  refine ⟨?_, ?_, ?_, ?_, ?_, ?_, rfl, rfl⟩ <;> norm_num

/-- V-CH-3: reverb selected with `DEPTH_MAX = 4096` at 44100 Hz, and with a delay of 0. -/
theorem witness_DelayLengthIsNearest_build :
    (idleWith (cfgOf 44100 0b000001#6)).hw.phase = .idle ∧
    selects (effOf (cfgOf 44100 0b000001#6).sel) .reverb = true ∧
    depthMaxOf { pinned with depthMax := some 4096 } < delayLen pinned (1 / 10) 44100 ∧ (0 : Rat) ≤ 0 ∧
    selects (effOf (cfgOf 44100 0b010000#6).sel) .distance = true := by decide +kernel

theorem witness_ProduceRunsCanonicalOrder :
    base.hw.phase ≠ .run ∧ full.hw.phase = .run ∧ ((none : Option (List F)).getD full.buf).length < 1 + 2 := by
  decide +kernel

/-- `full`'s source hands over one sample of two. -/
theorem witness_ProduceReturnsSourceCount :
    ProduceReady none 0 2 full ∧ answers (exec (.produce none 0 2) full) (.count 1) = true :=
  ⟨⟨rfl, by decide, fun k _ => by cases k <;> rfl⟩, by decide +kernel⟩

theorem witness_ProduceFrame :
    selects (one 0b000001#6).hw.eff .bassboost = false ∧ selects (one 0b000001#6).hw.eff .distance = false ∧
    selects (one 0b010000#6).hw.eff .reverb = false := by decide +kernel

theorem witness_EmptyChainIsIdentity :
    ProduceReady none 0 2 (one 0b000000#6) ∧ (one 0b000000#6).hw.eff = 0b00000#5 :=
  ⟨⟨rfl, by decide, fun k h => by cases k <;> exact absurd h (by decide)⟩, by decide⟩

/-- `maxCount = 0`, and a stream that has ended. -/
theorem witness_ZeroCountChangesNothing :
    ProduceReady none 2 0 full ∧ ProduceReady none 0 2 { full with src := { stream := [], counts := [], pulls := 0 } } :=
  ⟨⟨rfl, by decide, fun k _ => by cases k <;> rfl⟩, ⟨rfl, by decide, fun k _ => by cases k <;> rfl⟩⟩

/-- The chain `full` runs. -/
theorem full_runs : ChainRuns full := ⟨rfl, rfl, fun k _ => by cases k <;> rfl⟩

/-- Two samples in one call, and in two calls of one with a refused `BUILD`, a `FORMAT` and a `CFGRD` between. -/
theorem witness_BlockSizeIndependence :
    ChainRuns full ∧ WithinRun [.produce (some [0#32, 0#32, 0#32]) 1 2] ∧
    WithinRun [.produce none 0 2, .build, .format, .cfgrd 17, .produce (some [0#32]) 0 1] ∧
    ((runCommands [.produce none 0 2, .build, .format, .cfgrd 17, .produce (some [0#32]) 0 1]
        { full with src := { full.src with counts := [1, 1] } } Run.begin).map (fun p => p.2.output.length)) = some 2 ∧
    ((runCommands [.produce (some [0#32, 0#32, 0#32]) 1 2]
        { full with src := { full.src with counts := [2] } } Run.begin).map (fun p => p.2.output.length)) = some 2 :=
  ⟨full_runs, by unfold WithinRun; decide, by unfold WithinRun; decide, by decide +kernel, by decide +kernel⟩

/-- The end of P1: the last samples, the zero count, and a `CFGRD` and a `FAIL` after it. -/
theorem witness_RunEndsAndOutput :
    ((runCommands [.produce none 0 2, .produce none 0 2, .cfgrd 17, .fail 3, .produce none 0 2]
        { full with src := { stream := [0x3D800000#32], counts := [1], pulls := 0 } } Run.begin).map
      (fun p => (p.2.ended, p.2.output.length))) = some (true, 1) ∧
    isHostCommand (.produce none 0 2) = true ∧ Instr.produce none 0 2 ≠ .reset ∧
    WithinRun [.produce none 0 2, .cfgrd 17, .fail 3] ∧
    ((runCommands [.cfgrd 17] full Run.begin).map (fun p => p.2.ended)) = some false :=
  ⟨by decide +kernel, rfl, by decide, by unfold WithinRun; decide, by decide +kernel⟩

theorem witness_FormatReportsLatchedFormat :
    full.hw.phase = .run ∧ full.hw.fmt = some { fs := 1000, nch := 1 } ∧ base.hw.phase ≠ .run ∧
    (idleWith (cfgOf 1000 0#6)).hw.cfg.fs = some 1000 ∧ (idleWith (cfgOf 1000 0#6)).hw.cfg.nch = some 1 ∧
    nextIs (exec .build (idleWith (cfgOf 1000 0#6))) (fun t => t.hw.phase == .run) = true := by decide +kernel

/-- Each kind of instruction answers a next state, in the phases the table distinguishes. -/
theorem witness_PhaseTable :
    nextIs (exec .reset full) (fun t => t.hw.phase == .idle) = true ∧
    nextIs (exec (.cfgwr 0 (.nat 8)) full) (fun t => t.resp == .refused .wrongPhase) = true ∧
    nextIs (exec .build (idleWith (cfgOf 1000 0#6))) (fun t => t.hw.phase == .run) = true ∧
    nextIs (exec (.fail 3) full) (fun t => t.hw.phase == .fault) = true ∧
    nextIs (exec .format full) (fun t => t.hw.phase == .run) = true := by decide +kernel

/-- A recorded code, and the three ways to record one. -/
theorem witness_FaultCodeIsSticky :
    nextIs (exec (.fail 2) { base with hw := { Hw.reset with phase := .fault, fault := .writeFailure } })
      (fun t => t.hw.fault == .writeFailure) = true ∧
    nextIs (exec .build base) (fun t => t.hw.fault == .invalidEffectParameter) = true ∧
    nextIs (exec (.fail 3) base) (fun t => t.hw.fault == .writeFailure) = true := by decide +kernel

theorem witness_ParametersFrozenWhileRunning :
    full.hw.phase = .run ∧ nextIs (exec (.bassboost 0) full) (fun t => t.hw.bb != full.hw.bb) = true := by decide +kernel

theorem witness_RefusedCommandsChangeNothing :
    full.hw.phase ≠ .idle ∧ (16 : Nat) ≤ 16 ∧ base.hw.phase ≠ .run ∧ full.buf.length < 1 + 2 ∧
    (1 : Nat) ≠ 2 ∧ (1 : Nat) ≠ 3 := by decide +kernel

theorem witness_StagesOwnTheirRecords :
    nextIs (exec (.reverb 0) full) (fun t => t.buf.getD 1 fZero == 0x80000000#32) = true ∧
    nextIs (exec (.distance 1) full) (fun t => t.buf.length == 2) = true := by decide +kernel

/-- The running chain, a faulted machine and the reset state meet the invariant. -/
theorem witness_EveryCommandCompletes :
    full.Inv ∧ (base.Inv ∧ base.hw.phase = .idle) ∧ CfgVal.fits 3 (.real 0) = true ∧
    ({ base with hw := { Hw.reset with phase := .fault, fault := .sourceUnreadable } } : State).Inv := by decide +kernel

/-- A `PRODUCE` on the running chain. -/
theorem witness_InvariantKeptByEveryStep :
    ({ full with queue := [.cmd 3#3 (.produce none 0 2)] } : State).Inv ∧
    nextIs (step { full with queue := [.cmd 3#3 (.produce none 0 2)] }) (fun t => t.resp == .count 1) = true := by
  decide +kernel

end Sys2Proof.Tests
end

section
/-! SUPPORT. A word is its sign bit over 31 magnitude bits, and the magnitude bits of a finite word are in the order of
its value (R79). -/

namespace Sys2Proof.Machine

/-! ### The sign bit and the magnitude bits -/

theorem absBits_lt (a : F) : absBits a < 2 ^ 31 := Nat.mod_lt _ (by decide)

theorem eq_of_signBit_of_absBits {a b : F} (hs : signBit a = signBit b) (hb : absBits a = absBits b) : a = b := by
  have ha := a.isLt
  have hb' := b.isLt
  rw [signBit, signBit, Bool.eq_iff_iff, beq_iff_eq, beq_iff_eq] at hs
  unfold absBits at hb
  exact BitVec.eq_of_toNat_eq (by omega)

theorem toNat_pack (neg : Bool) {bits : Nat} (h : bits < 2 ^ 31) :
    (pack neg bits).toNat = (if neg then 2 ^ 31 else 0) + bits := by
  rw [pack, BitVec.toNat_ofNat, Nat.mod_eq_of_lt]
  split <;> omega

theorem signBit_pack (neg : Bool) {bits : Nat} (h : bits < 2 ^ 31) : signBit (pack neg bits) = neg := by
  rw [signBit, toNat_pack neg h]
  cases neg <;> simp <;> omega

theorem absBits_pack (neg : Bool) {bits : Nat} (h : bits < 2 ^ 31) : absBits (pack neg bits) = bits := by
  rw [absBits, toNat_pack neg h]
  split <;> omega

theorem pack_signBit_absBits (a : F) : pack (signBit a) (absBits a) = a :=
  eq_of_signBit_of_absBits (signBit_pack _ (absBits_lt a)) (absBits_pack _ (absBits_lt a))

@[simp] theorem absBits_fneg (a : F) : absBits (fneg a) = absBits a := by
  rw [absBits, fneg, BitVec.toNat_xor, Nat.xor_mod_two_pow]
  exact Nat.xor_zero _

@[simp] theorem signBit_fneg (a : F) : signBit (fneg a) = !signBit a := by
  have ha : a.toNat / 2 ^ 31 < 2 := by have := a.isLt; omega
  have hx : (fneg a).toNat / 2 ^ 31 = a.toNat / 2 ^ 31 ^^^ 1 := by
    rw [fneg, BitVec.toNat_xor, Nat.xor_div_two_pow]; rfl
  rw [signBit, signBit, hx]
  generalize a.toNat / 2 ^ 31 = s at ha
  interval_cases s <;> rfl

/-! ### Finite, infinite, NaN -/

theorem infBits_lt : infBits < 2 ^ 31 := by decide

theorem isNaN_iff (a : F) : isNaN a = true ↔ infBits < absBits a := decide_eq_true_iff

theorem isInf_iff (a : F) : isInf a = true ↔ absBits a = infBits := beq_iff_eq

theorem isFinite_iff (a : F) : isFinite a = true ↔ absBits a < infBits := decide_eq_true_iff

theorem isZero_iff (a : F) : isZero a = true ↔ absBits a = 0 := beq_iff_eq

theorem isNaN_of_isFinite {a : F} (h : isFinite a = true) : isNaN a = false := by
  rw [isFinite_iff] at h
  simp only [isNaN, decide_eq_false_iff_not]; omega

theorem isNaN_of_isInf {a : F} (h : isInf a = true) : isNaN a = false := by
  rw [isInf_iff] at h
  simp only [isNaN, decide_eq_false_iff_not]; omega

theorem isInf_of_isFinite {a : F} (h : isFinite a = true) : isInf a = false := by
  rw [isFinite_iff] at h
  simp only [isInf, beq_eq_false_iff_ne]; omega

@[simp] theorem isNaN_fneg (a : F) : isNaN (fneg a) = isNaN a := by simp [isNaN]

@[simp] theorem isInf_fneg (a : F) : isInf (fneg a) = isInf a := by simp [isInf]

@[simp] theorem isFinite_fneg (a : F) : isFinite (fneg a) = isFinite a := by simp [isFinite]

theorem isNaN_pack (neg : Bool) {bits : Nat} (h : bits ≤ infBits) : isNaN (pack neg bits) = false := by
  have hb : ¬ infBits < bits := by omega
  simp [isNaN, absBits_pack neg (h.trans_lt infBits_lt), hb]

/-! ### The value of magnitude bits -/

/-- The units of 2^-149 that magnitude bits stand for (R79), for exponents of any size. -/
def unitsOf (b : Nat) : Nat :=
  if b / 2 ^ 23 = 0 then b % 2 ^ 23 else (2 ^ 23 + b % 2 ^ 23) * 2 ^ (b / 2 ^ 23 - 1)

theorem mag_eq_unitsOf (a : F) : mag a = unitsOf (absBits a) := by
  have he : expField a = absBits a / 2 ^ 23 := by unfold expField absBits; omega
  have hf : fracField a = absBits a % 2 ^ 23 := by unfold fracField absBits; omega
  rw [mag, unitsOf, he, hf]

/-- A significand `m` of 24 bits (fewer only in the lowest binade, or just carried into the next one) in the binade of
step `2^e`. -/
theorem unitsOf_add {e m : Nat} (he : e = 0 ∨ 2 ^ 23 ≤ m) (hm : m ≤ 2 ^ 24) :
    unitsOf (e * 2 ^ 23 + m) = m * 2 ^ e := by
  have hcases : (e = 0 ∧ m < 2 ^ 23) ∨ (2 ^ 23 ≤ m ∧ m < 2 ^ 24) ∨ m = 2 ^ 24 := by omega
  rcases hcases with ⟨rfl, h⟩ | ⟨h1, h2⟩ | rfl
  · have hq : (0 * 2 ^ 23 + m) / 2 ^ 23 = 0 := by omega
    rw [unitsOf, if_pos hq]; omega
  · have hq : (e * 2 ^ 23 + m) / 2 ^ 23 = e + 1 := by omega
    have hr : 2 ^ 23 + (e * 2 ^ 23 + m) % 2 ^ 23 = m := by omega
    rw [unitsOf, hq, hr, if_neg e.succ_ne_zero, Nat.add_sub_cancel]
  · have hq : (e * 2 ^ 23 + 2 ^ 24) / 2 ^ 23 = e + 2 := by omega
    have hr : 2 ^ 23 + (e * 2 ^ 23 + 2 ^ 24) % 2 ^ 23 = 2 ^ 23 := by omega
    rw [unitsOf, hq, hr, if_neg (e + 1).succ_ne_zero, Nat.add_succ_sub_one, pow_succ 2 e, pow_succ 2 23]
    ring

/-- Every magnitude has a binade and a significand below `2^24`. -/
theorem exists_binade (b : Nat) : ∃ e m, (e = 0 ∨ 2 ^ 23 ≤ m) ∧ m < 2 ^ 24 ∧ b = e * 2 ^ 23 + m :=
  ⟨b / 2 ^ 23 - 1, b - (b / 2 ^ 23 - 1) * 2 ^ 23, by omega, by omega, by omega⟩

theorem unitsOf_strictMono : StrictMono unitsOf :=
  strictMono_nat_of_lt_succ fun b => by
    obtain ⟨e, m, he, hm, rfl⟩ := exists_binade b
    rw [add_assoc, unitsOf_add he hm.le, unitsOf_add (by omega) hm]
    exact Nat.mul_lt_mul_of_pos_right m.lt_succ_self (Nat.two_pow_pos e)

theorem unitsOf_eq_zero {b : Nat} : unitsOf b = 0 ↔ b = 0 :=
  unitsOf_strictMono.injective.eq_iff (b := 0)

/-- Below the binade of step `2^e` lie only magnitudes too small for it; from it on all are multiples of the step. -/
theorem two_pow_dvd_unitsOf_or_lt (e b : Nat) : 2 ^ e ∣ unitsOf b ∨ unitsOf b < 2 ^ 23 * 2 ^ e := by
  obtain ⟨e', m, he, hm, rfl⟩ := exists_binade b
  rw [unitsOf_add he hm.le]
  rcases Nat.lt_or_ge e' e with h | h
  · right
    calc m * 2 ^ e' < 2 ^ 24 * 2 ^ e' := Nat.mul_lt_mul_of_pos_right hm (Nat.two_pow_pos e')
      _ = 2 ^ 23 * 2 ^ (e' + 1) := by ring
      _ ≤ 2 ^ 23 * 2 ^ e := Nat.mul_le_mul_left _ (Nat.pow_le_pow_right (by decide) h)
  · exact .inl ((pow_dvd_pow 2 h).mul_left m)

/-! ### Signed values -/

theorem sval_eq (a : F) : sval a = if signBit a then -(unitsOf (absBits a) : Int) else (unitsOf (absBits a) : Int) := by
  rw [sval, mag_eq_unitsOf]

theorem natAbs_sval (a : F) : (sval a).natAbs = mag a := by
  unfold sval; split <;> omega

theorem mag_eq_zero {a : F} : mag a = 0 ↔ absBits a = 0 := by
  rw [mag_eq_unitsOf, unitsOf_eq_zero]

theorem sval_eq_zero {a : F} : sval a = 0 ↔ absBits a = 0 := by
  rw [← Int.natAbs_eq_zero, natAbs_sval, mag_eq_zero]

theorem sval_neg_iff {a : F} (h : sval a ≠ 0) : sval a < 0 ↔ signBit a = true := by
  rw [sval] at h ⊢
  cases hs : signBit a <;> simp only [hs, Bool.false_eq_true, ↓reduceIte, iff_true, iff_false] at h ⊢ <;> omega

@[simp] theorem sval_fneg (a : F) : sval (fneg a) = -sval a := by
  rw [sval_eq, sval_eq, signBit_fneg, absBits_fneg]
  cases signBit a <;> simp

end Sys2Proof.Machine
end

section
/-! SUPPORT. Rounding (R8): the rounded value of `n / d` units is a nearest one among all magnitudes, the exponent of
which is not bounded; `magBits` cuts it at the infinity (log 6). -/

namespace Sys2Proof.Machine

/-! ### Rounding to an integer -/

/-- The rounding error is at most half a unit, and half a unit only at an even result. -/
theorem nearestEven_error (n : Nat) {g : Nat} (hg : 0 < g) :
    2 * |(nearestEven n g : Int) * g - n| ≤ g ∧
    (2 * |(nearestEven n g : Int) * g - n| = g → nearestEven n g % 2 = 0) := by
  have hn : (n : Int) = (n / g : Nat) * g + (n % g : Nat) := by
    exact_mod_cast (Nat.div_add_mod' n g).symm
  have hr : n % g < g := Nat.mod_lt n hg
  unfold nearestEven
  generalize n / g = k at *
  generalize n % g = r at *
  have hdown : (k : Int) * g - n = -r := by rw [hn]; ring
  have hup : ((k + 1 : Nat) : Int) * g - n = g - r := by rw [hn]; push_cast; ring
  split
  next h => rw [hdown, abs_neg, Nat.abs_cast]; omega
  next h =>
    split
    next h' => rw [hup, abs_of_pos (by omega)]; omega
    next h' =>
      rcases Nat.mod_two_eq_zero_or_one k with hk | hk <;> rw [hk]
      · rw [Nat.add_zero, hdown, abs_neg, Nat.abs_cast]; omega
      · rw [hup, abs_of_pos (by omega)]; omega

/-- Every integer is at least as far from the quotient as the rounded one, and another one is as far only if that is
even. -/
theorem nearestEven_nearest (n : Nat) {g : Nat} (hg : 0 < g) (k : Int) :
    |(nearestEven n g : Int) * g - n| ≤ |k * g - n| ∧
    (|(nearestEven n g : Int) * g - n| = |k * g - n| → k ≠ nearestEven n g → nearestEven n g % 2 = 0) := by
  obtain ⟨herr, heven⟩ := nearestEven_error n hg
  generalize nearestEven n g = m at *
  rcases eq_or_ne k m with rfl | hk
  · exact ⟨le_rfl, fun _ h => absurd rfl h⟩
  have hone : 1 ≤ |k - m| := Int.one_le_abs (sub_ne_zero.mpr hk)
  have hgap : (g : Int) ≤ |k * g - n| + |(m : Int) * g - n| :=
    calc (g : Int) ≤ |k - m| * g := le_mul_of_one_le_left (by omega) hone
      _ = |k * g - m * g| := by rw [← sub_mul, abs_mul, Nat.abs_cast]
      _ ≤ |k * g - n| + |(n : Int) - m * g| := abs_sub_le _ _ _
      _ = |k * g - n| + |(m : Int) * g - n| := by rw [abs_sub_comm (n : Int)]
  exact ⟨by omega, fun h _ => heven (by omega)⟩

theorem le_nearestEven {n g k : Nat} (hg : 0 < g) (h : k * g ≤ n) : k ≤ nearestEven n g := by
  obtain ⟨herr, -⟩ := nearestEven_error n hg
  have hlo := neg_abs_le ((nearestEven n g : Int) * g - n)
  by_contra! hlt
  have hstep : ((nearestEven n g : Int) + 1) * g ≤ n := by
    exact_mod_cast (Nat.mul_le_mul_right g hlt).trans h
  rw [add_mul, one_mul] at hstep
  omega

theorem nearestEven_le {n g k : Nat} (hg : 0 < g) (h : n ≤ k * g) : nearestEven n g ≤ k := by
  obtain ⟨herr, -⟩ := nearestEven_error n hg
  have hhi := le_abs_self ((nearestEven n g : Int) * g - n)
  by_contra! hlt
  have hstep : ((k : Int) + 1) * g ≤ nearestEven n g * g := by exact_mod_cast Nat.mul_le_mul_right g hlt
  have h' : (n : Int) ≤ k * g := by exact_mod_cast h
  rw [add_mul, one_mul] at hstep
  omega

/-- From halfway below an even number on, the quotient rounds to it or to a greater one. -/
theorem even_le_nearestEven_iff {n g k : Nat} (hg : 0 < g) (hk : k % 2 = 0) :
    k ≤ nearestEven n g ↔ 2 * (k * g) ≤ 2 * n + g := by
  obtain ⟨herr, heven⟩ := nearestEven_error n hg
  have hlo := neg_abs_le ((nearestEven n g : Int) * g - n)
  have hhi := le_abs_self ((nearestEven n g : Int) * g - n)
  generalize nearestEven n g = m at *
  rcases lt_trichotomy m (k - 1) with hm | rfl | hm
  · have hstep : ((m : Int) + 2) * g ≤ k * g := by
      exact_mod_cast Nat.mul_le_mul_right g (by omega : m + 2 ≤ k)
    rw [add_mul] at hstep
    zify
    omega
  · rcases k.eq_zero_or_pos with rfl | hpos
    · simp
    have hodd : 2 * |((k - 1 : Nat) : Int) * g - n| ≠ g := fun h => by have := heven h; omega
    have hstep : ((k - 1 : Nat) : Int) * g = k * g - g := by
      rw [Nat.cast_sub hpos, Nat.cast_one, sub_mul, one_mul]
    rw [hstep] at hlo herr hodd
    zify
    omega
  · have hstep : (k : Int) * g ≤ m * g := by exact_mod_cast Nat.mul_le_mul_right g (by omega : k ≤ m)
    zify
    omega

theorem nearestEven_mul_left {k : Nat} (hk : 0 < k) (n g : Nat) : nearestEven (k * n) (k * g) = nearestEven n g := by
  simp only [nearestEven, Nat.mul_div_mul_left n g hk, Nat.mul_mod_mul_left, Nat.mul_left_comm 2 k,
    Nat.mul_lt_mul_left hk]

/-! ### Rounding to a magnitude -/

/-- The exponent step `e` of `magBits`: `n / d` is rounded to a multiple of `2^e`. -/
def roundStep (n d : Nat) : Nat := Nat.log2 (n / d) - 23

/-- The rounded significand. -/
def roundSig (n d : Nat) : Nat := nearestEven n (d * 2 ^ roundStep n d)

/-- The magnitude bits of the rounded value, before `magBits` cuts them at the infinity. -/
def roundBits (n d : Nat) : Nat := roundStep n d * 2 ^ 23 + roundSig n d

theorem magBits_eq_min (n d : Nat) : magBits n d = min (roundBits n d) infBits := rfl

theorem magBits_le_infBits (n d : Nat) : magBits n d ≤ infBits := min_le_right _ _

theorem magBits_lt (n d : Nat) : magBits n d < 2 ^ 31 := (magBits_le_infBits n d).trans_lt infBits_lt

theorem magBits_of_lt {n d : Nat} (h : magBits n d < infBits) : magBits n d = roundBits n d := by
  rw [magBits_eq_min] at *; omega

theorem magBits_mul_left {k : Nat} (hk : 0 < k) (n d : Nat) : magBits (k * n) (k * d) = magBits n d := by
  simp only [magBits, Nat.mul_div_mul_left n d hk, mul_assoc, nearestEven_mul_left hk]

/-- The magnitude bits depend on the quotient alone. -/
theorem magBits_congr {n d n' d' : Nat} (hd : 0 < d) (hd' : 0 < d') (h : n * d' = n' * d) :
    magBits n d = magBits n' d' := by
  rw [← magBits_mul_left hd', ← magBits_mul_left hd n', mul_comm d' n, h, mul_comm n' d, mul_comm d' d]

section Quotient
variable {n d : Nat} (hd : 0 < d)
include hd

theorem roundUnit_pos : 0 < d * 2 ^ roundStep n d := Nat.mul_pos hd (Nat.two_pow_pos _)

theorem lt_roundUnit : n < 2 ^ 24 * (d * 2 ^ roundStep n d) := by
  have hq : n / d < 2 ^ (Nat.log2 (n / d) + 1) := Nat.lt_log2_self
  have hle : Nat.log2 (n / d) + 1 ≤ 24 + roundStep n d := by unfold roundStep; omega
  have hlt := hq.trans_le (Nat.pow_le_pow_right (by decide) hle)
  rw [pow_add, Nat.div_lt_iff_lt_mul hd] at hlt
  calc n < 2 ^ 24 * 2 ^ roundStep n d * d := hlt
    _ = 2 ^ 24 * (d * 2 ^ roundStep n d) := by ring

theorem roundUnit_le : roundStep n d = 0 ∨ 2 ^ 23 * (d * 2 ^ roundStep n d) ≤ n := by
  rcases Nat.eq_zero_or_pos (roundStep n d) with h | h
  · exact .inl h
  right
  have hlog : 23 + roundStep n d = Nat.log2 (n / d) := by unfold roundStep at *; omega
  have hq : n / d ≠ 0 := fun h0 => by simp [roundStep, h0] at h
  have hle : 2 ^ 23 * 2 ^ roundStep n d ≤ n / d := by
    rw [← pow_add, hlog]; exact Nat.log2_self_le hq
  rw [Nat.le_div_iff_mul_le hd] at hle
  calc 2 ^ 23 * (d * 2 ^ roundStep n d) = 2 ^ 23 * 2 ^ roundStep n d * d := by ring
    _ ≤ n := hle

theorem roundSig_le : roundSig n d ≤ 2 ^ 24 :=
  nearestEven_le (roundUnit_pos hd) (lt_roundUnit hd).le

theorem le_roundSig : roundStep n d = 0 ∨ 2 ^ 23 ≤ roundSig n d :=
  (roundUnit_le hd).imp_right fun h => le_nearestEven (roundUnit_pos hd) h

theorem unitsOf_roundBits : unitsOf (roundBits n d) = roundSig n d * 2 ^ roundStep n d :=
  unitsOf_add (le_roundSig hd) (roundSig_le hd)

/-- No magnitude is nearer to `n / d` than the rounded one, and another is as near only if that is even: a multiple of
the step is compared as an integer, and any other magnitude lies below the binade, farther away than its end. -/
theorem roundBits_nearest (b : Nat) :
    |(unitsOf (roundBits n d) : Int) * d - n| ≤ |(unitsOf b : Int) * d - n| ∧
    (|(unitsOf (roundBits n d) : Int) * d - n| = |(unitsOf b : Int) * d - n| →
      unitsOf b ≠ unitsOf (roundBits n d) → roundBits n d % 2 = 0) := by
  have hparity : roundBits n d % 2 = roundSig n d % 2 := by unfold roundBits; omega
  have hscale : ∀ k : Nat, ((k * 2 ^ roundStep n d : Nat) : Int) * d = (k : Int) * (d * 2 ^ roundStep n d : Nat) :=
    fun k => by push_cast; ring
  have hnear := nearestEven_nearest n (roundUnit_pos (n := n) hd)
  rw [hparity, unitsOf_roundBits hd, hscale]
  by_cases hdvd : 2 ^ roundStep n d ∣ unitsOf b
  · obtain ⟨k, hk⟩ := hdvd
    rw [hk, mul_comm _ k, hscale]
    exact ⟨(hnear k).1, fun h hne => (hnear k).2 h fun h' => hne (by rw [Nat.cast_inj.mp h']; rfl)⟩
  · have hfar : |(roundSig n d : Int) * (d * 2 ^ roundStep n d : Nat) - n| < |(unitsOf b : Int) * d - n| := by
      have hlow := (roundUnit_le (n := n) hd).resolve_left fun h => hdvd (by rw [h]; exact one_dvd _)
      have hlt := (two_pow_dvd_unitsOf_or_lt (roundStep n d) b).resolve_left hdvd
      have hb : unitsOf b * d < 2 ^ 23 * (d * 2 ^ roundStep n d) :=
        calc unitsOf b * d < 2 ^ 23 * 2 ^ roundStep n d * d := Nat.mul_lt_mul_of_pos_right hlt hd
          _ = 2 ^ 23 * (d * 2 ^ roundStep n d) := by ring
      refine (hnear (2 ^ 23)).1.trans_lt ?_
      zify at hb hlow ⊢
      rw [abs_of_nonpos (by omega), abs_of_nonpos (by omega)]
      omega
    exact ⟨hfar.le, fun h => absurd h hfar.ne⟩

/-- Rounding does not cross a magnitude from below. -/
theorem roundBits_le {b : Nat} (h : n ≤ unitsOf b * d) : roundBits n d ≤ b := by
  by_contra! hlt
  have hgt : unitsOf b * d < unitsOf (roundBits n d) * d := Nat.mul_lt_mul_of_pos_right (unitsOf_strictMono hlt) hd
  have hnear := (roundBits_nearest (n := n) hd b).1
  zify at h hgt
  rw [abs_of_nonneg (by omega), abs_of_nonneg (by omega)] at hnear
  omega

/-- Rounding does not cross a magnitude from above. -/
theorem le_roundBits {b : Nat} (h : unitsOf b * d ≤ n) : b ≤ roundBits n d := by
  by_contra! hlt
  have hgt : unitsOf (roundBits n d) * d < unitsOf b * d := Nat.mul_lt_mul_of_pos_right (unitsOf_strictMono hlt) hd
  have hnear := (roundBits_nearest (n := n) hd b).1
  zify at h hgt
  rw [abs_of_nonpos (by omega), abs_of_nonpos (by omega)] at hnear
  omega

theorem magBits_le {b : Nat} (h : n ≤ unitsOf b * d) : magBits n d ≤ b :=
  (min_le_left _ _).trans (roundBits_le hd h)

/-- The rounded magnitude is beyond the finite ones from halfway between the largest of them and the next one on. It is
never so in a lower binade and always so in a higher one; in the last finite one the significand has to carry. -/
theorem infBits_le_roundBits_iff : infBits ≤ roundBits n d ↔ (2 ^ 25 - 1) * 2 ^ 252 * d ≤ n := by
  have hsig := roundSig_le (n := n) hd
  have hmono : ∀ {j k : Nat}, j ≤ k → d * 2 ^ j ≤ d * 2 ^ k := fun h =>
    Nat.mul_le_mul_left d (Nat.pow_le_pow_right (by decide) h)
  rw [roundBits, infBits]
  rcases lt_trichotomy (roundStep n d) 253 with h | h | h
  · have hunit : d * 2 ^ roundStep n d ≤ d * 2 ^ 252 := hmono (by omega)
    have hn := lt_roundUnit (n := n) hd
    omega
  · have hcarry : 2 ^ 24 ≤ roundSig n d ↔ 2 * (2 ^ 24 * (d * 2 ^ roundStep n d)) ≤ 2 * n + d * 2 ^ roundStep n d :=
      even_le_nearestEven_iff (roundUnit_pos hd) rfl
    rw [h] at hcarry ⊢
    omega
  · have hunit : d * 2 ^ 254 ≤ d * 2 ^ roundStep n d := hmono h
    have hn := roundUnit_le (n := n) hd
    have hsig' := le_roundSig (n := n) hd
    omega

theorem magBits_eq_infBits_iff : magBits n d = infBits ↔ (2 ^ 25 - 1) * 2 ^ 252 * d ≤ n := by
  rw [magBits_eq_min, min_eq_right_iff, infBits_le_roundBits_iff hd]

end Quotient

/-- A magnitude rounds to itself. -/
theorem magBits_unitsOf {b d : Nat} (hd : 0 < d) (hb : b ≤ infBits) : magBits (unitsOf b * d) d = b := by
  rw [magBits_eq_min, le_antisymm (roundBits_le hd le_rfl) (le_roundBits hd le_rfl), min_eq_left hb]

theorem magBits_zero {d : Nat} (hd : 0 < d) : magBits 0 d = 0 :=
  Nat.le_zero.mp (magBits_le hd (Nat.zero_le _))

/-! ### Rounding to a word -/

@[simp] theorem signBit_rndUnits (neg : Bool) (n d : Nat) : signBit (rndUnits neg n d) = neg :=
  signBit_pack neg (magBits_lt n d)

@[simp] theorem absBits_rndUnits (neg : Bool) (n d : Nat) : absBits (rndUnits neg n d) = magBits n d :=
  absBits_pack neg (magBits_lt n d)

@[simp] theorem isNaN_rndUnits (neg : Bool) (n d : Nat) : isNaN (rndUnits neg n d) = false :=
  isNaN_pack neg (magBits_le_infBits n d)

/-- `rnd_F` of a rational, from any way to write its magnitude as a quotient in units of 2^-149. -/
theorem rndF_eq_rndUnits {r : Rat} {neg : Bool} {n d : Nat} (hd : 0 < d) (hneg : r < 0 ↔ neg = true)
    (hr : |r| * 2 ^ 149 * d = n) : rndF r = rndUnits neg n d := by
  have hsign : decide (r.num < 0) = neg := by
    rw [Bool.eq_iff_iff, decide_eq_true_iff, Rat.num_neg, hneg]
  have hden : (r.den : Rat) ≠ 0 := Nat.cast_ne_zero.mpr r.den_ne_zero
  have habs : |r| * r.den = r.num.natAbs := by
    rw [← Nat.abs_cast r.den, ← abs_mul, Rat.mul_den_eq_num, Nat.cast_natAbs, Int.cast_abs]
  have hcross : r.num.natAbs * 2 ^ 149 * d = n * r.den := by
    have : (r.num.natAbs : Rat) * 2 ^ 149 * d = n * r.den := by rw [← habs, ← hr]; ring
    exact_mod_cast this
  rw [rndF, rndUnits, rndUnits, hsign, magBits_congr r.den_pos hd hcross]

end Sys2Proof.Machine
end

section
/-! SUPPORT. The four operations on words (R8), one equation per case of their operands, and the comparisons. -/

namespace Sys2Proof.Machine

/-! ### The exact value of a word -/

theorem fToRat_neg_iff {a : F} (h : sval a ≠ 0) : fToRat a < 0 ↔ signBit a = true := by
  rw [fToRat, div_lt_iff₀ (by positivity), zero_mul, Int.cast_lt_zero, sval_neg_iff h]

theorem abs_fToRat (a : F) : |fToRat a| * 2 ^ 149 = mag a := by
  rw [fToRat, abs_div, abs_of_pos (by positivity : (0 : Rat) < 2 ^ 149), div_mul_cancel₀ _ (by positivity),
    ← natAbs_sval, Nat.cast_natAbs, Int.cast_abs]

theorem fToRat_ne_zero {a : F} (h : sval a ≠ 0) : fToRat a ≠ 0 :=
  div_ne_zero (Int.cast_ne_zero.mpr h) (by positivity)

@[simp] theorem fToRat_fneg (a : F) : fToRat (fneg a) = -fToRat a := by
  simp [fToRat, neg_div]

/-- The sign of a product or a quotient of two values. -/
theorem mul_neg_iff_signBit {a b : F} (ha : sval a ≠ 0) (hb : sval b ≠ 0) :
    fToRat a * fToRat b < 0 ↔ (signBit a != signBit b) = true := by
  have ha0 := fToRat_ne_zero ha
  have hb0 := fToRat_ne_zero hb
  have hpos : ∀ {x : F}, fToRat x ≠ 0 → (0 < fToRat x ↔ ¬ fToRat x < 0) := fun h =>
    ⟨fun h' => h'.not_gt, fun h' => lt_of_le_of_ne (not_lt.mp h') h.symm⟩
  rw [mul_neg_iff, hpos ha0, hpos hb0, fToRat_neg_iff ha, fToRat_neg_iff hb]
  cases signBit a <;> cases signBit b <;> decide

/-! ### Cases of the operations -/

section Finite
variable {q a b : F} (ha : isFinite a = true) (hb : isFinite b = true)
include ha hb

theorem fadd_of_isFinite :
    fadd q a b = if sval a + sval b = 0 then pack (signBit a && signBit b) 0
      else rndUnits (decide (sval a + sval b < 0)) (sval a + sval b).natAbs 1 := by
  simp [fadd, isNaN_of_isFinite ha, isNaN_of_isFinite hb, isInf_of_isFinite ha, isInf_of_isFinite hb]

theorem fmul_of_isFinite : fmul q a b = rndUnits (signBit a != signBit b) (mag a * mag b) (2 ^ 149) := by
  simp [fmul, isNaN_of_isFinite ha, isNaN_of_isFinite hb, isInf_of_isFinite ha, isInf_of_isFinite hb]

theorem fdiv_of_isFinite (h0 : sval b ≠ 0) :
    fdiv q a b = rndUnits (signBit a != signBit b) (mag a * 2 ^ 149) (mag b) := by
  rw [Ne, sval_eq_zero] at h0
  simp [fdiv, isNaN_of_isFinite ha, isNaN_of_isFinite hb, isInf_of_isFinite ha, isInf_of_isFinite hb, h0]

theorem fadd_eq_rndF (h0 : sval a + sval b ≠ 0) : fadd q a b = rndF (fToRat a + fToRat b) := by
  have hsum : fToRat a + fToRat b = ((sval a + sval b : Int) : Rat) / 2 ^ 149 := by
    rw [fToRat, fToRat, ← add_div, Int.cast_add]
  rw [fadd_of_isFinite ha hb, if_neg h0, eq_comm]
  refine rndF_eq_rndUnits one_pos ?_ ?_
  · rw [hsum, div_lt_iff₀ (by positivity), zero_mul, Int.cast_lt_zero, decide_eq_true_iff]
  · rw [hsum, abs_div, abs_of_pos (by positivity : (0 : Rat) < 2 ^ 149), div_mul_cancel₀ _ (by positivity),
      Nat.cast_one, mul_one, Nat.cast_natAbs, Int.cast_abs]

theorem fadd_eq_zero (h0 : sval a + sval b = 0) :
    fadd q a b = if signBit a = true ∧ signBit b = true then 0x80000000#32 else 0x00000000#32 := by
  rw [fadd_of_isFinite ha hb, if_pos h0]
  cases signBit a <;> cases signBit b <;> rfl

theorem fmul_eq_rndF (ha0 : sval a ≠ 0) (hb0 : sval b ≠ 0) : fmul q a b = rndF (fToRat a * fToRat b) := by
  rw [fmul_of_isFinite ha hb, eq_comm]
  refine rndF_eq_rndUnits (by positivity) (mul_neg_iff_signBit ha0 hb0) ?_
  rw [abs_mul, Nat.cast_mul, ← abs_fToRat, ← abs_fToRat]
  push_cast
  ring

theorem fdiv_eq_rndF (ha0 : sval a ≠ 0) (hb0 : sval b ≠ 0) : fdiv q a b = rndF (fToRat a / fToRat b) := by
  have hb1 : |fToRat b| ≠ 0 := abs_ne_zero.mpr (fToRat_ne_zero hb0)
  have hpos : 0 < mag b := by rw [← natAbs_sval]; omega
  rw [fdiv_of_isFinite ha hb hb0, eq_comm]
  refine rndF_eq_rndUnits hpos ?_ ?_
  · rw [← mul_neg_iff_signBit ha0 hb0, div_neg_iff, mul_neg_iff]
  · rw [abs_div, Nat.cast_mul, ← abs_fToRat, ← abs_fToRat]
    push_cast
    field_simp
    norm_num

theorem fmul_eq_zero (h0 : sval a = 0 ∨ sval b = 0) :
    fmul q a b = if signBit a = signBit b then 0x00000000#32 else 0x80000000#32 := by
  have hprod : mag a * mag b = 0 := by
    rw [← natAbs_sval, ← natAbs_sval, mul_eq_zero, Int.natAbs_eq_zero, Int.natAbs_eq_zero]; exact h0
  rw [fmul_of_isFinite ha hb, hprod, rndUnits, magBits_zero (by positivity)]
  cases signBit a <;> cases signBit b <;> rfl

end Finite

section Infinite
variable {q a b : F} (ha : isInf a = true)
include ha

theorem fadd_isInf_left (hb : isFinite b = true) : fadd q a b = a := by
  simp [fadd, ha, isNaN_of_isInf ha, isNaN_of_isFinite hb, isInf_of_isFinite hb]

theorem fadd_isInf_right (hb : isFinite b = true) : fadd q b a = a := by
  simp [fadd, ha, isNaN_of_isInf ha, isNaN_of_isFinite hb, isInf_of_isFinite hb]

theorem fmul_isInf_left (hb : isFinite b = true) (h0 : isZero b = false) :
    fmul q a b = if signBit a = signBit b then 0x7F800000#32 else 0xFF800000#32 := by
  have ha0 : absBits a ≠ 0 := by rw [(isInf_iff a).mp ha]; decide
  have hb0 : absBits b ≠ 0 := beq_eq_false_iff_ne.mp h0
  have hpack : fmul q a b = pack (signBit a != signBit b) infBits := by
    simp [fmul, ha, isNaN_of_isInf ha, isNaN_of_isFinite hb, ha0, hb0]
  rw [hpack]
  cases signBit a <;> cases signBit b <;> rfl

theorem fsub_self_of_isInf : fsub q a a = q := by
  simp [fsub, fadd, ha, isNaN_of_isInf ha]

theorem fmul_zero_isInf (hb : isZero b = true) : fmul q b a = q ∧ fmul q a b = q := by
  rw [isZero_iff] at hb
  simp [fmul, ha, hb]

end Infinite

theorem fmul_comm (q a b : F) : fmul q a b = fmul q b a := by
  simp only [fmul, Bool.or_comm (isNaN a), Bool.or_comm (isInf a), Bool.or_comm (decide (absBits a = 0)),
    bne_comm (a := signBit a), Nat.mul_comm (mag a)]

/-- A NaN operand gives the NaN drawn, in every operation. -/
theorem operations_of_isNaN {q x : F} (y : F) (hx : isNaN x = true) :
    fadd q x y = q ∧ fadd q y x = q ∧ fsub q x y = q ∧ fsub q y x = q ∧ fmul q x y = q ∧ fmul q y x = q ∧
      fdiv q x y = q ∧ fdiv q y x = q := by
  simp [fadd, fsub, fmul, fdiv, hx]

/-- `1.0` is neutral: the product of a finite value is that value, which rounds to itself. -/
theorem fmul_one_left (q : F) {x : F} (hx : isFinite x = true) : fmul q 0x3F800000#32 x = x := by
  have hbits : magBits (mag x * 2 ^ 149) (2 ^ 149) = absBits x := by
    rw [mag_eq_unitsOf, magBits_unitsOf (by positivity) ((isFinite_iff x).mp hx).le]
  have hone : mag 0x3F800000#32 = 2 ^ 149 := by decide
  have hsign : (signBit 0x3F800000#32 != signBit x) = signBit x := Bool.false_bne _
  rw [fmul_of_isFinite (by decide) hx, hone, hsign, mul_comm, rndUnits, hbits, pack_signBit_absBits]

/-! ### Comparisons -/

theorem flt_iff {a b : F} : flt a b = true ↔ isNaN a = false ∧ isNaN b = false ∧ rank a < rank b := by
  simp [flt, and_assoc]

theorem flt_eq_false_of_isNaN {a b : F} (h : isNaN a = true ∨ isNaN b = true) : flt a b = false := by
  rcases h with h | h <;> simp [flt, h]

/-- The ranks of two words are in the order of their values. -/
theorem rank_lt_rank_iff (a b : F) : rank a < rank b ↔ sval a < sval b := by
  have hlt : ∀ {m n : Nat}, unitsOf m < unitsOf n ↔ m < n := unitsOf_strictMono.lt_iff_lt
  have hzero : ∀ {m : Nat}, unitsOf m = 0 ↔ m = 0 := unitsOf_eq_zero
  have hab := hlt (m := absBits a) (n := absBits b)
  have hba := hlt (m := absBits b) (n := absBits a)
  have ha0 := hzero (m := absBits a)
  have hb0 := hzero (m := absBits b)
  rw [rank, rank, sval_eq, sval_eq]
  cases signBit a <;> cases signBit b <;> simp only [Bool.false_eq_true, ↓reduceIte] <;> omega

theorem flt_iff_sval_lt {a b : F} (ha : isFinite a = true) (hb : isFinite b = true) :
    flt a b = true ↔ sval a < sval b := by
  simp [flt_iff, isNaN_of_isFinite ha, isNaN_of_isFinite hb, rank_lt_rank_iff]

/-- An infinity lies above every finite value or, if negative, below. -/
theorem flt_isInf {a b : F} (ha : isFinite a = true) (hb : isInf b = true) :
    flt a b = !signBit b ∧ flt b a = signBit b := by
  have hb' : rank b = if signBit b then -(infBits : Int) else (infBits : Int) := by rw [rank, (isInf_iff b).mp hb]
  have ha' : rank a < infBits ∧ -(infBits : Int) < rank a := by
    have := (isFinite_iff a).mp ha
    unfold rank; split <;> omega
  simp only [flt, isNaN_of_isFinite ha, isNaN_of_isInf hb, Bool.not_false, Bool.true_and, hb']
  cases signBit b <;> simp <;> omega

end Sys2Proof.Machine
end

section
/-! SUPPORT. The exponential (R8; log 4): what `allF` checks, and that the reference and the open function have the
value properties of R8 at each argument. -/

namespace Sys2Proof.Machine

theorem allBelow_of_lt {p : Nat → Bool} : ∀ {n : Nat}, allBelow p n = true → ∀ k, k < n → p k = true
  | 0, _, k, hk => absurd hk k.not_lt_zero
  | n + 1, h, k, hk => by
    obtain ⟨hn, hbelow⟩ := Bool.and_eq_true_iff.mp h
    rcases Nat.lt_succ_iff_lt_or_eq.mp hk with hk | rfl
    · exact allBelow_of_lt hbelow k hk
    · exact hn

/-- What `allF` has checked holds of every word. -/
theorem of_allF {p : F → Bool} (h : allF p = true) (a : F) : p a = true := by
  have := allBelow_of_lt h a.toNat a.isLt
  rwa [BitVec.ofNat_toNat, BitVec.setWidth_eq] at this

/-- The value properties of R8 at one argument, as propositions. -/
theorem expPointOk_iff {e : F → F} {a : F} :
    expPointOk e a = true ↔
      isNaN (e a) = isNaN a ∧ (isZero a = true → e a = fOne) ∧
      (isInf a = true → signBit a = true → e a = fZero) ∧
      (signBit a = true → isNaN a = false → flt (e a) fZero = false ∧ fgt (e a) fOne = false) := by
  simp only [expPointOk, Bool.and_eq_true, beq_iff_eq, Bool.or_eq_true, Bool.not_eq_true', ← Bool.not_eq_true]
  tauto

/-! ### The reference -/

/-- A bound of a real in `[0, 1]`, rounded, lies in `[0, 1]`. -/
theorem roundBound_mem_unit {p : Nat} {x : Int} (h0 : 0 ≤ x) (h1 : x ≤ unit p) :
    flt (roundBound p x) fZero = false ∧ fgt (roundBound p x) fOne = false := by
  have hsign : decide (x < 0) = false := by simpa using h0
  have hone : unitsOf (absBits fOne) = 2 ^ 149 := by decide
  have hx : x.natAbs ≤ 2 ^ p := by unfold unit at h1; omega
  have hle : magBits (x.natAbs * 2 ^ 149) (2 ^ p) ≤ absBits fOne :=
    magBits_le (Nat.two_pow_pos p) (by rw [hone, mul_comm]; exact Nat.mul_le_mul_left _ hx)
  have hrank : rank (roundBound p x) = magBits (x.natAbs * 2 ^ 149) (2 ^ p) := by
    simp [rank, roundBound, hsign]
  have h0' : rank fZero = 0 := by decide
  have h1' : rank fOne = absBits fOne := by decide
  constructor
  · rw [← Bool.not_eq_true, flt_iff, hrank, h0']; omega
  · rw [← Bool.not_eq_true, fgt, flt_iff, hrank, h1']; omega

theorem roundExpNeg_mem_unit (n fuel p : Nat) :
    isNaN (roundExpNeg n fuel p) = false ∧
    flt (roundExpNeg n fuel p) fZero = false ∧ fgt (roundExpNeg n fuel p) fOne = false := by
  obtain ⟨p', x, h0, h1, h⟩ := roundExpNeg_cases n fuel p
  rw [h]
  exact ⟨isNaN_rndUnits _ _ _, roundBound_mem_unit h0 h1⟩

theorem isNaN_roundExpPos (n fuel p : Nat) : isNaN (roundExpPos n fuel p) = false := by
  obtain ⟨m, d, h⟩ := roundExpPos_cases n fuel p
  rw [h, isNaN_rndUnits]

theorem zero_mem_unit : flt fZero fZero = false ∧ fgt fZero fOne = false := by decide

theorem one_mem_unit : flt fOne fZero = false ∧ fgt fOne fOne = false := by decide

/-- No branch of the reference gives a NaN: a constant, the infinity itself, or a value rounded once. -/
theorem isNaN_refExp {a : F} (h : isNaN a = false) : isNaN (refExp a) = false := by
  unfold refExp
  repeat' split
  · decide
  · decide
  · exact h
  · exact (roundExpNeg_mem_unit _ _ _).1
  · decide
  · exact isNaN_roundExpPos _ _ _

theorem refExp_of_isZero {a : F} (h : isZero a = true) : refExp a = fOne := by
  rw [refExp, if_pos ((isZero_iff a).mp h)]

theorem refExp_neg_isInf {a : F} (h : isInf a = true) (hs : signBit a = true) : refExp a = fZero := by
  have h0 : absBits a ≠ 0 := by rw [(isInf_iff a).mp h]; decide
  rw [refExp, if_neg h0, if_pos h, if_pos hs]

theorem refExp_neg_mem_unit {a : F} (hs : signBit a = true) :
    flt (refExp a) fZero = false ∧ fgt (refExp a) fOne = false := by
  rw [refExp, if_pos hs, if_pos hs]
  split
  · exact one_mem_unit
  · split
    · exact zero_mem_unit
    · exact (roundExpNeg_mem_unit _ _ _).2

theorem expPointOk_refExp {a : F} (h : isNaN a = false) : expPointOk refExp a = true :=
  expPointOk_iff.mpr ⟨(isNaN_refExp h).trans h.symm, refExp_of_isZero, refExp_neg_isInf,
    fun hs _ => refExp_neg_mem_unit hs⟩

/-! ### The open function -/

/-- Away from NaN the coarse function is 0 at the negative infinity and 1 elsewhere. -/
theorem expCoarse_cases {a : F} (h : isNaN a = false) :
    (isInf a = true ∧ signBit a = true ∧ expCoarse a = fZero) ∨
    (¬ (isInf a = true ∧ signBit a = true) ∧ expCoarse a = fOne) := by
  simp only [expCoarse, h, Bool.false_eq_true, ↓reduceIte, Bool.and_eq_true]
  split
  · next hi => exact .inl ⟨hi.1, hi.2, rfl⟩
  · next hi => exact .inr ⟨hi, rfl⟩

theorem expPointOk_expCoarse (a : F) : expPointOk expCoarse a = true := by
  rw [expPointOk_iff]
  cases hn : isNaN a with
  | true =>
    have hbits := (isNaN_iff a).mp hn
    have ha : expCoarse a = a := if_pos hn
    refine ⟨by rw [ha, hn], fun h0 => ?_, fun hi => ?_, fun _ h => nomatch h⟩
    · rw [isZero_iff] at h0; omega
    · rw [isInf_iff] at hi; omega
  | false =>
    rcases expCoarse_cases hn with ⟨hi, -, he⟩ | ⟨hi, he⟩ <;> rw [he]
    · refine ⟨by decide, fun h0 => ?_, fun _ _ => rfl, fun _ _ => zero_mem_unit⟩
      rw [isInf_iff] at hi
      rw [isZero_iff, hi] at h0
      exact absurd h0 (by decide)
    · exact ⟨by decide, fun _ => rfl, fun hinf hs => absurd ⟨hinf, hs⟩ hi, fun _ _ => one_mem_unit⟩

/-- Nothing lies below the negative infinity. -/
theorem flt_neg_isInf_right {a b : F} (hb : isInf b = true) (hs : signBit b = true) : flt a b = false := by
  rw [← Bool.not_eq_true, flt_iff]
  rintro ⟨ha, -, hrank⟩
  have ha' : absBits a ≤ infBits := by simpa [isNaN] using ha
  rw [rank, rank, hs, (isInf_iff b).mp hb] at hrank
  split at hrank <;> simp only [↓reduceIte] at hrank <;> omega

theorem expCoarse_mono {a b : F} (h : flt a b = true) : fgt (expCoarse a) (expCoarse b) = false := by
  obtain ⟨ha, hb, -⟩ := flt_iff.mp h
  have hb1 : expCoarse b = fOne := by
    rcases expCoarse_cases hb with ⟨hi, hs, -⟩ | ⟨-, he⟩
    · rw [flt_neg_isInf_right hi hs] at h; cases h
    · exact he
  rcases expCoarse_cases ha with ⟨-, -, he⟩ | ⟨-, he⟩ <;> rw [he, hb1]
  · exact zero_mem_unit.2
  · exact one_mem_unit.2

theorem forall_of_expAdmissible {e : F → F} (h : expAdmissible e = true) :
    (∀ a, expPointOk e a = true) ∧ ∀ a b, flt a b = true → fgt (e a) (e b) = false := by
  obtain ⟨hpoint, hmono⟩ := Bool.and_eq_true_iff.mp h
  refine ⟨of_allF hpoint, fun a b hab => ?_⟩
  simpa [hab] using of_allF (of_allF hmono a) b

/-- The open function has every property of R8, whatever function the implementation brings. -/
theorem openExp_admissible :
    (∀ a, expPointOk openExp a = true) ∧ ∀ a b, flt a b = true → fgt (openExp a) (openExp b) = false := by
  cases h : expAdmissible Config.rawExp with
  | true =>
    have heq : openExp = Config.rawExp := funext fun a => if_pos h
    rw [heq]
    exact forall_of_expAdmissible h
  | false =>
    have heq : openExp = expCoarse := funext fun a => if_neg (Bool.eq_false_iff.mp h)
    rw [heq]
    exact ⟨expPointOk_expCoarse, fun _ _ => expCoarse_mono⟩

/-! ### `NUM.exp` -/

theorem numExp_of_isNaN (num : NumSel) (q : F) {a : F} (h : isNaN a = true) : numExp num q a = q := if_pos h

/-- Away from NaN `NUM.exp` is a function with the value properties of R8 there. -/
theorem numExp_cases (num : NumSel) (q : F) {a : F} (h : isNaN a = false) :
    ∃ e : F → F, numExp num q a = e a ∧ expPointOk e a = true := by
  have hif : ¬ isNaN a = true := Bool.eq_false_iff.mp h
  cases num with
  | reference => exact ⟨refExp, if_neg hif, expPointOk_refExp h⟩
  | other => exact ⟨openExp, if_neg hif, openExp_admissible.1 a⟩

theorem isNaN_of_isZero {a : F} (h : isZero a = true) : isNaN a = false := by
  simp [isNaN, (isZero_iff a).mp h]

theorem numExp_of_isZero (num : NumSel) (q : F) {a : F} (h : isZero a = true) : numExp num q a = fOne := by
  obtain ⟨e, he, hok⟩ := numExp_cases num q (isNaN_of_isZero h)
  obtain ⟨-, hzero, -, -⟩ := expPointOk_iff.mp hok
  rw [he, hzero h]

theorem isNaN_numExp (num : NumSel) (q : F) {a : F} (h : isNaN a = false) : isNaN (numExp num q a) = false := by
  obtain ⟨e, he, hok⟩ := numExp_cases num q h
  obtain ⟨hnan, -, -, -⟩ := expPointOk_iff.mp hok
  rw [he, hnan, h]

theorem numExp_neg_isInf (num : NumSel) (q : F) {a : F} (h : isInf a = true) (hs : signBit a = true) :
    numExp num q a = fZero := by
  obtain ⟨e, he, hok⟩ := numExp_cases num q (isNaN_of_isInf h)
  obtain ⟨-, -, hinf, -⟩ := expPointOk_iff.mp hok
  rw [he, hinf h hs]

/-- A value that is not above zero is a zero or has its sign bit set. -/
theorem isZero_or_signBit_of_not_pos {a : F} (h : isNaN a = false) (hpos : fgt a fZero = false) :
    isZero a = true ∨ signBit a = true := by
  have h0 : isNaN fZero = false ∧ rank fZero = 0 := by decide
  rw [fgt, ← Bool.not_eq_true, flt_iff, h0.2] at hpos
  have hrank : ¬ 0 < rank a := fun hr => hpos ⟨h0.1, h, hr⟩
  cases hs : signBit a with
  | true => exact .inr rfl
  | false =>
    rw [rank, hs] at hrank
    exact .inl ((isZero_iff a).mpr (by simpa using hrank))

theorem numExp_mem_unit (num : NumSel) (q : F) {a : F} (h : isNaN a = false) (hpos : fgt a fZero = false) :
    flt (numExp num q a) fZero = false ∧ fgt (numExp num q a) fOne = false := by
  rcases isZero_or_signBit_of_not_pos h hpos with h0 | hs
  · rw [numExp_of_isZero num q h0]; exact one_mem_unit
  · obtain ⟨e, he, hok⟩ := numExp_cases num q h
    obtain ⟨-, -, -, hunit⟩ := expPointOk_iff.mp hok
    rw [he]; exact hunit hs h

theorem numExp_other_mono (q : F) {a b : F} (h : flt a b = true) :
    fgt (numExp .other q a) (numExp .other q b) = false := by
  obtain ⟨ha, hb, -⟩ := flt_iff.mp h
  rw [numExp, numExp, if_neg (Bool.eq_false_iff.mp ha), if_neg (Bool.eq_false_iff.mp hb)]
  exact openExp_admissible.2 a b h

end Sys2Proof.Machine
end

section
/-! SUPPORT. The statements about the arithmetic and the step, settled. -/

namespace Sys2Proof.Machine

theorem execAll_singleton (i : Instr) (s : State) : execAll [i] s = exec i s := by
  rw [execAll]
  cases exec i s <;> rfl

/-- Settles O9: the rounded magnitude is the nearest one of all exponents, cut at the infinity. -/
theorem roundsToNearestEven : Obligations.RoundsToNearestEven := by
  intro n d hd
  refine ⟨magBits_eq_infBits_iff hd, fun neg => ⟨signBit_rndUnits neg n d, absBits_rndUnits neg n d⟩,
    fun hfin c _ => ?_⟩
  rw [mag_eq_unitsOf, mag_eq_unitsOf, absBits_rndUnits, magBits_of_lt hfin]
  exact roundBits_nearest hd (absBits c)

/-- Settles O10: one equation per special case of the operations. -/
theorem arithmeticOnSpecialValues : Obligations.ArithmeticOnSpecialValues := by
  intro q
  refine ⟨fadd_eq_zero (by decide) (by decide) (by decide), fadd_eq_zero (by decide) (by decide) (by decide),
    fun x hx => ?_, fun x => fsub_self_of_isInf, fun x y hx hy => fmul_zero_isInf hy hx,
    fun x y => operations_of_isNaN y, fun x => fmul_one_left q⟩
  have hsigns : ¬ (signBit x = true ∧ signBit (fneg x) = true) := by simp
  rw [fsub, fadd_eq_zero hx ((isFinite_fneg x).trans hx) (by simp), if_neg hsigns]

/-- Settles O11: magnitude bits are in the order of the values they stand for. -/
theorem comparisonsFollowRealOrder : Obligations.ComparisonsFollowRealOrder :=
  ⟨fun _ _ ha hb => ⟨flt_iff_sval_lt ha hb, flt_iff_sval_lt hb ha⟩,
    fun _ _ h => ⟨flt_eq_false_of_isNaN h, flt_eq_false_of_isNaN h.symm⟩,
    fun _ _ => flt_isInf⟩

/-- Settles O12: away from NaN both functions have the value properties R8 asks for, and the open one is monotone. -/
theorem exponentialProperties : Obligations.ExponentialProperties :=
  ⟨fun num q _ => numExp_of_isNaN num q, fun num q _ => isNaN_numExp num q, fun num q _ => numExp_of_isZero num q,
    fun num q => numExp_neg_isInf num q (by decide) (by decide), fun num q _ => numExp_mem_unit num q,
    fun q _ _ => numExp_other_mono q⟩

/-- Settles O55: each operation on finite operands is `rnd_F` of the exact rational, and a difference is a sum. -/
theorem arithmeticRoundsExactResult : Obligations.ArithmeticRoundsExactResult := by
  intro q
  constructor
  · intro a b ha hb
    have hb' : isFinite (fneg b) = true := (isFinite_fneg b).trans hb
    refine ⟨fadd_eq_rndF ha hb, fadd_eq_zero ha hb, fun h => ?_, fun h => ?_,
      fun ha0 hb0 => ⟨fmul_eq_rndF ha hb ha0 hb0, fdiv_eq_rndF ha hb ha0 hb0⟩, fmul_eq_zero ha hb⟩
    · have hsum : sval a + sval (fneg b) ≠ 0 := by rw [sval_fneg]; omega
      rw [fsub, fadd_eq_rndF ha hb' hsum, fToRat_fneg, sub_eq_add_neg]
    · have hsum : sval a + sval (fneg b) = 0 := by rw [sval_fneg]; omega
      simp only [fsub, fadd_eq_zero ha hb' hsum, signBit_fneg, Bool.not_eq_true']
  · intro a b ha hb
    have ha' : isInf (fneg a) = true := (isInf_fneg a).trans ha
    have hb' : isFinite (fneg b) = true := (isFinite_fneg b).trans hb
    exact ⟨fadd_isInf_left ha hb, fadd_isInf_right ha hb, fadd_isInf_left ha hb', fadd_isInf_right ha' hb,
      fun h0 => ⟨fmul_isInf_left ha hb h0, fmul_comm q b a⟩⟩

/-- Settles O3: the step takes the request, and serving one instruction is running it. -/
theorem stepRunsDecodedInstruction : Obligations.StepRunsDecodedInstruction := by
  refine ⟨fun s r rest i hqueue hdecode => ?_, fun _ _ _ => rfl, fun _ _ _ => rfl⟩
  have hserve : step s = serve r { s with queue := rest } := by rw [step, runNext, hqueue]
  rw [hserve, serve, hdecode]
  exact execAll_singleton i _

end Sys2Proof.Machine
end

section
/-! SUPPORT. What an instruction that completes does to `S` (R20), said once: the record steps of a stage, the closure
of these steps under a `PRODUCE`, and the six things an instruction can do. -/

namespace Sys2Proof.Machine

/-! ### One stage step on `S` -/

/-- The instruction that runs stage `k` on buffer element `a` (R75). -/
def stageInstr : Kind → Nat → Instr
  | .reverb => .reverb
  | .distortion => .distortion
  | .bassboost => .bassboost
  | .overdrive => .overdrive
  | .distance => .distance

theorem exec_stageInstr (k : Kind) (a : Nat) (s : State) :
    exec (stageInstr k a) s = runStage k (stagePresent s.hw k) (stageSample k) a s := by
  cases k <;> rfl

/-- What one sample step of stage `k` does to `S`: a step of its own record, or nothing at all, as for the waveshapers
(R20, R32). -/
inductive RecordStep : Kind → Hw → Hw → Prop
  | reverb {h : Hw} {dl : DelayLine} (q : Nat → F) (x : F) (hrv : h.rv = some dl) :
      RecordStep .reverb h { h with rv := some (dlStep q dl x).2 }
  | bassboost {h : Hw} {bb : Biquad} (q : Nat → F) (x : F) (hbb : h.bb = some bb) :
      RecordStep .bassboost h { h with bb := some (biquadStep q bb x).2 }
  | distance {h : Hw} {dl : DelayLine} (q : Nat → F) (x : F) (hds : h.ds = some dl) :
      RecordStep .distance h { h with ds := some (dlStep q dl x).2 }
  | kept (k : Kind) (h : Hw) : RecordStep k h h

theorem stageSample_recordStep (k : Kind) (x : F) (s : State) :
    RecordStep k s.hw (stageSample k x s).2.hw := by
  cases k with
  | reverb =>
    simp only [stageSample, reverbSample]
    split
    · exact .kept _ _
    · next hrv => exact .reverb _ x hrv
  | distortion =>
    simp only [stageSample, distortionSample]
    split <;> exact .kept _ _
  | bassboost =>
    simp only [stageSample, bassboostSample]
    split
    · exact .kept _ _
    · next hbb => exact .bassboost _ x hbb
  | overdrive =>
    simp only [stageSample, overdriveSample]
    split <;> exact .kept _ _
  | distance =>
    simp only [stageSample, distanceSample]
    split
    · exact .kept _ _
    · next hds => exact .distance _ x hds

@[simp] theorem stageSample_buf (k : Kind) (x : F) (s : State) : (stageSample k x s).2.buf = s.buf := by
  rw [stageSample_writes]

@[simp] theorem stageSample_src (k : Kind) (x : F) (s : State) : (stageSample k x s).2.src = s.src := by
  rw [stageSample_writes]

@[simp] theorem stageSample_queue (k : Kind) (x : F) (s : State) : (stageSample k x s).2.queue = s.queue := by
  rw [stageSample_writes]

@[simp] theorem stageSample_dec (k : Kind) (x : F) (s : State) : (stageSample k x s).2.dec = s.dec := by
  rw [stageSample_writes]

@[simp] theorem stageSample_impl (k : Kind) (x : F) (s : State) : (stageSample k x s).2.impl = s.impl := by
  rw [stageSample_writes]

/-- A stage step that completes was refused and changed nothing but the answer, or ran on an element of the buffer. -/
theorem exec_stageInstr_next {k : Kind} {a : Nat} {s t : State} (h : exec (stageInstr k a) s = .next t) :
    (∃ why, t = respond (.refused why) s) ∨
    (s.hw.phase = .run ∧ ∃ y, t = respond (.sample y) (sampleAt (stageSample k) a s)) := by
  rw [exec_stageInstr] at h
  rcases runStage_cases k (stagePresent s.hw k) (stageSample k) a s with
    ⟨-, e⟩ | ⟨-, -, -, e⟩ | ⟨-, -, -, -, e⟩ | ⟨hrun, -, -, -, e⟩ <;> rw [e] at h <;> cases h
  · exact .inl ⟨_, rfl⟩
  · exact .inl ⟨_, rfl⟩
  · exact .inr ⟨hrun, _, rfl⟩

/-! ### Many stage steps on `S` -/

/-- `S` after any number of stage steps, of any stages. -/
def RecordSteps : Hw → Hw → Prop := Relation.ReflTransGen (fun h h' => ∃ k, RecordStep k h h')

theorem RecordSteps.refl (h : Hw) : RecordSteps h h := Relation.ReflTransGen.refl

theorem RecordSteps.tail {h h' h'' : Hw} {k : Kind} (hs : RecordSteps h h') (hk : RecordStep k h' h'') :
    RecordSteps h h'' :=
  Relation.ReflTransGen.tail hs ⟨k, hk⟩

/-- The stages of a `PRODUCE` make stage steps, and leave the implementation's parameters. -/
theorem throughChain_recordSteps (a n : Nat) (s : State) :
    RecordSteps s.hw (throughChain a n s).hw ∧ (throughChain a n s).impl = s.impl :=
  throughChain_induction (fun u => RecordSteps s.hw u.hw ∧ u.impl = s.impl)
    (fun k _ u ⟨hs, hi⟩ => ⟨hs.tail (stageSample_recordStep k _ u), (stageSample_impl k _ u).trans hi⟩)
    a n s ⟨.refl _, rfl⟩

/-- What a property of `S` must satisfy to outlast stage steps. -/
theorem RecordSteps.induction {P : Hw → Prop} (hP : ∀ k h h', RecordStep k h h' → P h → P h') {h h' : Hw}
    (hs : RecordSteps h h') (hh : P h) : P h' := by
  induction hs with
  | refl => exact hh
  | tail _ hk ih =>
    obtain ⟨k, hk⟩ := hk
    exact hP k _ _ hk ih

/-! ### What an instruction does to `S` -/

/-- The instructions that raise a fault code: `BUILD` its own, in `IDLE`, and `FAIL` the one the host reports (R177). -/
inductive Raises (s : State) : Instr → FaultCode → Prop
  | build (hidle : s.hw.phase = .idle) : Raises s .build .invalidEffectParameter
  | failUnreadable : Raises s (.fail 2) .sourceUnreadable
  | failWrite : Raises s (.fail 3) .writeFailure

/-- What instruction `i`, completing in state `s`, can leave as `S`. -/
inductive HwEffect (i : Instr) (s : State) : Hw → Prop
  | kept : HwEffect i s s.hw
  | reset (hi : i = .reset) : HwEffect i s Hw.reset
  | configured {reg : Nat} {v : CfgVal} {c : Cfg} (hi : i = .cfgwr reg v) (hidle : s.hw.phase = .idle)
      (hset : cfgSet reg v s.hw.cfg = some c) : HwEffect i s { s.hw with cfg := c }
  | built {fs nch : Nat} (hi : i = .build) (hidle : s.hw.phase = .idle) (hfs : s.hw.cfg.fs = some fs)
      (hnch : s.hw.cfg.nch = some nch) (hok : buildOk s.impl s.hw.cfg fs nch = true) :
      HwEffect i s (builtHw s.impl fs nch s.hw)
  | raised {code : FaultCode} (hi : Raises s i code) : HwEffect i s (raiseFault code s).hw
  | sampled {h : Hw} (hrun : s.hw.phase = .run) (hs : RecordSteps s.hw h) : HwEffect i s h

theorem execBuild_effect {s t : State} (h : execBuild s = .next t) :
    HwEffect .build s t.hw ∧ t.impl = s.impl := by
  unfold execBuild at h
  split at h
  · cases h; exact ⟨.kept, rfl⟩
  next hidle =>
    rw [not_not] at hidle
    split at h
    next hfs hnch =>
      split at h
      next hok => cases h; exact ⟨.built rfl hidle hfs hnch hok, rfl⟩
      · cases h; exact ⟨.raised (.build hidle), rfl⟩
    · cases h; exact ⟨.raised (.build hidle), rfl⟩

theorem execCfgwr_effect {reg : Nat} {v : CfgVal} {s t : State} (h : execCfgwr reg v s = .next t) :
    HwEffect (.cfgwr reg v) s t.hw ∧ t.impl = s.impl := by
  unfold execCfgwr at h
  split at h
  · cases h; exact ⟨.kept, rfl⟩
  next hidle =>
    split at h
    · cases h; exact ⟨.kept, rfl⟩
    split at h
    · cases h; exact ⟨.kept, rfl⟩
    split at h
    · cases h
    next hset => cases h; exact ⟨.configured rfl (not_not.mp hidle) hset, rfl⟩

theorem execCfgrd_effect {reg : Nat} {s t : State} (h : execCfgrd reg s = .next t) :
    HwEffect (.cfgrd reg) s t.hw ∧ t.impl = s.impl := by
  unfold execCfgrd at h
  split at h <;> cases h <;> exact ⟨.kept, rfl⟩

theorem execFormat_effect {s t : State} (h : execFormat s = .next t) :
    HwEffect .format s t.hw ∧ t.impl = s.impl := by
  unfold execFormat at h
  split at h
  · cases h; exact ⟨.kept, rfl⟩
  · split at h <;> cases h
    exact ⟨.kept, rfl⟩

theorem execFail_effect {code : Nat} {s t : State} (h : execFail code s = .next t) :
    HwEffect (.fail code) s t.hw ∧ t.impl = s.impl := by
  unfold execFail at h
  rcases reportedFault_cases code with ⟨rfl, e⟩ | ⟨rfl, e⟩ | ⟨-, -, e⟩ <;> rw [e] at h <;> cases h
  · exact ⟨.raised .failUnreadable, rfl⟩
  · exact ⟨.raised .failWrite, rfl⟩
  · exact ⟨.kept, rfl⟩

theorem execProduce_effect {buf : Option (List F)} {offset maxCount : Nat} {s t : State}
    (h : execProduce buf offset maxCount s = .next t) :
    HwEffect (.produce buf offset maxCount) s t.hw ∧ t.impl = s.impl := by
  unfold execProduce at h
  split at h
  · cases h; exact ⟨.kept, rfl⟩
  next hrun =>
    split at h
    · cases h; exact ⟨.kept, rfl⟩
    split at h
    · cases h
    · cases h
      obtain ⟨hs, hi⟩ := throughChain_recordSteps offset
        (pullInto (buf.getD s.buf) offset maxCount s).1 (pullInto (buf.getD s.buf) offset maxCount s).2
      exact ⟨.sampled (not_not.mp hrun) hs, hi⟩

theorem stageInstr_effect {k : Kind} {a : Nat} {s t : State} (h : exec (stageInstr k a) s = .next t) :
    HwEffect (stageInstr k a) s t.hw ∧ t.impl = s.impl := by
  rcases exec_stageInstr_next h with ⟨why, rfl⟩ | ⟨hrun, y, rfl⟩
  · exact ⟨.kept, rfl⟩
  · exact ⟨.sampled hrun ((RecordSteps.refl _).tail (stageSample_recordStep k _ s)), stageSample_impl k _ s⟩

/-- Every instruction that completes has one of the six effects on `S`, and none writes the parameters of the
implementation. -/
theorem exec_effect {i : Instr} {s t : State} (h : exec i s = .next t) :
    HwEffect i s t.hw ∧ t.impl = s.impl := by
  cases i with
  | charR | charD | charB | charO | charF | charA | selR | selD | selB | selO | selF | selA =>
    cases h; exact ⟨.kept, rfl⟩
  | reverb a => exact stageInstr_effect (k := .reverb) h
  | distortion a => exact stageInstr_effect (k := .distortion) h
  | bassboost a => exact stageInstr_effect (k := .bassboost) h
  | overdrive a => exact stageInstr_effect (k := .overdrive) h
  | distance a => exact stageInstr_effect (k := .distance) h
  | reset => cases h; exact ⟨.reset rfl, rfl⟩
  | cfgwr reg value => exact execCfgwr_effect h
  | build => exact execBuild_effect h
  | produce buf offset maxCount => exact execProduce_effect h
  | format => exact execFormat_effect h
  | fail code => exact execFail_effect h
  | cfgrd reg => exact execCfgrd_effect h

end Sys2Proof.Machine
end

section
/-! SUPPORT. What stage steps and instructions keep: the parameters and the fault code (R22, R27), and the invariant of
the machine (R21, R25, R28). -/

namespace Sys2Proof.Machine

/-! ### The parameters and the fault code -/

theorem SameParameters.refl (h : Hw) : SameParameters h h :=
  ⟨rfl, rfl, rfl, rfl, rfl, rfl, rfl, rfl⟩

theorem SameParameters.trans {h h' h'' : Hw} (p : SameParameters h h') (q : SameParameters h' h'') :
    SameParameters h h'' := by
  obtain ⟨p1, p2, p3, p4, p5, p6, p7, p8⟩ := p
  obtain ⟨q1, q2, q3, q4, q5, q6, q7, q8⟩ := q
  exact ⟨q1.trans p1, q2.trans p2, q3.trans p3, q4.trans p4, q5.trans p5, q6.trans p6, q7.trans p7, q8.trans p8⟩

theorem RecordStep.sameParameters {k : Kind} {h h' : Hw} (hk : RecordStep k h h') : SameParameters h h' := by
  cases hk with
  | reverb q x hrv => exact ⟨rfl, rfl, rfl, rfl, rfl, by rw [hrv]; rfl, rfl, rfl⟩
  | bassboost q x hbb => exact ⟨rfl, rfl, rfl, rfl, rfl, rfl, rfl, by rw [hbb]; rfl⟩
  | distance q x hds => exact ⟨rfl, rfl, rfl, rfl, rfl, rfl, by rw [hds]; rfl, rfl⟩
  | kept => exact .refl h

theorem RecordStep.phase_fault {k : Kind} {h h' : Hw} (hk : RecordStep k h h') :
    h'.phase = h.phase ∧ h'.fault = h.fault := by
  cases hk <;> exact ⟨rfl, rfl⟩

theorem RecordSteps.sameParameters {h h' : Hw} (hs : RecordSteps h h') : SameParameters h h' :=
  hs.induction (P := SameParameters h) (fun _ _ _ hk p => p.trans hk.sameParameters) (.refl h)

theorem RecordSteps.phase_fault {h h' : Hw} (hs : RecordSteps h h') : h'.phase = h.phase ∧ h'.fault = h.fault :=
  hs.induction (P := fun u => u.phase = h.phase ∧ u.fault = h.fault)
    (fun _ _ _ hk p => ⟨hk.phase_fault.1.trans p.1, hk.phase_fault.2.trans p.2⟩) ⟨rfl, rfl⟩

/-- In `RUN` every effect but that of `RESET` keeps the parameters. -/
theorem HwEffect.sameParameters {i : Instr} {s : State} {h : Hw} (he : HwEffect i s h) (hrun : s.hw.phase = .run)
    (hi : i ≠ .reset) : SameParameters s.hw h := by
  have hidle : s.hw.phase ≠ .idle := by simp [hrun]
  cases he with
  | kept => exact .refl _
  | reset hreset => exact absurd hreset hi
  | configured _ hp => exact absurd hp hidle
  | built _ hp => exact absurd hp hidle
  | raised hcode => exact .refl _
  | sampled _ hs => exact hs.sameParameters

/-- The fault code afterwards: as it was, cleared by `RESET`, or raised. -/
theorem HwEffect.fault {i : Instr} {s : State} {h : Hw} (he : HwEffect i s h) :
    h.fault = s.hw.fault ∨ i = .reset ∨
    ∃ code, Raises s i code ∧ h.fault = if s.hw.fault = .none then code else s.hw.fault := by
  cases he with
  | kept => exact .inl rfl
  | reset hi => exact .inr (.inl hi)
  | configured => exact .inl rfl
  | built => exact .inl rfl
  | raised hi => exact .inr (.inr ⟨_, hi, rfl⟩)
  | sampled _ hs => exact .inl hs.phase_fault.2

/-! ### The invariant -/

/-- A delay line that is well formed and no longer than `DEPTH_MAX` (R28, R162). -/
def DelayLine.Ok (p : Impl) (dl : DelayLine) : Prop := delayLineOk dl = true ∧ dl.len ≤ depthMaxOf p

/-- The clauses of the invariant as propositions, of `S` and the parameters of the implementation. -/
structure HwOk (p : Impl) (h : Hw) : Prop where
  fault_iff : h.phase = .fault ↔ h.fault ≠ .none
  idle : h.phase = .idle → h.eff = 0b00000#5 ∧ h.fmt = none
  run : h.phase = .run → h.fmt.isSome = true
  present : ∀ k, stagePresent h k = selects h.eff k
  fmt : ∀ f, h.fmt = some f → fmtOk f = true
  rv : ∀ dl, h.rv = some dl → dl.Ok p
  ds : ∀ dl, h.ds = some dl → dl.Ok p
  dt : ∀ sh, h.dt = some sh → shaperOk sh = true
  od : ∀ sh, h.od = some sh → shaperOk sh = true

@[simp] theorem mem_canonicalOrder (k : Kind) : k ∈ canonicalOrder := by cases k <;> decide

theorem all_canonicalOrder {p : Kind → Bool} : canonicalOrder.all p = true ↔ ∀ k, p k = true := by
  simp [List.all_eq_true]

/-- The model's invariant is `HwOk`. -/
theorem inv_iff (s : State) : s.Inv ↔ HwOk s.impl s.hw := by
  simp only [State.Inv, invOk, hwInv, Bool.and_eq_true, Bool.or_eq_true, beq_iff_eq, decide_eq_true_eq,
    decide_eq_decide, all_canonicalOrder, Option.isNone_iff_eq_none, Option.all_eq_true, ne_eq, ← imp_iff_not_or]
  constructor
  · rintro ⟨⟨⟨⟨⟨⟨⟨⟨⟨⟨hfault, hidle⟩, hrun⟩, hpresent⟩, hfmt⟩, hrv⟩, hds⟩, hdt⟩, hod⟩, hrvlen⟩, hdslen⟩
    exact ⟨hfault, hidle, hrun, hpresent, hfmt, fun dl e => ⟨hrv dl e, hrvlen dl e⟩,
      fun dl e => ⟨hds dl e, hdslen dl e⟩, hdt, hod⟩
  · rintro ⟨hfault, hidle, hrun, hpresent, hfmt, hrv, hds, hdt, hod⟩
    exact ⟨⟨⟨⟨⟨⟨⟨⟨⟨⟨hfault, hidle⟩, hrun⟩, hpresent⟩, hfmt⟩, fun dl e => (hrv dl e).1⟩, fun dl e => (hds dl e).1⟩,
      hdt⟩, hod⟩, fun dl e => (hrv dl e).2⟩, fun dl e => (hds dl e).2⟩

theorem delayLineOk_iff {dl : DelayLine} :
    delayLineOk dl = true ↔ 1 ≤ dl.len ∧ dl.idx < dl.len ∧ Memory.wf dl.len dl.mem = true ∧
      isFinite dl.mix = true ∧ isFinite dl.fb = true := by
  simp [delayLineOk, and_assoc]

@[simp] theorem dlStep_len (q : Nat → F) (dl : DelayLine) (x : F) : (dlStep q dl x).2.len = dl.len := rfl

/-- `DLSTEP` writes at the cursor, inside the memory, and brings the cursor to an index below `len`. -/
theorem DelayLine.Ok.dlStep {p : Impl} {dl : DelayLine} (q : Nat → F) (x : F) (hdl : dl.Ok p) :
    (dlStep q dl x).2.Ok p := by
  obtain ⟨hok, hmax⟩ := hdl
  obtain ⟨hlen, hidx, hmem, hmix, hfb⟩ := delayLineOk_iff.mp hok
  exact ⟨delayLineOk_iff.mpr ⟨hlen, Nat.mod_lt _ hlen, dlWrite_wf hidx hmem, hmix, hfb⟩, hmax⟩

theorem DelayLine.fresh_ok {p : Impl} {len : Nat} {mix fb : F} (hlen : 1 ≤ len) (hmax : len ≤ depthMaxOf p)
    (hmix : isFinite mix = true) (hfb : isFinite fb = true) : (DelayLine.fresh len mix fb).Ok p :=
  ⟨delayLineOk_iff.mpr ⟨hlen, hlen, Memory.wf_nil len, hmix, hfb⟩, hmax⟩

theorem one_le_delayLen (p : Impl) (delay : Rat) (fs : Nat) : 1 ≤ delayLen p delay fs := le_max_left _ _

/-! ### Each effect keeps the invariant -/

theorem HwOk.reset (p : Impl) : HwOk p Hw.reset :=
  ⟨by decide, fun _ => ⟨rfl, rfl⟩, nofun, fun k => by cases k <;> rfl, nofun, nofun, nofun, nofun, nofun⟩

theorem RecordStep.stagePresent {k : Kind} {h h' : Hw} (hk : RecordStep k h h') (j : Kind) :
    stagePresent h' j = stagePresent h j := by
  cases hk with
  | reverb q x e => cases j <;> simp [Machine.stagePresent, e]
  | bassboost q x e => cases j <;> simp [Machine.stagePresent, e]
  | distance q x e => cases j <;> simp [Machine.stagePresent, e]
  | kept => rfl

theorem HwOk.recordStep {p : Impl} {k : Kind} {h h' : Hw} (hk : RecordStep k h h') (hh : HwOk p h) : HwOk p h' := by
  have hpresent' : ∀ j, stagePresent h' j = selects h'.eff j := fun j => by
    obtain ⟨-, -, heff, -⟩ := hk.sameParameters
    rw [hk.stagePresent, hh.present, heff]
  cases hk with
  | reverb q x e =>
    exact { hh with present := hpresent', rv := by rintro _ ⟨⟩; exact (hh.rv _ e).dlStep q x }
  | bassboost q x e => exact { hh with present := hpresent' }
  | distance q x e =>
    exact { hh with present := hpresent', ds := by rintro _ ⟨⟩; exact (hh.ds _ e).dlStep q x }
  | kept => exact hh

theorem HwOk.withCfg {p : Impl} {h : Hw} (hh : HwOk p h) (c : Cfg) : HwOk p { h with cfg := c } :=
  { hh with present := hh.present }

theorem HwOk.raiseFault {p : Impl} {s : State} {code : FaultCode} (hcode : code ≠ .none) (hh : HwOk p s.hw) :
    HwOk p (raiseFault code s).hw := by
  have hfault : (Machine.raiseFault code s).hw.fault ≠ .none := by
    rw [raiseFault_hw_fault]
    split
    · exact hcode
    next h => exact h
  exact { hh with fault_iff := iff_of_true rfl hfault, idle := nofun, run := nofun }

theorem Raises.ne_none {s : State} {i : Instr} {code : FaultCode} (h : Raises s i code) : code ≠ .none := by
  cases h <;> decide

/-- The checks of `BUILD`, as the format and the selected stages pass them (R162). -/
theorem buildOk_iff {p : Impl} {c : Cfg} {fs nch : Nat} :
    buildOk p c fs nch = true ↔
      0 < fs ∧ 0 < nch ∧ ∀ k, selects (effOf c.sel) k = true → stageOk p c fs k = true := by
  simp [buildOk, imp_iff_not_or, and_assoc]

theorem stagePresent_builtHw (p : Impl) (fs nch : Nat) (h : Hw) (k : Kind) :
    stagePresent (builtHw p fs nch h) k = (selects (effOf h.cfg.sel) k || stagePresent h k) := by
  have hite : ∀ {α : Type} (b : Bool) (x : α) (o : Option α), (if b then some x else o).isSome = (b || o.isSome) :=
    fun b _ _ => by cases b <;> rfl
  cases k <;> exact hite _ _ _

/-- What holds of a record newly made and of the one there before holds of the record `BUILD` leaves. -/
theorem forall_some_of_ite {α : Type} {P : α → Prop} {b : Bool} {x : α} {o : Option α} (hx : b = true → P x)
    (ho : ∀ y, o = some y → P y) : ∀ y, (if b then some x else o) = some y → P y := by
  intro y hy
  split at hy
  next hb => cases hy; exact hx hb
  · exact ho y hy

/-- A `BUILD` whose checks pass makes a well-formed chain out of an idle machine. -/
theorem HwOk.builtHw {p : Impl} {h : Hw} {fs nch : Nat} (hh : HwOk p h) (hidle : h.phase = .idle)
    (hok : buildOk p h.cfg fs nch = true) : HwOk p (builtHw p fs nch h) := by
  obtain ⟨hfs, hnch, hstage⟩ := buildOk_iff.mp hok
  obtain ⟨heff, -⟩ := hh.idle hidle
  have hnone : h.fault = .none := not_not.mp (mt hh.fault_iff.mpr (by simp [hidle]))
  constructor
  case fault_iff => exact iff_of_false nofun (by simp [hnone])
  case idle => nofun
  case run => exact fun _ => rfl
  case present =>
    intro k
    have habsent : stagePresent h k = false := by rw [hh.present, heff]; cases k <;> rfl
    rw [stagePresent_builtHw, habsent, Bool.or_false, builtHw_eff]
  case fmt => rintro _ ⟨⟩; simp [fmtOk, hfs, hnch]
  case rv =>
    refine forall_some_of_ite (fun hk => ?_) hh.rv
    have hchecks := hstage .reverb hk
    simp only [stageOk, Bool.and_eq_true, decide_eq_true_eq] at hchecks
    obtain ⟨⟨⟨-, hmix⟩, hfb⟩, hmax⟩ := hchecks
    exact DelayLine.fresh_ok (one_le_delayLen _ _ _) hmax hmix hfb
  case ds =>
    refine forall_some_of_ite (fun hk => ?_) hh.ds
    have hchecks := hstage .distance hk
    simp only [stageOk, Bool.and_eq_true, decide_eq_true_eq] at hchecks
    obtain ⟨⟨⟨-, hmix⟩, hfb⟩, hmax⟩ := hchecks
    exact DelayLine.fresh_ok (one_le_delayLen _ _ _) hmax hmix hfb
  case dt => exact forall_some_of_ite (hstage .distortion) hh.dt
  case od => exact forall_some_of_ite (hstage .overdrive) hh.od

theorem HwEffect.hwOk {i : Instr} {s : State} {h : Hw} (he : HwEffect i s h) (hs : HwOk s.impl s.hw) :
    HwOk s.impl h := by
  cases he with
  | kept => exact hs
  | reset => exact .reset _
  | configured => exact hs.withCfg _
  | built _ hidle _ _ hok => exact hs.builtHw hidle hok
  | raised hi => exact hs.raiseFault hi.ne_none
  | sampled _ hsteps => exact hsteps.induction (fun _ _ _ => HwOk.recordStep) hs

/-! ### Steps -/

theorem execAll_induction {P : State → Prop} (hP : ∀ i s t, P s → exec i s = .next t → P t) :
    ∀ (is : List Instr) (s t : State), P s → execAll is s = .next t → P t
  | [], s, t, hs, h => by cases h; exact hs
  | i :: is, s, t, hs, h => by
    rw [execAll] at h
    split at h
    next u hu => exact execAll_induction hP is u t (hP i s u hs hu) h
    · cases h
    · cases h

@[simp] theorem beginRequest_hw (r : Request) (s : State) : (beginRequest r s).hw = s.hw := by cases r <;> rfl

@[simp] theorem beginRequest_impl (r : Request) (s : State) : (beginRequest r s).impl = s.impl := by cases r <;> rfl

/-- A property of `S` and of the implementation's parameters that every instruction keeps is kept by the step, which
beside them writes the queue, the decoder's registers and the answer. -/
theorem step_induction {P : Impl → Hw → Prop}
    (hP : ∀ i s t, P s.impl s.hw → exec i s = .next t → P t.impl t.hw) {s t : State} (hs : P s.impl s.hw)
    (h : step s = .next t) : P t.impl t.hw := by
  unfold step runNext at h
  split at h
  · cases h; exact hs
  next r rest _ =>
    unfold serve at h
    split at h
    next is _ =>
      exact execAll_induction (P := fun u => P u.impl u.hw) hP is _ t (by simpa using hs) h
    · cases h; exact hs
    · cases h
    · cases h

theorem exec_hwOk (i : Instr) (s t : State) (hs : HwOk s.impl s.hw) (h : exec i s = .next t) : HwOk t.impl t.hw := by
  obtain ⟨heffect, himpl⟩ := exec_effect h
  rw [himpl]
  exact heffect.hwOk hs

/-- Settles O52: each of the six effects an instruction can have on `S` keeps the invariant. -/
theorem invariantKeptByEveryStep : Obligations.InvariantKeptByEveryStep := fun s t hs h =>
  (inv_iff t).mpr (step_induction exec_hwOk ((inv_iff s).mp hs) h)

/-- Settles O53. -/
theorem resetStateMeetsInvariant : Obligations.ResetStateMeetsInvariant :=
  (inv_iff State.reset).mpr (.reset _)

/-- Settles O48: outside `RESET` a running chain is only stepped, or faulted. -/
theorem parametersFrozenWhileRunning : Obligations.ParametersFrozenWhileRunning := fun _ _ _ hrun hi h =>
  (exec_effect h).1.sameParameters hrun hi

/-- Settles O47: a code is recorded only by a fault being raised, which keeps an earlier one. -/
theorem faultCodeIsSticky : Obligations.FaultCodeIsSticky := by
  refine ⟨fun i s t h hcode hi => ?_, fun s t h => ?_, fun i s t h hnone hcode => ?_, rfl, fun s v hidle => ?_⟩
  · rcases (exec_effect h).1.fault with e | hreset | ⟨code, -, e⟩
    · exact e
    · exact absurd hreset hi
    · rw [e, if_neg hcode]
  · cases h; rfl
  · rcases (exec_effect h).1.fault with e | rfl | ⟨code, hraises, e⟩
    · exact absurd (e.trans hnone) hcode
    · cases h; exact absurd rfl hcode
    · rw [if_pos hnone] at e
      cases hraises with
      | build => exact .inl ⟨rfl, e⟩
      | failUnreadable => exact .inr (.inl ⟨rfl, e⟩)
      | failWrite => exact .inr (.inr ⟨rfl, e⟩)
  · simp [exec, execCfgwr, hidle, refuse, respond]

end Sys2Proof.Machine
end

section
/-! SUPPORT. The histories of the two recursive stages (R29, R31), by induction on the last sample, and the frame of one
stage step (R20, R58). -/

namespace Sys2Proof.Machine

/-! ### Delay memories -/

/-- Below its first index a canonical list reads `+0`. -/
theorem Memory.get_of_lt {len : Nat} : ∀ {m : Memory} {lo a : Nat}, Memory.wfFrom len lo m = true → a < lo →
    Memory.get m a = fZero
  | [], _, _, _, _ => rfl
  | (b, w) :: rest, lo, a, hm, ha => by
    obtain ⟨hlo, -, -, hrest⟩ := Memory.wfFrom_cons.mp hm
    rw [Memory.get, if_neg (by omega), Memory.get_of_lt hrest (by omega)]

theorem Memory.get_set_of_wfFrom {len : Nat} (a b : Nat) (v : F) : ∀ {m : Memory} {lo : Nat},
    Memory.wfFrom len lo m = true → Memory.get (Memory.set m a v) b = if b = a then v else Memory.get m b
  | [], lo, _ => by
    by_cases hv : v = fZero <;> simp [Memory.set, Memory.get, hv]
  | (c, w) :: rest, lo, hm => by
    obtain ⟨-, -, -, hrest⟩ := Memory.wfFrom_cons.mp hm
    have hbelow : ∀ d, d < c + 1 → Memory.get rest d = fZero := fun d => Memory.get_of_lt hrest
    rcases lt_trichotomy a c with hac | rfl | hac
    · have hread : Memory.get ((c, w) :: rest) a = fZero := by
        rw [Memory.get, if_neg hac.ne, hbelow a (by omega)]
      rw [Memory.set, if_pos hac]
      split
      next hv =>
        split
        next hb => rw [hb, hread, hv]
        · rfl
      · rfl
    · have hread := hbelow a (by omega)
      rw [Memory.set, if_neg (lt_irrefl a), if_pos rfl]
      by_cases hv : v = fZero <;> by_cases hb : b = a <;> simp [Memory.get, hv, hb, hread]
    · rw [Memory.set, if_neg (by omega), if_neg (by omega), Memory.get, Memory.get,
        Memory.get_set_of_wfFrom a b v hrest]
      split
      next hb => rw [if_neg (by omega)]
      · rfl

/-- Read after write in a memory in canonical form (R55). -/
theorem Memory.get_set {len : Nat} {m : Memory} (hm : Memory.wf len m = true) (a b : Nat) (v : F) :
    Memory.get (Memory.set m a v) b = if b = a then v else Memory.get m b :=
  Memory.get_set_of_wfFrom a b v hm

/-! ### The last sample of a run -/

/-- The last step of a delay line that has processed `xs.length` samples before. -/
theorem dlRun_concat (q : Nat → F) (dl : DelayLine) (xs : List F) (x : F) :
    dlRun q dl (xs ++ [x]) =
      ((dlRun q dl xs).1 ++ [(dlStep (fun j => q (j + 3 * xs.length)) (dlRun q dl xs).2 x).1],
        (dlStep (fun j => q (j + 3 * xs.length)) (dlRun q dl xs).2 x).2) := by
  induction xs generalizing q dl with
  | nil => rfl
  | cons z zs ih =>
    have hshift : ∀ j, j + 3 * zs.length + 3 = j + 3 * (zs.length + 1) := fun j => by ring
    simp only [List.cons_append, dlRun, ih, List.length_cons, hshift]

theorem biquadRun_concat (q : Nat → F) (bb : Biquad) (xs : List F) (x : F) :
    biquadRun q bb (xs ++ [x]) =
      ((biquadRun q bb xs).1 ++ [(biquadStep (fun j => q (j + 9 * xs.length)) (biquadRun q bb xs).2 x).1],
        (biquadStep (fun j => q (j + 9 * xs.length)) (biquadRun q bb xs).2 x).2) := by
  induction xs generalizing q bb with
  | nil => rfl
  | cons z zs ih =>
    have hshift : ∀ j, j + 9 * zs.length + 9 = j + 9 * (zs.length + 1) := fun j => by ring
    simp only [List.cons_append, biquadRun, ih, List.length_cons, hshift]

@[simp] theorem dlRun_length (q : Nat → F) (dl : DelayLine) (xs : List F) : (dlRun q dl xs).1.length = xs.length := by
  induction xs generalizing q dl with
  | nil => rfl
  | cons x xs ih => simp [dlRun, ih]

@[simp] theorem biquadRun_length (q : Nat → F) (bb : Biquad) (xs : List F) :
    (biquadRun q bb xs).1.length = xs.length := by
  induction xs generalizing q bb with
  | nil => rfl
  | cons x xs ih => simp [biquadRun, ih]

theorem getD_concat_length (xs : List F) (x d : F) : (xs ++ [x]).getD xs.length d = x := by simp

/-! ### The delay line -/

/-- What a delay line keeps: its length and factors, and the canonical form of its memory. -/
theorem dlRun_keeps (q : Nat → F) (dl : DelayLine) (xs : List F) (hidx : dl.idx < dl.len)
    (hmem : Memory.wf dl.len dl.mem = true) :
    let r := (dlRun q dl xs).2
    r.len = dl.len ∧ r.mix = dl.mix ∧ r.fb = dl.fb ∧ r.idx = (dl.idx + xs.length) % dl.len ∧
      Memory.wf dl.len r.mem = true := by
  induction xs using List.reverseRecOn with
  | nil => exact ⟨rfl, rfl, rfl, (Nat.mod_eq_of_lt hidx).symm, hmem⟩
  | append_singleton xs x ih =>
    obtain ⟨hlen, hmix, hfb, hidx', hmem'⟩ := ih
    have hlt : (dlRun q dl xs).2.idx < (dlRun q dl xs).2.len := by
      rw [hlen, hidx']; exact Nat.mod_lt _ (by omega)
    rw [← hlen] at hmem'
    simp only [dlRun_concat]
    refine ⟨hlen, hmix, hfb, ?_, hlen ▸ dlWrite_wf hlt hmem'⟩
    simp only [dlStep, hlen, hidx', Nat.mod_add_mod, List.length_append, List.length_singleton, add_assoc]

/-- What was fed back `len` samples before sample `n` of a run with outputs `ys`; `+0` where there was none (R29). -/
def fedBack (q : Nat → F) (fb : F) (ys : List F) (len n : Nat) : F :=
  if len ≤ n then fmul (q (3 * (n - len) + 2)) fb (ys.getD (n - len) fZero) else fZero

theorem fedBack_append (q : Nat → F) (fb : F) {ys : List F} (zs : List F) {len n : Nat} (h : n < ys.length + len) :
    fedBack q fb (ys ++ zs) len n = fedBack q fb ys len n := by
  unfold fedBack
  split
  · rw [List.getD_append _ _ _ _ (by omega)]
  · rfl

/-- Of `len` indices in a row, counted round the memory, only the first is the one they start at. -/
theorem add_mod_eq_mod_iff {k j len : Nat} (hj : j < len) : (k + j) % len = k % len ↔ j = 0 := by
  constructor
  · intro h
    have hmod : k + j ≡ k + 0 [MOD len] := h
    have hzero : j % len = 0 % len := Nat.ModEq.add_left_cancel' k hmod
    rwa [Nat.mod_eq_of_lt hj, Nat.zero_mod] at hzero
  · rintro rfl; rfl

/-- The memory of a fresh delay line, read from the cursor on, is what was fed back, oldest first. -/
theorem dlRun_fresh_get (q : Nat → F) {len : Nat} (mix fb : F) (xs : List F) (hlen : 1 ≤ len) :
    ∀ j, j < len →
      Memory.get (dlRun q (DelayLine.fresh len mix fb) xs).2.mem ((xs.length + j) % len) =
        fedBack q fb (dlRun q (DelayLine.fresh len mix fb) xs).1 len (xs.length + j) := by
  induction xs using List.reverseRecOn with
  | nil =>
    intro j hj
    have hnone : ¬ len ≤ 0 + j := by omega
    exact (if_neg hnone).symm
  | append_singleton xs x ih =>
    intro j hj
    have hkeeps := dlRun_keeps q (DelayLine.fresh len mix fb) xs hlen (Memory.wf_nil len)
    have hk := dlRun_length q (DelayLine.fresh len mix fb) xs
    rw [dlRun_concat]
    generalize dlRun q (DelayLine.fresh len mix fb) xs = r at *
    obtain ⟨-, -, hfb, hidx, hwf⟩ := hkeeps
    simp only [DelayLine.fresh_idx, DelayLine.fresh_len, DelayLine.fresh_fb, zero_add] at hidx hwf hfb
    simp only [dlStep, dlWrite, Memory.get_set hwf, hidx, hfb, List.length_append, List.length_singleton]
    rw [show xs.length + 1 + j = xs.length + (j + 1) by ring]
    rcases Nat.lt_or_ge (j + 1) len with hj' | hj'
    · have hother : (xs.length + (j + 1)) % len ≠ xs.length % len := by
        rw [Ne, add_mod_eq_mod_iff hj']; omega
      rw [if_neg hother, ih _ hj', fedBack_append _ _ _ (by omega)]
    · obtain rfl : j + 1 = len := by omega
      rw [if_pos (Nat.add_mod_right _ _), fedBack, if_pos (by omega), Nat.add_sub_cancel, ← hk, getD_concat_length,
        Nat.add_comm 2]

/-- Settles O15: the cursor stands at `k mod len`, and from it on the memory holds what was fed back. -/
theorem delayBufferHoldsLastOutputs : Obligations.DelayBufferHoldsLastOutputs := by
  intro q len mix fb xs hlen
  obtain ⟨hlen', hmix, hfb, hidx, -⟩ := dlRun_keeps q (DelayLine.fresh len mix fb) xs hlen (Memory.wf_nil len)
  simp only [DelayLine.fresh_idx, DelayLine.fresh_len, zero_add] at hidx
  refine ⟨dlRun_length _ _ _, hlen', hmix, hfb, hidx, fun j hj => ?_⟩
  rw [hidx, Nat.mod_add_mod]
  exact dlRun_fresh_get q mix fb xs hlen j hj

/-! ### The biquad -/

/-- The sample `n` places before the end of `k` samples, `+0` where there is none (R31). -/
def samplesAgo (k : Nat) (xs : List F) (n : Nat) : F := if n ≤ k then xs.getD (k - n) fZero else fZero

theorem samplesAgo_one_concat {k : Nat} {xs : List F} (h : xs.length = k) (x : F) :
    samplesAgo (k + 1) (xs ++ [x]) 1 = x := by
  rw [samplesAgo, if_pos (by omega), Nat.add_sub_cancel, ← h, getD_concat_length]

theorem samplesAgo_two_concat {k : Nat} {xs : List F} (h : xs.length = k) (x : F) :
    samplesAgo (k + 1) (xs ++ [x]) 2 = samplesAgo k xs 1 := by
  by_cases hk : 1 ≤ k
  · rw [samplesAgo, samplesAgo, if_pos (by omega), if_pos hk, List.getD_append _ _ _ _ (by omega),
      Nat.add_sub_add_right k 1 1]
  · rw [samplesAgo, samplesAgo, if_neg (by omega), if_neg hk]

/-- Settles O28, by induction on the last sample: a step shifts the histories and keeps the coefficients. -/
theorem biquadHistoryIsLastSamples : Obligations.BiquadHistoryIsLastSamples := by
  intro q c xs
  induction xs using List.reverseRecOn with
  | nil => exact ⟨rfl, rfl, rfl, rfl, rfl, rfl, rfl, rfl, rfl, rfl⟩
  | append_singleton xs x ih =>
    obtain ⟨hlen, hx1, -, hy1, -, hcoef⟩ := ih
    simp only [biquadRun_concat, biquadStep, List.length_append, List.length_singleton]
    exact ⟨by rw [hlen], (samplesAgo_one_concat rfl x).symm, hx1.trans (samplesAgo_two_concat rfl x).symm,
      (samplesAgo_one_concat hlen _).symm, hy1.trans (samplesAgo_two_concat hlen _).symm, hcoef⟩

/-! ### The frame of one stage step -/

/-- The record a stage step of `S` writes is its own (R20); the waveshapers write none (R32). -/
theorem RecordStep.own {k : Kind} {h h' : Hw} (hk : RecordStep k h h') (a : Nat) :
    (stageInstr k a = .reverb a → h' = { h with rv := h'.rv }) ∧ (stageInstr k a = .distortion a → h' = h) ∧
    (stageInstr k a = .bassboost a → h' = { h with bb := h'.bb }) ∧ (stageInstr k a = .overdrive a → h' = h) ∧
    (stageInstr k a = .distance a → h' = { h with ds := h'.ds }) := by
  cases hk with
  | reverb => exact ⟨fun _ => rfl, nofun, nofun, nofun, nofun⟩
  | bassboost => exact ⟨nofun, nofun, fun _ => rfl, nofun, nofun⟩
  | distance => exact ⟨nofun, nofun, nofun, nofun, fun _ => rfl⟩
  | kept => exact ⟨fun _ => rfl, fun _ => rfl, fun _ => rfl, fun _ => rfl, fun _ => rfl⟩

/-- A stage step that completes steps its record in `S`, writes at most its own element of the buffer, and leaves the
source, the queue, the decoder and the implementation's parameters. -/
theorem exec_stageInstr_frame {k : Kind} {a : Nat} {s t : State} (h : exec (stageInstr k a) s = .next t) :
    RecordStep k s.hw t.hw ∧ (∀ b, b ≠ a → bufRead t.buf b = bufRead s.buf b) ∧ t.buf.length = s.buf.length ∧
      t.src = s.src ∧ t.queue = s.queue ∧ t.dec = s.dec ∧ t.impl = s.impl := by
  rcases exec_stageInstr_next h with ⟨why, rfl⟩ | ⟨-, y, rfl⟩
  · exact ⟨.kept k _, fun _ _ => rfl, rfl, rfl, rfl, rfl, rfl⟩
  · have hbuf : ∀ b, b ≠ a → bufRead (sampleAt (stageSample k) a s).buf b = bufRead s.buf b := fun b hb => by
      simp [sampleAt, bufRead_write_other hb]
    have hlen : (sampleAt (stageSample k) a s).buf.length = s.buf.length := by simp [sampleAt]
    exact ⟨stageSample_recordStep k _ s, hbuf, hlen, stageSample_src k _ s, stageSample_queue k _ s,
      stageSample_dec k _ s, stageSample_impl k _ s⟩

theorem exists_stageInstr {i : Instr} {a : Nat}
    (h : i ∈ [Instr.reverb a, .distortion a, .bassboost a, .overdrive a, .distance a]) : ∃ k, i = stageInstr k a := by
  simp only [List.mem_cons, List.not_mem_nil, or_false] at h
  rcases h with rfl | rfl | rfl | rfl | rfl
  · exact ⟨.reverb, rfl⟩
  · exact ⟨.distortion, rfl⟩
  · exact ⟨.bassboost, rfl⟩
  · exact ⟨.overdrive, rfl⟩
  · exact ⟨.distance, rfl⟩

/-- Settles O50: the five stage instructions share one frame, and each steps its own record. -/
theorem stagesOwnTheirRecords : Obligations.StagesOwnTheirRecords := by
  intro s t a i hi h
  obtain ⟨k, rfl⟩ := exists_stageInstr hi
  obtain ⟨hstep, hbuf, hlen, hsrc, hqueue, hdec, himpl⟩ := exec_stageInstr_frame h
  exact ⟨hbuf, hlen, hsrc, hqueue, hdec, himpl, hstep.own a⟩

end Sys2Proof.Machine
end

section
/-! SUPPORT. Read after write in a delay memory (R55, R56, R28). -/

namespace Sys2Proof.Machine

/-- Settles O14: `Memory.get_set`, by induction on the listed elements. The canonical form is needed
for a write of `+0`: with it no entry for that index stands beyond the place where the write stops. The index need not be
in range. -/
theorem delayMemoryReadAfterWrite : Obligations.DelayMemoryReadAfterWrite :=
  fun _ a b v _ hwf _ => Memory.get_set hwf a b v

end Sys2Proof.Machine
end

section
/-! SUPPORT. The decoder and the encoder (R70, R71, R73, R75, R76): the round trip of every instruction, and that a kind
or a command request has one instruction. -/

namespace Sys2Proof

/-- Each row's `match` value selects that row alone, so the round trip needs no well-formedness. -/
theorem decode_encode (i : Instr) : decode (encode i) = .instrs [i] := by
  cases i with
  | reverb a | distortion a | bassboost a | overdrive a | distance a =>
    simp [encode, decode, decodeKind, kindRows, Row.hits]
  | _ => rfl

/-! ### Stage kinds (R75) -/

/-- A `KIND3` row's mask keeps the whole code, so a code that hits the row is its pattern. -/
theorem encode_of_hits {code : BitVec 3} {a : Nat} {r : Row 3} (hr : r ∈ kindRows a) (hhits : r.hits code = true) :
    encode r.instr = .kind code a := by
  have hcode : code &&& r.mask = r.pattern := eq_of_beq hhits
  obtain ⟨hmask, hencode⟩ : r.mask = BitVec.allOnes 3 ∧ encode r.instr = .kind r.pattern a := by
    simp only [kindRows, List.mem_cons, List.not_mem_nil, or_false] at hr
    rcases hr with rfl | rfl | rfl | rfl | rfl <;> exact ⟨rfl, rfl⟩
  rw [hencode, ← hcode, hmask, BitVec.and_allOnes]

theorem encode_of_decodeKind {code : BitVec 3} {a : Nat} {i : Instr} (h : decodeKind code a = .instrs [i]) :
    encode i = .kind code a := by
  unfold decodeKind at h
  split at h
  next r hr =>
    cases h
    exact encode_of_hits (List.mem_of_find?_eq_some hr) (List.find?_some (p := fun r : Row _ => r.hits code) hr)
  · cases h

/-! ### Host commands (R76) -/

theorem cmd_of_toNat {code : BitVec 3} {n : Nat} (h : code.toNat = n) (args : Args) :
    Request.cmd (BitVec.ofNat 3 n) args = .cmd code args := by
  rw [← h, BitVec.ofNat_toNat, BitVec.setWidth_eq]

/-- Each command code of R76 that an instruction answers to is the code of that instruction, with its operands. -/
theorem encode_of_decodeCmd {code : BitVec 3} {args : Args} {i : Instr} (h : decodeCmd code args = .instrs [i]) :
    encode i = .cmd code args := by
  unfold decodeCmd at h
  split at h <;> cases h <;> exact cmd_of_toNat ‹_› _

/-! ### The statements -/

/-- Settles O1: an instruction is decoded from its row's `match` value, and a kind or a command code names one row. -/
theorem encodedInstructionsDecode : Obligations.EncodedInstructionsDecode :=
  ⟨fun i _ => decode_encode i, fun _ _ _ => encode_of_decodeKind, fun _ _ _ => encode_of_decodeCmd⟩

/-- Settles O2: the words that are an encoding decode by `decode_encode`, the others by running the decoder. -/
theorem tableWordsDecode : Obligations.TableWordsDecode :=
  ⟨by decide, decode_encode .charO, by decide, by decide, decode_encode .selA,
    fun a => decode_encode (.bassboost a), fun _ => by simp [decode, decodeKind, kindRows, Row.hits],
    fun b o m => decode_encode (.produce b o m), fun _ => rfl⟩

end Sys2Proof
end

section
/-! SUPPORT. The two set decoders (R71 to R74): a request's matching rows run from an empty working register, each row
joins its bits to it, and the answer is the union (log 8). -/

namespace Sys2Proof.Machine

theorem step_of_queue {s : State} {r : Request} {rest : List Request} (h : s.queue = r :: rest) :
    step s = serve r { s with queue := rest } := by
  rw [step, runNext, h]

/-! ### The working registers -/

/-- The state with `x` in the working register of `DecodeSel` and answered. -/
def withSel (x : BitVec 6) (s : State) : State := { s with dec := { s.dec with sel := x }, resp := .selection x }

/-- The state with `x` in the working register of the effective mask and answered. -/
def withEff (x : BitVec 5) (s : State) : State := { s with dec := { s.dec with eff := x }, resp := .effective x }

/-- The bit of the selection word a `CHAR8` row sets (R71). -/
def charBit : Instr → BitVec 6
  | .charR => 0b000001#6
  | .charD => 0b000010#6
  | .charB => 0b000100#6
  | .charO => 0b001000#6
  | .charF => 0b010000#6
  | .charA => 0b100000#6
  | _ => 0

/-- The stages a `SEL6` row adds to the effective mask (R73, R74). -/
def selStages : Instr → BitVec 5
  | .selR => 0b00001#5
  | .selD => 0b00010#5
  | .selB => 0b00100#5
  | .selO => 0b01000#5
  | .selF => 0b10000#5
  | .selA => 0b11111#5
  | _ => 0

theorem exec_charRow {r : Row 8} (hr : r ∈ charRows) (s : State) :
    exec r.instr s = .next (withSel (s.dec.sel ||| charBit r.instr) s) := by
  simp only [charRows, List.mem_cons, List.not_mem_nil, or_false] at hr
  rcases hr with rfl | rfl | rfl | rfl | rfl | rfl <;> rfl

theorem exec_selRow {r : Row 6} (hr : r ∈ selRows) (s : State) :
    exec r.instr s = .next (withEff (s.dec.eff ||| selStages r.instr) s) := by
  simp only [selRows, List.mem_cons, List.not_mem_nil, or_false] at hr
  rcases hr with rfl | rfl | rfl | rfl | rfl | rfl <;> rfl

/-- Settles O8: the pairs listed are the rows of each table with their bits. -/
theorem selectorRowsSetTheirBits : Obligations.SelectorRowsSetTheirBits := by
  constructor
  · intro i bit h s
    obtain ⟨r, hr, hpair⟩ := List.mem_map (l := charRows) (f := fun r => (r.instr, charBit r.instr)) |>.mp h
    cases hpair
    exact exec_charRow hr s
  · intro i stages h s
    obtain ⟨r, hr, hpair⟩ := List.mem_map (l := selRows) (f := fun r => (r.instr, selStages r.instr)) |>.mp h
    cases hpair
    exact exec_selRow hr s

/-! ### Unions of bits -/

/-- The union of the bits of the instructions of a list, joined to `x` one after the other. -/
def unionBits {w : Nat} (bits : Instr → BitVec w) (x : BitVec w) (is : List Instr) : BitVec w :=
  is.foldl (fun y i => y ||| bits i) x

@[simp] theorem unionBits_nil {w : Nat} (bits : Instr → BitVec w) (x : BitVec w) : unionBits bits x [] = x := rfl

@[simp] theorem unionBits_cons {w : Nat} (bits : Instr → BitVec w) (x : BitVec w) (i : Instr) (is : List Instr) :
    unionBits bits x (i :: is) = unionBits bits (x ||| bits i) is := rfl

theorem unionBits_append {w : Nat} (bits : Instr → BitVec w) (x : BitVec w) (is js : List Instr) :
    unionBits bits x (is ++ js) = unionBits bits (unionBits bits x is) js := List.foldl_append

theorem getLsbD_unionBits {w : Nat} (bits : Instr → BitVec w) (k : Nat) : ∀ (is : List Instr) (x : BitVec w),
    (unionBits bits x is).getLsbD k = true ↔ x.getLsbD k = true ∨ ∃ i ∈ is, (bits i).getLsbD k = true
  | [], x => by simp
  | i :: is, x => by
    rw [unionBits_cons, getLsbD_unionBits bits k is, BitVec.getLsbD_or, Bool.or_eq_true, or_assoc,
      List.exists_mem_cons_iff]

/-- A union depends on the members alone, since joining is commutative and idempotent. -/
theorem unionBits_congr {w : Nat} (bits : Instr → BitVec w) (x : BitVec w) {is js : List Instr}
    (h : ∀ i, i ∈ is ↔ i ∈ js) : unionBits bits x is = unionBits bits x js := by
  refine BitVec.eq_of_getLsbD_eq fun k _ => Bool.eq_iff_iff.mpr ?_
  simp only [getLsbD_unionBits, h]

/-- Instructions that each join their bits to a working register leave the union in it. -/
theorem execAll_unionBits {w : Nat} {bits : Instr → BitVec w} {working : BitVec w → State} :
    ∀ (is : List Instr) (x : BitVec w), (∀ i ∈ is, ∀ y, exec i (working y) = .next (working (y ||| bits i))) →
      execAll is (working x) = .next (working (unionBits bits x is))
  | [], _, _ => rfl
  | i :: is, x, h => by
    rw [execAll, h i List.mem_cons_self x]
    exact execAll_unionBits is _ fun j hj => h j (List.mem_cons_of_mem i hj)

/-! ### Selection strings (R71, R72) -/

theorem decodeChar_eq_some {c : Byte} {i : Instr} (h : decodeChar c = some i) :
    ∃ r ∈ charRows, r.hits c = true ∧ r.instr = i := by
  obtain ⟨r, hr, hi⟩ := Option.map_eq_some_iff.mp h
  exact ⟨r, List.mem_of_find?_eq_some hr, List.find?_some (p := fun r : Row _ => r.hits c) hr, hi⟩

theorem decodeChar_eq_none {c : Byte} (h : decodeChar c = none) : ∀ r ∈ charRows, ¬ r.hits c = true :=
  List.find?_eq_none.mp (Option.map_eq_none_iff.mp h)

/-- The loop body of `DecodeSel` for one character joins the bit of the row the character decodes to, if any. -/
theorem decodeSel_concat (str : List Byte) (c : Byte) :
    decodeSel (str ++ [c]) = unionBits charBit (decodeSel str) (decodeChar c).toList := by
  rw [decodeSel, List.foldl_append, ← decodeSel]
  cases h : decodeChar c with
  | none =>
    have hnone := decodeChar_eq_none h
    simp only [charRows, Row.hits, beq_iff_eq, List.forall_mem_cons] at hnone
    simp [hnone]
  | some i =>
    obtain ⟨r, hr, hhits, rfl⟩ := decodeChar_eq_some h
    simp only [charRows, List.mem_cons, List.not_mem_nil, or_false] at hr
    rcases hr with rfl | rfl | rfl | rfl | rfl | rfl <;> simp [charBit, eq_of_beq hhits]

theorem decodeSel_eq_unionBits (str : List Byte) : decodeSel str = unionBits charBit 0 (str.filterMap decodeChar) := by
  induction str using List.reverseRecOn with
  | nil => rfl
  | append_singleton str c ih =>
    have hlast : [c].filterMap decodeChar = (decodeChar c).toList := by cases h : decodeChar c <;> simp [h]
    rw [decodeSel_concat, ih, List.filterMap_append, hlast, unionBits_append]

/-- `DecodeSel` depends on the characters alone. -/
theorem decodeSel_congr {str str' : List Byte} (h : ∀ c, c ∈ str ↔ c ∈ str') : decodeSel str = decodeSel str' := by
  rw [decodeSel_eq_unionBits, decodeSel_eq_unionBits]
  exact unionBits_congr charBit 0 fun i => by simp only [List.mem_filterMap, h]

theorem serve_text (str : List Byte) (s : State) : serve (.text str) s = .next (withSel (decodeSel str) s) := by
  change execAll (str.filterMap decodeChar) (withSel 0 s) = _
  rw [decodeSel_eq_unionBits]
  refine execAll_unionBits (working := (withSel · s)) _ 0 fun i hi y => ?_
  obtain ⟨c, -, hc⟩ := List.mem_filterMap.mp hi
  obtain ⟨r, hr, -, rfl⟩ := decodeChar_eq_some hc
  exact exec_charRow hr _

/-- Settles O5: the step runs the string's rows from an empty selection word. -/
theorem selectionStringDecoded : Obligations.SelectionStringDecoded := by
  intro s str rest hqueue
  rw [step_of_queue hqueue, serve_text]
  rfl

/-- Settles O6: both steps answer `DecodeSel`, which depends on the characters alone. -/
theorem selectionIgnoresOrderAndRepeats : Obligations.SelectionIgnoresOrderAndRepeats := by
  intro s str str' rest h
  rw [selectionStringDecoded _ str rest rfl, selectionStringDecoded _ str' rest rfl, decodeSel_congr h]

/-! ### Selection words (R73, R74) -/

/-- `EFF` is the union of the stages of a word's rows: bits 4 to 0 add their own, bit 5 adds all five (R74). -/
theorem effOf_eq_unionBits : ∀ w : BitVec 6, effOf w = unionBits selStages 0 (decodeSelect w) := by decide

theorem serve_select (w : BitVec 6) (s : State) : serve (.select w) s = .next (withEff (effOf w) s) := by
  change execAll (decodeSelect w) (withEff 0 s) = _
  rw [effOf_eq_unionBits]
  refine execAll_unionBits (working := (withEff · s)) _ 0 fun i hi y => ?_
  obtain ⟨r, hr, rfl⟩ := List.mem_map.mp hi
  exact exec_selRow (List.mem_of_mem_filter hr) _

/-- Settles O7: the step runs the word's rows from an empty mask, and their union is `EFF`. -/
theorem selectionWordExpanded : Obligations.SelectionWordExpanded := by
  refine ⟨fun _ => rfl, fun s w rest hqueue => ?_⟩
  rw [step_of_queue hqueue, serve_select]
  rfl

end Sys2Proof.Machine
end

section
/-! SUPPORT. Functions that process one sample at a time: what such a function does not see of the state it works on, and
that functions that do not see each other may take the samples block by block or in turn (R99, R100). -/

namespace Sys2Proof.Machine

/-! ### What a function does not see -/

/-- `f` neither reads nor disturbs what `φ` changes of the state: applied before or after, `φ` gives the same. -/
def Unseen {α β : Type} (φ : State → State) (f : α → State → β × State) : Prop :=
  ∀ x s, f x (φ s) = ((f x s).1, φ (f x s).2)

theorem Unseen.comp {α β : Type} {φ ψ : State → State} {f : α → State → β × State} (hφ : Unseen φ f)
    (hψ : Unseen ψ f) : Unseen (fun s => φ (ψ s)) f := fun x s => by rw [hφ, hψ]

/-- Neither of the two sees what the other does to the state. -/
def Independent {α β γ δ : Type} (f : α → State → β × State) (g : γ → State → δ × State) : Prop :=
  (∀ x, Unseen (fun s => (f x s).2) g) ∧ (∀ y, Unseen (fun s => (g y s).2) f)

theorem Independent.symm {α β γ δ : Type} {f : α → State → β × State} {g : γ → State → δ × State}
    (h : Independent f g) : Independent g f :=
  ⟨h.2, h.1⟩

/-- What the second returns does not depend on whether the first has run. -/
theorem Independent.fst {α β γ δ : Type} {f : α → State → β × State} {g : γ → State → δ × State}
    (h : Independent f g) (x : α) (y : γ) (s : State) : (g y (f x s).2).1 = (g y s).1 := by
  rw [h.1 x y s]

/-- The first may run after the second instead of before it. -/
theorem Independent.swap {α β γ δ : Type} {f : α → State → β × State} {g : γ → State → δ × State}
    (h : Independent f g) (x : α) (y : γ) (s : State) : f x (g y s).2 = ((f x s).1, (g y (f x s).2).2) :=
  h.2 y x s

/-- What passes its sample and leaves the state does not see, and is not seen. -/
theorem pass_independent {α β γ : Type} (g : β → State → γ × State) :
    Independent (fun (x : α) (s : State) => (x, s)) g :=
  ⟨fun _ _ _ => rfl, fun _ _ _ => rfl⟩

/-! ### A list of samples -/

/-- The samples of a list processed one by one. -/
def runOver (f : F → State → F × State) : List F → State → List F × State
  | [], s => ([], s)
  | x :: xs, s =>
    let r := f x s
    let rest := runOver f xs r.2
    (r.1 :: rest.1, rest.2)

theorem runOver_cons (f : F → State → F × State) (x : F) (xs : List F) (s : State) :
    runOver f (x :: xs) s = ((f x s).1 :: (runOver f xs (f x s).2).1, (runOver f xs (f x s).2).2) := rfl

@[simp] theorem runOver_length (f : F → State → F × State) (xs : List F) (s : State) :
    (runOver f xs s).1.length = xs.length := by
  induction xs generalizing s with
  | nil => rfl
  | cons x xs ih => simp [runOver_cons, ih]

@[simp] theorem runOver_pass (xs : List F) (s : State) : runOver (fun x s => (x, s)) xs s = (xs, s) := by
  induction xs with
  | nil => rfl
  | cons x xs ih => rw [runOver_cons, ih]

theorem Unseen.runOver {φ : State → State} {f : F → State → F × State} (h : Unseen φ f) : Unseen φ (runOver f) := by
  intro xs
  induction xs with
  | nil => exact fun _ => rfl
  | cons x xs ih => exact fun s => by simp only [runOver_cons, h x s, ih]

theorem Independent.runOver {α β : Type} {f : F → State → F × State} {g : α → State → β × State}
    (h : Independent f g) : Independent (runOver f) g := by
  refine ⟨fun xs => ?_, fun y => (h.2 y).runOver⟩
  induction xs with
  | nil => exact fun _ _ => rfl
  | cons x xs ih => exact ih.comp (h.1 x)

/-- Block by block is sample by sample, for two functions that do not see each other: the first may run over the whole
list before the second begins. -/
theorem runOver_pipe {f g : F → State → F × State} (h : Independent f g) (xs : List F) (s : State) :
    runOver (fun x s => g (f x s).1 (f x s).2) xs s = runOver g (runOver f xs s).1 (runOver f xs s).2 := by
  induction xs generalizing s with
  | nil => rfl
  | cons x xs ih => simp only [runOver_cons, ih, h.runOver.swap, h.runOver.fst]

/-! ### A series of functions -/

/-- The functions `f k`, for `k` of a list, one after another on a sample, or on a block of samples. -/
def through {α : Type} (f : Kind → α → State → α × State) (ks : List Kind) (x : α) (s : State) : α × State :=
  ks.foldl (fun p k => f k p.1 p.2) (x, s)

theorem through_cons {α : Type} (f : Kind → α → State → α × State) (k : Kind) (ks : List Kind) (x : α) (s : State) :
    through f (k :: ks) x s = through f ks (f k x s).1 (f k x s).2 := rfl

theorem Unseen.through {α : Type} {φ : State → State} {f : Kind → α → State → α × State} {ks : List Kind}
    (h : ∀ k ∈ ks, Unseen φ (f k)) : Unseen φ (through f ks) := by
  induction ks with
  | nil => exact fun _ _ => rfl
  | cons k ks ih =>
    intro x s
    simp only [through_cons, h k List.mem_cons_self x s]
    exact ih (fun j hj => h j (List.mem_cons_of_mem k hj)) _ _

theorem Independent.through {α β γ : Type} {f : Kind → α → State → α × State} {g : β → State → γ × State}
    {ks : List Kind} (h : ∀ k ∈ ks, Independent (f k) g) : Independent (through f ks) g := by
  refine ⟨?_, fun y => Unseen.through fun k hk => (h k hk).2 y⟩
  induction ks with
  | nil => exact fun _ _ _ => rfl
  | cons k ks ih =>
    intro x y s
    have hk := h k List.mem_cons_self
    have hrest := ih (fun j hj => h j (List.mem_cons_of_mem k hj)) (f k x s).1 y (f k x s).2
    simp only [through_cons] at hrest ⊢
    rw [hrest, hk.fst, hk.swap]

/-- A series of functions that pairwise do not see each other runs over a list sample by sample as it does block by
block. -/
theorem runOver_through {f : Kind → F → State → F × State} {ks : List Kind}
    (h : ks.Pairwise fun j k => Independent (f j) (f k)) (xs : List F) (s : State) :
    runOver (through f ks) xs s = through (fun k => runOver (f k)) ks xs s := by
  induction ks generalizing xs s with
  | nil => exact runOver_pass xs s
  | cons k ks ih =>
    obtain ⟨hk, hks⟩ := List.pairwise_cons.mp h
    have hind : Independent (f k) (through f ks) :=
      (Independent.through fun j hj => (hk j hj).symm).symm
    exact (runOver_pipe hind xs s).trans (ih hks _ _)

end Sys2Proof.Machine
end

section
/-! SUPPORT. What a stage owns (R20, R58): its record and its draw counter. From the one fact that it reads and writes
nothing else, that two stages do not see each other, and that none sees the rest of the state. -/

namespace Sys2Proof.Machine

/-- `t` with what stage `k` owns taken from `s`: its record, and its draw counter (log 2). -/
def withStage (k : Kind) (s t : State) : State :=
  match k with
  | .reverb => { t with hw := { t.hw with rv := s.hw.rv }, draws := { t.draws with rv := s.draws.rv } }
  | .distortion => { t with hw := { t.hw with dt := s.hw.dt }, draws := { t.draws with dt := s.draws.dt } }
  | .bassboost => { t with hw := { t.hw with bb := s.hw.bb }, draws := { t.draws with bb := s.draws.bb } }
  | .overdrive => { t with hw := { t.hw with od := s.hw.od }, draws := { t.draws with od := s.draws.od } }
  | .distance => { t with hw := { t.hw with ds := s.hw.ds }, draws := { t.draws with ds := s.draws.ds } }

/-- `t` with another buffer. -/
def withBuf (b : List F) (t : State) : State := { t with buf := b }

/-- `t` with all that a chain works on taken from `s`: `S` but for the phase and the fault code, the draw counters, and
the parameters of the implementation. -/
def withWork (s t : State) : State :=
  { t with
    hw := { s.hw with phase := t.hw.phase, fault := t.hw.fault }
    draws := s.draws
    impl := s.impl }

@[simp] theorem withStage_self (k : Kind) (s : State) : withStage k s s = s := by cases k <;> rfl

@[simp] theorem withStage_impl (k : Kind) (s t : State) : (withStage k s t).impl = t.impl := by cases k <;> rfl

theorem withStage_comm {j k : Kind} (h : j ≠ k) (s s' t : State) :
    withStage j s (withStage k s' t) = withStage k s' (withStage j s t) := by
  cases j <;> cases k <;> simp_all [withStage]

theorem withStage_withBuf (k : Kind) (b : List F) (s t : State) :
    withStage k s (withBuf b t) = withBuf b (withStage k s t) := by cases k <;> rfl

theorem withStage_withWork_self (k : Kind) (s t : State) : withStage k s (withWork s t) = withWork s t := by
  cases k <;> rfl

theorem withWork_withStage (k : Kind) (u s t : State) : withWork (withStage k u s) t = withStage k u (withWork s t) := by
  cases k <;> rfl

/-! ### One stage -/

/-- A stage reads only what it owns, and the parameters of the implementation, and writes only what it owns: on a state
that agrees with `s` in these it does what it does on `s`. -/
theorem stageSample_of_agree {k : Kind} {s t : State} (h : withStage k s t = t) (himpl : t.impl = s.impl) (x : F) :
    stageSample k x t = ((stageSample k x s).1, withStage k (stageSample k x s).2 t) := by
  rw [← h]
  cases k with
  | reverb => cases e : s.hw.rv <;> simp [stageSample, reverbSample, withStage, e]
  | distortion => cases e : s.hw.dt <;> simp [stageSample, distortionSample, withStage, e]
  | bassboost => cases e : s.hw.bb <;> simp [stageSample, bassboostSample, withStage, e]
  | overdrive => cases e : s.hw.od <;> simp [stageSample, overdriveSample, withStage, e, himpl]
  | distance => cases e : s.hw.ds <;> simp [stageSample, distanceSample, withStage, e]

theorem stageSample_own (k : Kind) (x : F) (s : State) :
    (stageSample k x s).2 = withStage k (stageSample k x s).2 s :=
  congrArg Prod.snd (stageSample_of_agree (withStage_self k s) rfl x)

/-- A stage does not see a change that leaves what it reads and that its own writing does not touch. -/
theorem stageSample_unseen {φ : State → State} {k : Kind} (hreads : ∀ s, withStage k s (φ s) = φ s)
    (himpl : ∀ s, (φ s).impl = s.impl) (hwrites : ∀ u s, φ (withStage k u s) = withStage k u (φ s)) :
    Unseen φ (stageSample k) := by
  intro x s
  rw [stageSample_of_agree (hreads s) (himpl s), ← hwrites, ← stageSample_own]

theorem withBuf_unseen (b : List F) (k : Kind) : Unseen (withBuf b) (stageSample k) :=
  stageSample_unseen (fun s => by rw [withStage_withBuf, withStage_self]) (fun _ => rfl)
    fun _ _ => (withStage_withBuf k b _ _).symm

theorem withWork_unseen (t : State) (k : Kind) : Unseen (withWork · t) (stageSample k) :=
  stageSample_unseen (fun s => withStage_withWork_self k s t) (fun _ => rfl) fun u s => withWork_withStage k u s t

theorem withStage_unseen {j k : Kind} (h : j ≠ k) (u : State) : Unseen (withStage j u) (stageSample k) :=
  stageSample_unseen (fun s => by rw [← withStage_comm h, withStage_self]) (withStage_impl j u)
    fun _ _ => withStage_comm h _ _ _

theorem stageSample_unseen_by_other {j k : Kind} (h : j ≠ k) (x : F) :
    Unseen (fun s => (stageSample j x s).2) (stageSample k) := by
  refine stageSample_unseen (fun s => ?_) (stageSample_impl j x) fun u s => ?_
  · rw [stageSample_own, ← withStage_comm h, withStage_self]
  · rw [withStage_unseen h.symm u x s]

/-- No stage sees another one run. -/
theorem stageSample_independent {j k : Kind} (h : j ≠ k) : Independent (stageSample j) (stageSample k) :=
  ⟨stageSample_unseen_by_other h, stageSample_unseen_by_other h.symm⟩

theorem stageSample_eff (k : Kind) (x : F) (s : State) : (stageSample k x s).2.hw.eff = s.hw.eff := by
  obtain ⟨-, -, heff, -⟩ := (stageSample_recordStep k x s).sameParameters
  exact heff

/-! ### The stages of a mask -/

/-- Stage `k` where the mask `e` selects it; else the sample passes (R98, R102). -/
def maskedSample (e : BitVec 5) (k : Kind) (x : F) (s : State) : F × State :=
  if selects e k = true then stageSample k x s else (x, s)

theorem maskedSample_of_selected {e : BitVec 5} {k : Kind} (h : selects e k = true) :
    maskedSample e k = stageSample k := by
  funext x s
  exact if_pos h

theorem maskedSample_of_not_selected {e : BitVec 5} {k : Kind} (h : selects e k = false) :
    maskedSample e k = fun x s => (x, s) := by
  funext x s
  exact if_neg (Bool.eq_false_iff.mp h)

theorem Unseen.maskedSample {φ : State → State} {e : BitVec 5} {k : Kind}
    (h : selects e k = true → Unseen φ (stageSample k)) : Unseen φ (maskedSample e k) := by
  cases hk : selects e k with
  | true => rw [maskedSample_of_selected hk]; exact h hk
  | false => rw [maskedSample_of_not_selected hk]; exact fun _ _ => rfl

theorem maskedSample_independent {j k : Kind} (h : j ≠ k) (e : BitVec 5) :
    Independent (maskedSample e j) (maskedSample e k) := by
  cases hj : selects e j with
  | false => rw [maskedSample_of_not_selected hj]; exact pass_independent _
  | true =>
    cases hk : selects e k with
    | false => rw [maskedSample_of_not_selected hk]; exact (pass_independent _).symm
    | true =>
      rw [maskedSample_of_selected hj, maskedSample_of_selected hk]
      exact stageSample_independent h

theorem maskedSample_eff (e : BitVec 5) (k : Kind) (x : F) (s : State) : (maskedSample e k x s).2.hw.eff = s.hw.eff := by
  cases hk : selects e k with
  | true => rw [maskedSample_of_selected hk, stageSample_eff]
  | false => rw [maskedSample_of_not_selected hk]

/-! ### Sample by sample (R100) -/

/-- The whole chain on one sample, under the mask the state has; and the mask afterwards. -/
theorem throughStages_eq (x : F) (s : State) :
    throughStages x s = through (maskedSample s.hw.eff) canonicalOrder x s ∧ (throughStages x s).2.hw.eff = s.hw.eff := by
  have key : ∀ (ks : List Kind) (p : F × State), p.2.hw.eff = s.hw.eff →
      ks.foldl (fun p k => if selects p.2.hw.eff k then stageSample k p.1 p.2 else p) p =
        ks.foldl (fun p k => maskedSample s.hw.eff k p.1 p.2) p ∧
      (ks.foldl (fun p k => maskedSample s.hw.eff k p.1 p.2) p).2.hw.eff = s.hw.eff := by
    intro ks
    induction ks with
    | nil => exact fun p hp => ⟨rfl, hp⟩
    | cons k ks ih =>
      intro p hp
      simp only [List.foldl_cons, hp]
      exact ih _ ((maskedSample_eff _ k _ _).trans hp)
  obtain ⟨hfold, heff⟩ := key canonicalOrder (x, s) rfl
  exact ⟨hfold, (congrArg (·.2.hw.eff) hfold).trans heff⟩

theorem oneAtATime_eq_runOver (xs : List F) (s : State) :
    oneAtATime xs s = runOver (through (maskedSample s.hw.eff) canonicalOrder) xs s := by
  induction xs generalizing s with
  | nil => rfl
  | cons x xs ih =>
    obtain ⟨hthrough, heff⟩ := throughStages_eq x s
    rw [hthrough] at heff
    simp only [oneAtATime, ih, runOver_cons, hthrough, heff]

@[simp] theorem oneAtATime_length (xs : List F) (s : State) : (oneAtATime xs s).1.length = xs.length := by
  simp [oneAtATime_eq_runOver]

theorem oneAtATime_append (xs ys : List F) (s : State) :
    oneAtATime (xs ++ ys) s =
      ((oneAtATime xs s).1 ++ (oneAtATime ys (oneAtATime xs s).2).1, (oneAtATime ys (oneAtATime xs s).2).2) := by
  induction xs generalizing s with
  | nil => rfl
  | cons x xs ih => simp only [List.cons_append, oneAtATime, ih]

/-- A change that no selected stage sees, the chain does not see. -/
theorem oneAtATime_of_unseen {φ : State → State} {s : State} (heff : (φ s).hw.eff = s.hw.eff)
    (h : ∀ k, selects s.hw.eff k = true → Unseen φ (stageSample k)) (xs : List F) :
    oneAtATime xs (φ s) = ((oneAtATime xs s).1, φ (oneAtATime xs s).2) := by
  simp only [oneAtATime_eq_runOver, heff]
  exact (Unseen.through fun k _ => .maskedSample (h k)).runOver xs s

theorem oneAtATime_withWork (xs : List F) (s t : State) :
    oneAtATime xs (withWork s t) = ((oneAtATime xs s).1, withWork (oneAtATime xs s).2 t) :=
  oneAtATime_of_unseen (φ := (withWork · t)) (s := s) rfl (fun k _ => withWork_unseen t k) xs

/-- What a stage owns that the mask does not select is left as it is. -/
theorem oneAtATime_keeps_unselected {k : Kind} {s : State} (hk : selects s.hw.eff k = false) (xs : List F) :
    withStage k s (oneAtATime xs s).2 = (oneAtATime xs s).2 := by
  have hother : ∀ j, selects s.hw.eff j = true → k ≠ j := by
    rintro j hj rfl
    exact Bool.false_ne_true (hk.symm.trans hj)
  have hunseen := oneAtATime_of_unseen (φ := withStage k s) (s := s) (by rw [withStage_self])
    (fun j hj => withStage_unseen (hother j hj) s) xs
  rw [withStage_self] at hunseen
  exact (congrArg Prod.snd hunseen).symm

/-- Sample by sample is stage by stage, since no stage sees another (R100). -/
theorem oneAtATime_eq_through (xs : List F) (s : State) :
    oneAtATime xs s = through (fun k => runOver (maskedSample s.hw.eff k)) canonicalOrder xs s := by
  have hdistinct : canonicalOrder.Pairwise (· ≠ ·) := by decide
  rw [oneAtATime_eq_runOver]
  exact runOver_through (hdistinct.imp fun h => maskedSample_independent h _) xs s

end Sys2Proof.Machine
end

section
/-! SUPPORT. The block a `PRODUCE` fills (R54, R93), the stages over it, and what an accepted `PRODUCE` leaves (R98). -/

namespace Sys2Proof.Machine

/-! ### The block -/

theorem bufWrite_bufFill {a c : Nat} (h : c < a) (b xs : List F) (y : F) :
    bufWrite (bufFill b a xs) c y = bufFill (bufWrite b c y) a xs := by
  induction xs generalizing b a with
  | nil => rfl
  | cons x xs ih =>
    have hcomm : bufWrite (bufWrite b a x) c y = bufWrite (bufWrite b c y) a x := List.set_comm _ _ (by omega)
    rw [bufFill, bufFill, ih (by omega), hcomm]

theorem bufRead_bufFill_head {a : Nat} {b : List F} (h : a < b.length) (x : F) (xs : List F) :
    bufRead (bufFill b a (x :: xs)) a = x := by
  rw [bufFill, bufFill_outside _ _ _ _ (.inl a.lt_succ_self), bufRead_write_same h]

theorem bufWrite_bufFill_head (b : List F) (a : Nat) (x y : F) (xs : List F) :
    bufWrite (bufFill b a (x :: xs)) a y = bufFill b a (y :: xs) := by
  have hset : bufWrite (bufWrite b a x) a y = bufWrite b a y := List.set_set _
  rw [bufFill, bufFill, bufWrite_bufFill a.lt_succ_self, hset]

/-- A block that has been filled holds what it was filled with. -/
theorem take_drop_bufFill {a : Nat} {b xs : List F} (h : a + xs.length ≤ b.length) :
    ((bufFill b a xs).drop a).take xs.length = xs := by
  induction xs generalizing b a with
  | nil => rfl
  | cons x xs ih =>
    rw [List.length_cons] at h ⊢
    have ha : a < (bufFill b a (x :: xs)).length := by rw [bufFill_length]; omega
    have hhead : (bufFill b a (x :: xs))[a] = x :=
      (List.getD_eq_getElem _ fZero ha).symm.trans (bufRead_bufFill_head (by omega) x xs)
    rw [List.drop_eq_getElem_cons ha, List.take_succ_cons, hhead, bufFill,
      ih (by rw [bufWrite_length]; omega)]

/-- `s` with the buffer `b`, filled with the samples `xs` from element `a` on. -/
def withBlock (b : List F) (a : Nat) (xs : List F) (s : State) : State := withBuf (bufFill b a xs) s

/-! ### The stages over the block -/

/-- The inner loop of `PRODUCE` over a block runs its step over the block's samples (R98, R99). -/
theorem sweep_withBlock {f : F → State → F × State} (hf : ∀ b, Unseen (withBuf b) f) {a : Nat} {b xs : List F}
    (h : a + xs.length ≤ b.length) (s : State) :
    sweep f a xs.length (withBlock b a xs s) = withBlock b a (runOver f xs s).1 (runOver f xs s).2 := by
  induction xs generalizing a b s with
  | nil => rfl
  | cons x xs ih =>
    rw [List.length_cons] at h ⊢
    have hfirst : sampleAt f a (withBlock b a (x :: xs) s) =
        withBlock (bufWrite b a (f x s).1) (a + 1) xs (f x s).2 := by
      have hread : bufRead (withBlock b a (x :: xs) s).buf a = x := bufRead_bufFill_head (by omega) x xs
      have hstep : f x (withBlock b a (x :: xs) s) = _ := hf _ x s
      rw [sampleAt, hread, hstep]
      exact congrArg (withBuf · (f x s).2) (bufWrite_bufFill_head b a x (f x s).1 xs)
    rw [sweep, hfirst, ih (by rw [bufWrite_length]; omega)]
    rfl

/-- Stage `k` over the block, where the mask `e` selects it (R98). -/
def maskedStage (e : BitVec 5) (a n : Nat) (s : State) (k : Kind) : State :=
  if selects e k = true then sweep (stageSample k) a n s else s

theorem sweep_stageSample_eff (k : Kind) (a n : Nat) (s : State) :
    (sweep (stageSample k) a n s).hw.eff = s.hw.eff :=
  sweep_induction (fun u => u.hw.eff = s.hw.eff)
    (fun _ u hu => (stageSample_eff k _ u).trans hu) n a s rfl

/-- No stage writes the mask, so the chain is that of the mask it started with. -/
theorem throughChain_eq_maskedStages (a n : Nat) (s : State) :
    throughChain a n s = canonicalOrder.foldl (maskedStage s.hw.eff a n) s := by
  have key : ∀ (ks : List Kind) (u : State), u.hw.eff = s.hw.eff →
      ks.foldl (chainStage a n) u = ks.foldl (maskedStage s.hw.eff a n) u := by
    intro ks
    induction ks with
    | nil => exact fun _ _ => rfl
    | cons k ks ih =>
      intro u hu
      have hstage : chainStage a n u k = maskedStage s.hw.eff a n u k := by rw [chainStage, hu, maskedStage]
      have heff : (maskedStage s.hw.eff a n u k).hw.eff = s.hw.eff := by
        unfold maskedStage
        split
        · exact (sweep_stageSample_eff k a n u).trans hu
        · exact hu
      rw [List.foldl_cons, List.foldl_cons, hstage, ih _ heff]
  exact key canonicalOrder s rfl

theorem maskedStage_withBlock (e : BitVec 5) (k : Kind) {a : Nat} {b xs : List F} (h : a + xs.length ≤ b.length)
    (s : State) :
    maskedStage e a xs.length (withBlock b a xs s) k =
      withBlock b a (runOver (maskedSample e k) xs s).1 (runOver (maskedSample e k) xs s).2 := by
  cases hk : selects e k with
  | true => rw [maskedStage, if_pos hk, maskedSample_of_selected hk, sweep_withBlock (withBuf_unseen · k) h]
  | false => rw [maskedStage, if_neg (Bool.eq_false_iff.mp hk), maskedSample_of_not_selected hk, runOver_pass]

/-- The chain over a block passes its samples one at a time through all selected stages (R98, R100). -/
theorem throughChain_withBlock {a : Nat} {b xs : List F} (h : a + xs.length ≤ b.length) (s : State) :
    throughChain a xs.length (withBlock b a xs s) = withBlock b a (oneAtATime xs s).1 (oneAtATime xs s).2 := by
  have key : ∀ (ks : List Kind) (ys : List F) (u : State), ys.length = xs.length →
      ks.foldl (maskedStage s.hw.eff a xs.length) (withBlock b a ys u) =
        withBlock b a (through (fun k => runOver (maskedSample s.hw.eff k)) ks ys u).1
          (through (fun k => runOver (maskedSample s.hw.eff k)) ks ys u).2 := by
    intro ks
    induction ks with
    | nil => exact fun _ _ _ => rfl
    | cons k ks ih =>
      intro ys u hys
      have hstage := maskedStage_withBlock s.hw.eff k (hys ▸ h) u
      rw [hys] at hstage
      rw [List.foldl_cons, hstage, ih _ _ ((runOver_length _ ys u).trans hys), through_cons]
  rw [throughChain_eq_maskedStages, oneAtATime_eq_through]
  exact key canonicalOrder xs s rfl

/-! ### An accepted `PRODUCE` -/

theorem absentStage_eq_none {hw : Hw} (h : ∀ k, selects hw.eff k = true → stagePresent hw k = true) :
    absentStage hw = none := by
  rw [absentStage, List.find?_eq_none]
  intro k _ hk
  simp only [Bool.and_eq_true, Bool.not_eq_true'] at hk
  exact Bool.false_ne_true (hk.2.symm.trans (h k hk.1))

theorem exec_produce_of_phase (buf : Option (List F)) (offset maxCount : Nat) {s : State} (h : s.hw.phase ≠ .run) :
    exec (.produce buf offset maxCount) s = .next (respond (.refused .wrongPhase) s) :=
  if_pos h

theorem exec_produce_of_beyond {buf : Option (List F)} {offset maxCount : Nat} {s : State} (hrun : s.hw.phase = .run)
    (h : (buf.getD s.buf).length < offset + maxCount) :
    exec (.produce buf offset maxCount) s = .next (respond (.refused .beyondBuffer) s) :=
  (if_neg (not_not.mpr hrun)).trans (if_pos h)

/-- `s` after the source has been asked for at most `maxCount` samples (R96). -/
def pulled (maxCount : Nat) (s : State) : State := { s with src := (pull maxCount s.src).2 }

/-- The source's samples stand in the region, the chain runs over it, and the count is the answer (R91, R98). -/
theorem exec_produce_of_ready {buf : Option (List F)} {offset maxCount : Nat} {s : State}
    (h : ProduceReady buf offset maxCount s) :
    let xs := (pull maxCount s.src).1
    exec (.produce buf offset maxCount) s = .next (respond (.count xs.length)
      (throughChain offset xs.length (withBlock (buf.getD s.buf) offset xs (pulled maxCount s)))) := by
  obtain ⟨hrun, hrange, hpresent⟩ := h
  change execProduce buf offset maxCount s = _
  rw [execProduce, if_neg (not_not.mpr hrun), if_neg (not_lt.mpr hrange), absentStage_eq_none hpresent]
  rfl

theorem pull_within {buf : Option (List F)} {offset maxCount : Nat} {s : State} (h : ProduceReady buf offset maxCount s) :
    offset + (pull maxCount s.src).1.length ≤ (buf.getD s.buf).length := by
  have hle := pull_length_le maxCount s.src
  obtain ⟨-, hrange, -⟩ := h
  omega

/-- An accepted `PRODUCE` leaves in the region the source's samples, passed one at a time through the chain as it stands
before the request, and of the rest of the state only what the chain works on and the source changed (R98, R100). -/
theorem exec_produce_eq {buf : Option (List F)} {offset maxCount : Nat} {s : State}
    (h : ProduceReady buf offset maxCount s) :
    let xs := (pull maxCount s.src).1
    let o := oneAtATime xs s
    exec (.produce buf offset maxCount) s = .next (respond (.count xs.length)
      (withBlock (buf.getD s.buf) offset o.1 (withWork o.2 (pulled maxCount s)))) := by
  intro xs o
  have hchain := throughChain_withBlock (pull_within h) (pulled maxCount s)
  have hsource : oneAtATime xs (pulled maxCount s) = (o.1, withWork o.2 (pulled maxCount s)) :=
    oneAtATime_withWork xs s (pulled maxCount s)
  rw [hsource] at hchain
  exact (exec_produce_of_ready h).trans (by rw [hchain])

/-- What the source hands over: the next `n` samples of its stream, at most `maxCount`, and none only when none is asked
for or there (R96). -/
theorem pull_eq_take (maxCount : Nat) (src : Source) :
    ∃ n, n ≤ maxCount ∧ n ≤ src.stream.length ∧ (n = 0 ↔ maxCount = 0 ∨ src.stream = []) ∧
      (pull maxCount src).1 = src.stream.take n ∧ (pull maxCount src).1.length = n ∧
      (pull maxCount src).2.stream = src.stream.drop n := by
  rcases pull_cases maxCount src with ⟨hnone, e⟩ | ⟨n, h1, hmax, hlen, e⟩
  · exact ⟨0, Nat.zero_le _, Nat.zero_le _, iff_of_true rfl hnone, by rw [e]; rfl, by rw [e]; rfl, by rw [e]; rfl⟩
  · have hsome : ¬ (maxCount = 0 ∨ src.stream = []) := by
      rintro (h | h)
      · omega
      · rw [h, List.length_nil] at hlen; omega
    exact ⟨n, hmax, hlen, iff_of_false (by omega) hsome, by rw [e], by rw [e, List.length_take]; omega, by rw [e]⟩

/-- Settles O38: the five stages in turn, each under the mask the request found. -/
theorem produceRunsCanonicalOrder : Obligations.ProduceRunsCanonicalOrder := by
  refine ⟨fun s buf offset maxCount h => exec_produce_of_phase buf offset maxCount h,
    fun s buf offset maxCount hrun h => exec_produce_of_beyond hrun h, fun s buf offset maxCount h => ?_⟩
  have hexec := exec_produce_of_ready h
  simp only [throughChain_eq_maskedStages] at hexec
  exact hexec

/-- Settles O39: the count is that of the source's samples, whatever the stages do. -/
theorem produceReturnsSourceCount : Obligations.ProduceReturnsSourceCount := by
  intro s buf offset maxCount h
  obtain ⟨n, hmax, hlen, hzero, htake, hcount, hdrop⟩ := pull_eq_take maxCount s.src
  exact ⟨_, n, exec_produce_eq h, congrArg Response.count hcount, hmax, hlen, hdrop, htake, hzero⟩

/-- Settles O40: the block is written within the count, and `S` by stage steps of the selected stages alone. -/
theorem produceFrame : Obligations.ProduceFrame := by
  intro s buf offset maxCount h
  have hexec := exec_produce_eq h
  have himpl := (exec_effect hexec).2
  have hparams := (exec_effect hexec).1.sameParameters h.1 nofun
  have hkept := fun k (hk : selects s.hw.eff k = false) => (oneAtATime_keeps_unselected hk (pull maxCount s.src).1).symm
  refine ⟨_, _, hexec, rfl, bufFill_length _ _ _, fun i hi => bufFill_outside _ _ _ _ ?_, rfl, rfl, hparams,
    fun hk => congrArg (·.hw.rv) (hkept _ hk), fun hk => congrArg (·.hw.bb) (hkept _ hk),
    fun hk => congrArg (·.hw.ds) (hkept _ hk), rfl, rfl, himpl⟩
  rwa [oneAtATime_length]

/-- Settles O41: under the empty mask every stage passes the block on. -/
theorem emptyChainIsIdentity : Obligations.EmptyChainIsIdentity := by
  intro s buf offset maxCount h heff
  obtain ⟨n, -, -, -, htake, rfl, -⟩ := pull_eq_take maxCount s.src
  have hpass : oneAtATime (pull maxCount s.src).1 s = ((pull maxCount s.src).1, s) := by
    rw [oneAtATime_eq_through, heff]
    have hk : ∀ k, maskedSample 0b00000#5 k = fun x s => (x, s) := fun k =>
      maskedSample_of_not_selected (by cases k <;> rfl)
    simp [hk, through]
  have hexec := exec_produce_eq h
  simp only [hpass] at hexec
  exact ⟨_, _, hexec, rfl, rfl, (take_drop_bufFill (pull_within h)).trans htake, rfl⟩

/-- Settles O42: with nothing handed over the source is as it was, and no stage runs. -/
theorem zeroCountChangesNothing : Obligations.ZeroCountChangesNothing := by
  intro s buf offset maxCount h hnone
  rcases pull_cases maxCount s.src with ⟨-, e⟩ | ⟨n, h1, hmax, hlen, -⟩
  · have hexec := exec_produce_eq h
    simp only [pulled, e] at hexec
    exact hexec
  · rcases hnone with h0 | h0
    · omega
    · rw [h0, List.length_nil] at hlen; omega

end Sys2Proof.Machine
end

section
/-! SUPPORT. A chain of one recursive stage (R106, R142): its samples are the run of the stage's record. -/

namespace Sys2Proof.Machine

/-- A run of a record over a list of samples, `w` draws a sample, is what a stage does over the list that steps the
record of a state (`put` places a record and a draw counter) and advances its counter by `w`. -/
theorem runOver_eq_run {ρ : Type} {f : F → State → F × State} {put : ρ → Nat → State} {draw : Nat → F} {w : Nat}
    {step : (Nat → F) → ρ → F → F × ρ} {run : (Nat → F) → ρ → List F → List F × ρ}
    (hf : ∀ x r d, f x (put r d) =
      ((step (fun j => draw (d + j)) r x).1, put (step (fun j => draw (d + j)) r x).2 (d + w)))
    (hnil : ∀ q r, run q r [] = ([], r))
    (hcons : ∀ q r x xs, run q r (x :: xs) =
      ((step q r x).1 :: (run (fun j => q (j + w)) (step q r x).2 xs).1, (run (fun j => q (j + w)) (step q r x).2 xs).2))
    (xs : List F) (r : ρ) (d : Nat) :
    runOver f xs (put r d) =
      ((run (fun j => draw (d + j)) r xs).1, put (run (fun j => draw (d + j)) r xs).2 (d + w * xs.length)) := by
  induction xs generalizing r d with
  | nil => rw [hnil]; rfl
  | cons x xs ih =>
    have hdraw : (fun j => draw (d + w + j)) = fun j => draw (d + (j + w)) := by
      funext j; congr 1; omega
    have hcount : d + w + w * xs.length = d + w * (xs.length + 1) := by ring
    simp only [runOver_cons, hf, ih, hcons, hdraw, hcount, List.length_cons]

theorem runOver_reverb {s : State} {dl : DelayLine} (h : s.hw.rv = some dl) (xs : List F) :
    let r := dlRun (fun j => nanDraw .reverb (s.draws.rv + j)) dl xs
    runOver (stageSample .reverb) xs s = (r.1, { s with
      hw := { s.hw with rv := some r.2 }, draws := { s.draws with rv := s.draws.rv + 3 * xs.length } }) := by
  have hrun := runOver_eq_run (f := stageSample .reverb) (run := dlRun)
    (put := fun dl d => { s with hw := { s.hw with rv := some dl }, draws := { s.draws with rv := d } })
    (fun _ _ _ => rfl) (fun _ _ => rfl) (fun _ _ _ _ => rfl) xs dl s.draws.rv
  simp only [← h] at hrun
  exact hrun

theorem runOver_distance {s : State} {dl : DelayLine} (h : s.hw.ds = some dl) (xs : List F) :
    let r := dlRun (fun j => nanDraw .distance (s.draws.ds + j)) dl xs
    runOver (stageSample .distance) xs s = (r.1, { s with
      hw := { s.hw with ds := some r.2 }, draws := { s.draws with ds := s.draws.ds + 3 * xs.length } }) := by
  have hrun := runOver_eq_run (f := stageSample .distance) (run := dlRun)
    (put := fun dl d => { s with hw := { s.hw with ds := some dl }, draws := { s.draws with ds := d } })
    (fun _ _ _ => rfl) (fun _ _ => rfl) (fun _ _ _ _ => rfl) xs dl s.draws.ds
  simp only [← h] at hrun
  exact hrun

theorem runOver_bassboost {s : State} {bb : Biquad} (h : s.hw.bb = some bb) (xs : List F) :
    let r := biquadRun (fun j => nanDraw .bassboost (s.draws.bb + j)) bb xs
    runOver (stageSample .bassboost) xs s = (r.1, { s with
      hw := { s.hw with bb := some r.2 }, draws := { s.draws with bb := s.draws.bb + 9 * xs.length } }) := by
  have hrun := runOver_eq_run (f := stageSample .bassboost) (run := biquadRun)
    (put := fun bb d => { s with hw := { s.hw with bb := some bb }, draws := { s.draws with bb := d } })
    (fun _ _ _ => rfl) (fun _ _ => rfl) (fun _ _ _ _ => rfl) xs bb s.draws.bb
  simp only [← h] at hrun
  exact hrun

theorem oneAtATime_of_single {s : State} {k : Kind} (h : ∀ j, selects s.hw.eff j = true ↔ j = k) (xs : List F) :
    oneAtATime xs s = runOver (stageSample k) xs s := by
  have hother : ∀ j, j ≠ k → maskedSample s.hw.eff j = fun x s => (x, s) := fun j hj =>
    maskedSample_of_not_selected (Bool.eq_false_iff.mpr fun hs => hj ((h j).mp hs))
  have hown : maskedSample s.hw.eff k = stageSample k := maskedSample_of_selected ((h k).mpr rfl)
  rw [oneAtATime_eq_through]
  cases k <;> simp [through, canonicalOrder, hother, hown]

/-- `PRODUCE` on a chain of stage `k` alone. -/
theorem exec_produce_single {buf : Option (List F)} {offset maxCount : Nat} {s : State}
    (hready : ProduceReady buf offset maxCount s) {k : Kind} (h : ∀ j, selects s.hw.eff j = true ↔ j = k)
    {ys : List F} {u : State} (hrun : runOver (stageSample k) (pull maxCount s.src).1 s = (ys, u)) :
    ∃ t, exec (.produce buf offset maxCount) s = .next t ∧ t.resp = .count (pull maxCount s.src).1.length ∧
      filled offset (pull maxCount s.src).1.length t = ys ∧
      t.hw = { u.hw with phase := s.hw.phase, fault := s.hw.fault } := by
  have hexec := exec_produce_eq hready
  have hlen : ys.length = (pull maxCount s.src).1.length :=
    (congrArg (·.1.length) hrun).symm.trans (runOver_length _ _ s)
  simp only [oneAtATime_of_single h, hrun] at hexec
  refine ⟨_, hexec, rfl, ?_, rfl⟩
  have hwithin := pull_within hready
  rw [← hlen] at hwithin ⊢
  exact take_drop_bufFill hwithin

/-- Settles O17: one lemma for the chain of one stage, and one for the run of each stage's record. -/
theorem singleStageChainsRunTheirStage : Obligations.SingleStageChainsRunTheirStage := by
  refine ⟨fun s buf offset maxCount dl h heff hrv => ?_, fun s buf offset maxCount dl h heff hds => ?_,
    fun s buf offset maxCount bb h heff hbb => ?_⟩
  · exact exec_produce_single h (fun j => by rw [heff]; cases j <;> decide) (runOver_reverb hrv _)
  · exact exec_produce_single h (fun j => by rw [heff]; cases j <;> decide) (runOver_distance hds _)
  · exact exec_produce_single h (fun j => by rw [heff]; cases j <;> decide) (runOver_bassboost hbb _)

end Sys2Proof.Machine
end

section
/-! SUPPORT. A run over a built chain (R100, R204): what each host command does, and that only the number of samples
handed over decides what the samples and the records are. And `FORMAT` (R97). -/

namespace Sys2Proof.Machine

/-- A chain is built, whether it still runs or a fault has stopped it: with its format and a record for each stage of
its mask (R25, R37, R178). -/
structure ChainBuilt (s : State) : Prop where
  notIdle : s.hw.phase ≠ .idle
  format : s.hw.fmt.isSome = true
  present : ∀ k, selects s.hw.eff k = true → stagePresent s.hw k = true

theorem ChainRuns.built {s : State} (h : ChainRuns s) : ChainBuilt s := by
  obtain ⟨hrun, hfmt, hpresent⟩ := h
  exact ⟨by simp [hrun], hfmt, hpresent⟩

theorem exec_format_of_running {s : State} {f : Fmt} (hrun : s.hw.phase = .run) (hfmt : s.hw.fmt = some f) :
    exec .format s = .next (respond (.format f.fs f.nch) s) := by
  simp [exec, execFormat, hrun, hfmt]

/-- What a host command within a run does to a built chain: it answers and nothing else, it raises a fault, or it is a
`PRODUCE` that is accepted. -/
theorem exec_of_chainBuilt {i : Instr} {s : State} (hs : ChainBuilt s) (hi : isHostCommand i = true ∧ i ≠ .reset) :
    (∃ r, exec i s = .next (respond r s) ∧ handedOver i (respond r s) = []) ∨
    (∃ code, exec i s = .next (raiseFault code s) ∧ handedOver i (raiseFault code s) = []) ∨
    (∃ buf offset maxCount, i = .produce buf offset maxCount ∧ ProduceReady buf offset maxCount s) := by
  obtain ⟨hhost, hreset⟩ := hi
  cases i with
  | charR | charD | charB | charO | charF | charA | selR | selD | selB | selO | selF | selA => cases hhost
  | reverb | distortion | bassboost | overdrive | distance => cases hhost
  | reset => exact absurd rfl hreset
  | cfgwr reg value => exact .inl ⟨_, if_pos hs.notIdle, rfl⟩
  | build => exact .inl ⟨_, if_pos hs.notIdle, rfl⟩
  | produce buf offset maxCount =>
    by_cases hrun : s.hw.phase = .run
    · by_cases hrange : (buf.getD s.buf).length < offset + maxCount
      · exact .inl ⟨_, exec_produce_of_beyond hrun hrange, rfl⟩
      · exact .inr (.inr ⟨buf, offset, maxCount, rfl, hrun, not_lt.mp hrange, hs.present⟩)
    · exact .inl ⟨_, exec_produce_of_phase buf offset maxCount hrun, rfl⟩
  | format =>
    by_cases hrun : s.hw.phase = .run
    · obtain ⟨f, hf⟩ := Option.isSome_iff_exists.mp hs.format
      exact .inl ⟨_, exec_format_of_running hrun hf, rfl⟩
    · exact .inl ⟨_, if_pos hrun, rfl⟩
  | fail code =>
    rcases reportedFault_cases code with ⟨-, e⟩ | ⟨-, e⟩ | ⟨-, -, e⟩
    · exact .inr (.inl ⟨_, by rw [exec, execFail, e], rfl⟩)
    · exact .inr (.inl ⟨_, by rw [exec, execFail, e], rfl⟩)
    · exact .inl ⟨_, by rw [exec, execFail, e]; rfl, rfl⟩
  | cfgrd reg =>
    cases e : cfgGet reg s.hw with
    | none => exact .inl ⟨_, by rw [exec, execCfgrd, e]; rfl, rfl⟩
    | some v => exact .inl ⟨_, by rw [exec, execCfgrd, e], rfl⟩

/-- From `s`, `m` samples have been handed over as `ys`, and `t` is where that leads: the samples are the next of the
stream passed one at a time through the chain, and `t` has the records this leaves, and the rest of the stream (R100). -/
structure HandsOver (s : State) (m : Nat) (ys : List F) (t : State) : Prop where
  count : m ≤ s.src.stream.length
  samples : ys = (oneAtATime (s.src.stream.take m) s).1
  work : t = withWork (oneAtATime (s.src.stream.take m) s).2 t
  stream : t.src.stream = s.src.stream.drop m

theorem HandsOver.none {s t : State} (hwork : t = withWork s t) (hsrc : t.src = s.src) : HandsOver s 0 [] t :=
  ⟨Nat.zero_le _, rfl, hwork, congrArg (·.stream) hsrc⟩

theorem HandsOver.length {s t : State} {m : Nat} {ys : List F} (h : HandsOver s m ys t) : ys.length = m := by
  rw [h.samples, oneAtATime_length, List.length_take_of_le h.count]

/-- From states that agree in what a chain works on and in the stream, equally many samples are the same samples and
lead to states that agree in what a chain works on. -/
theorem HandsOver.agree {s s' t t' : State} {m : Nat} {ys ys' : List F} (h : HandsOver s m ys t)
    (h' : HandsOver s' m ys' t') (hwork : s' = withWork s s') (hstream : s'.src.stream = s.src.stream) :
    ys' = ys ∧ t' = withWork t t' := by
  have hchain := oneAtATime_withWork (s.src.stream.take m) s s'
  rw [← hwork, ← hstream] at hchain
  refine ⟨by rw [h'.samples, hchain, h.samples, hstream], ?_⟩
  calc t' = withWork (oneAtATime (s'.src.stream.take m) s').2 t' := h'.work
    _ = withWork (oneAtATime (s.src.stream.take m) s).2 t' := by rw [hchain, hstream]; rfl
    _ = withWork (withWork (oneAtATime (s.src.stream.take m) s).2 t) t' := rfl
    _ = withWork t t' := by rw [← h.work]

/-- Two hand-overs one after the other are one of both together. -/
theorem HandsOver.trans {s t u : State} {m n : Nat} {ys zs : List F} (h : HandsOver s m ys t) (h' : HandsOver t n zs u) :
    HandsOver s (m + n) (ys ++ zs) u := by
  obtain ⟨hm, rfl, ht, hst⟩ := h
  obtain ⟨hn, rfl, hu, hsu⟩ := h'
  have hchain := oneAtATime_append (s.src.stream.take m) (t.src.stream.take n) s
  have hlater := oneAtATime_withWork (t.src.stream.take n) (oneAtATime (s.src.stream.take m) s).2 t
  rw [← ht] at hlater
  rw [hlater] at hu
  have htake : s.src.stream.take (m + n) = s.src.stream.take m ++ t.src.stream.take n := by
    rw [hst, List.take_add]
  refine ⟨?_, ?_, ?_, ?_⟩
  · rw [hst, List.length_drop] at hn; omega
  · rw [htake, hchain, hlater]
  · rw [htake, hchain]; exact hu
  · rw [hsu, hst, List.drop_drop]

/-- Of the effects an instruction can have on `S`, a `PRODUCE` has that of stage steps, maybe of none. -/
theorem produce_recordSteps {buf : Option (List F)} {offset maxCount : Nat} {s t : State}
    (hexec : exec (.produce buf offset maxCount) s = .next t) : RecordSteps s.hw t.hw := by
  obtain ⟨heffect, -⟩ := exec_effect hexec
  generalize t.hw = h at heffect
  cases heffect with
  | kept => exact .refl _
  | sampled _ hsteps => exact hsteps
  | raised hi => cases hi
  | reset hi | configured hi | built hi => cases hi

theorem ChainBuilt.recordSteps {s t : State} (hs : ChainBuilt s) (h : RecordSteps s.hw t.hw) : ChainBuilt t := by
  obtain ⟨-, hfmt, heff, -⟩ := h.sameParameters
  have hpresent : ∀ k, stagePresent t.hw k = stagePresent s.hw k := fun k =>
    h.induction (P := fun u => stagePresent u k = stagePresent s.hw k)
      (fun _ _ _ hstep hu => (hstep.stagePresent k).trans hu) rfl
  exact ⟨by rw [h.phase_fault.1]; exact hs.notIdle, by rw [hfmt]; exact hs.format,
    fun k hk => by rw [hpresent]; exact hs.present k (by rwa [heff] at hk)⟩

/-- An accepted `PRODUCE` hands over the samples its source returned, processed. -/
theorem produce_handsOver {buf : Option (List F)} {offset maxCount : Nat} {s : State}
    (h : ProduceReady buf offset maxCount s) :
    ∃ t m, exec (.produce buf offset maxCount) s = .next t ∧
      HandsOver s m (handedOver (.produce buf offset maxCount) t) t := by
  obtain ⟨n, -, hlen, -, htake, hcount, hdrop⟩ := pull_eq_take maxCount s.src
  have hexec := exec_produce_eq h
  have hwithin := pull_within h
  rw [← oneAtATime_length _ s] at hwithin
  have hfilled := take_drop_bufFill hwithin
  simp only [htake] at hexec hfilled
  rw [oneAtATime_length] at hfilled
  exact ⟨_, n, hexec, hlen, hfilled, rfl, hdrop⟩

/-- A host command within a run hands samples over, maybe none, and leaves the chain built. -/
theorem exec_handsOver {i : Instr} {s : State} (hs : ChainBuilt s) (hi : isHostCommand i = true ∧ i ≠ .reset) :
    ∃ t m, exec i s = .next t ∧ HandsOver s m (handedOver i t) t ∧ ChainBuilt t := by
  rcases exec_of_chainBuilt hs hi with ⟨r, hexec, hnone⟩ | ⟨code, hexec, hnone⟩ | ⟨buf, offset, maxCount, rfl, hready⟩
  · exact ⟨_, 0, hexec, hnone ▸ .none rfl rfl, hs.notIdle, hs.format, hs.present⟩
  · exact ⟨_, 0, hexec, hnone ▸ .none rfl rfl, nofun, hs.format, hs.present⟩
  · obtain ⟨t, m, hexec, hhands⟩ := produce_handsOver hready
    exact ⟨t, m, hexec, hhands, hs.recordSteps (produce_recordSteps hexec)⟩

/-- A run over a built chain hands over samples of the stream and adds them to its output. -/
theorem runCommands_handsOver {cmds : List Instr} (hcmds : WithinRun cmds) {s : State} (hs : ChainBuilt s) (r : Run) :
    ∃ t r' m ys, runCommands cmds s r = some (t, r') ∧ r'.output = r.output ++ ys ∧ HandsOver s m ys t := by
  induction cmds generalizing s r with
  | nil => exact ⟨s, r, 0, [], rfl, (List.append_nil _).symm, .none rfl rfl⟩
  | cons i is ih =>
    have hi := hcmds i List.mem_cons_self
    obtain ⟨t, m, hexec, hfirst, ht⟩ := exec_handsOver hs hi
    obtain ⟨u, r', n, ys, hrun, hout, hrest⟩ := ih (fun j hj => hcmds j (List.mem_cons_of_mem i hj)) ht (r.note i t)
    refine ⟨u, r', m + n, handedOver i t ++ ys, (runCommands_next hexec is r).trans hrun, ?_, hfirst.trans hrest⟩
    rw [hout, Run.note_other hi.2, List.append_assoc]

/-- Settles O43: a run is a hand-over, so its samples and records depend on how many samples it is, and no more. -/
theorem blockSizeIndependence : Obligations.BlockSizeIndependence := by
  refine ⟨fun s cmds r hs hcmds => ?_,
    fun s s' t t' cmds cmds' r r' hs hcmds hcmds' hhw hdraws himpl hstream hrun hrun' hlen => ?_⟩
  · obtain ⟨t, r', m, ys, hrun, hout, hm, rfl, hwork, hstream⟩ := runCommands_handsOver hcmds hs.built r
    exact ⟨t, r', m, hrun, hm, hout, by rw [oneAtATime_length, List.length_take_of_le hm], congrArg (·.hw) hwork,
      congrArg (·.draws) hwork, hstream⟩
  · have hruns' : ChainRuns s' := by rw [ChainRuns, hhw]; exact hs
    have hs' : s' = withWork s s' := by rw [withWork, ← hhw, ← hdraws, ← himpl]
    obtain ⟨_, _, m, ys, e, hout, hhands⟩ := runCommands_handsOver hcmds hs.built Run.begin
    obtain ⟨_, _, m', ys', e', hout', hhands'⟩ := runCommands_handsOver hcmds' hruns'.built Run.begin
    cases hrun.symm.trans e
    cases hrun'.symm.trans e'
    have hcount : m' = m := by
      rw [← hhands'.length, ← hhands.length]
      simpa [hout, hout', Run.begin] using hlen.symm
    subst hcount
    obtain ⟨rfl, hwork⟩ := hhands.agree hhands' hs' hstream
    exact ⟨hout.trans hout'.symm, congrArg (·.hw.rv) hwork.symm, congrArg (·.hw.bb) hwork.symm,
      congrArg (·.hw.ds) hwork.symm⟩

/-- Settles O44: `BUILD` latches the registers' values, or else ends in `FAULT`. -/
theorem formatReportsLatchedFormat : Obligations.FormatReportsLatchedFormat := by
  refine ⟨fun s f hrun hfmt => exec_format_of_running hrun hfmt, fun s h => if_pos h,
    fun s t fs nch hfs hnch hidle hbuild hrun => ?_⟩
  change execBuild s = _ at hbuild
  rw [execBuild, if_neg (not_not.mpr hidle), hfs, hnch] at hbuild
  simp only at hbuild
  split at hbuild
  · cases hbuild
    exact exec_format_of_running (f := { fs := fs, nch := nch }) rfl rfl
  · cases hbuild
    cases hrun

end Sys2Proof.Machine
end

section
/-! SUPPORT. The delay line (41_delay_line.md): one step on a ready stage (R106), zeros through a line that reads `+0`
(R114, R115), and each output of a fresh line (R112). -/

namespace Sys2Proof.Machine

/-! ### One step on a ready stage -/

theorem exec_stageInstr_of_ready {k : Kind} {a : Nat} {s : State} (h : StageReady k a s)
    (hpresent : stagePresent s.hw k = true) :
    exec (stageInstr k a) s =
      .next (respond (.sample (stageSample k (bufRead s.buf a) s).1) (sampleAt (stageSample k) a s)) := by
  obtain ⟨hrun, hsel, hlen⟩ := h
  rw [exec_stageInstr]
  simp [runStage, hrun, hsel, hpresent, hlen.not_ge]

theorem reverbSample_of_some {s : State} {dl : DelayLine} (h : s.hw.rv = some dl) (x : F) :
    reverbSample x s =
      let r := dlStep (fun j => nanDraw .reverb (s.draws.rv + j)) dl x
      (r.1, { s with hw := { s.hw with rv := some r.2 }, draws := { s.draws with rv := s.draws.rv + 3 } }) := by
  simp only [reverbSample, h]

theorem distanceSample_of_some {s : State} {dl : DelayLine} (h : s.hw.ds = some dl) (x : F) :
    distanceSample x s =
      let r := dlStep (fun j => nanDraw .distance (s.draws.ds + j)) dl x
      (r.1, { s with hw := { s.hw with ds := some r.2 }, draws := { s.draws with ds := s.draws.ds + 3 } }) := by
  simp only [distanceSample, h]

/-- Settles O13: a ready stage runs its sample step, which is `DLSTEP` on the stage's record. -/
theorem delayLineStepsComplete : Obligations.DelayLineStepsComplete := by
  refine ⟨fun s a dl h hrv => ?_, fun s a dl h hds => ?_⟩
  · have hexec := exec_stageInstr_of_ready h (Option.isSome_of_eq_some hrv)
    simp only [stageSample, sampleAt, reverbSample_of_some hrv] at hexec
    exact hexec
  · have hexec := exec_stageInstr_of_ready h (Option.isSome_of_eq_some hds)
    simp only [stageSample, sampleAt, distanceSample_of_some hds] at hexec
    exact hexec

/-! ### Zeros in the arithmetic -/

/-- `+0` times a finite value is the zero of that value's sign. -/
theorem fmul_fZero_left (q : F) {x : F} (hx : isFinite x = true) :
    fmul q fZero x = if signBit x = true then 0x80000000#32 else fZero := by
  have hsign : signBit fZero = false := by decide
  rw [fmul_eq_zero (by decide) hx (.inl (by decide)), hsign]
  cases signBit x <;> rfl

/-- `+0` times a finite value that is not negative is `+0`. -/
theorem fmul_fZero_left_of_nonneg (q : F) {x : F} (hx : isFinite x = true) (hsign : signBit x = false) :
    fmul q fZero x = fZero := by
  rw [fmul_fZero_left q hx, hsign]; rfl

/-- A finite value other than zero, rounded, is itself. -/
theorem rndUnits_sval {x : F} (hx : isFinite x = true) (h0 : sval x ≠ 0) :
    rndUnits (decide (sval x < 0)) (sval x).natAbs 1 = x := by
  refine eq_of_signBit_of_absBits ?_ ?_
  · simp [sval_neg_iff h0]
  · rw [absBits_rndUnits, natAbs_sval, mag_eq_unitsOf, ← mul_one (unitsOf _),
      magBits_unitsOf one_pos ((isFinite_iff x).mp hx).le]

/-- Adding a zero gives back any value but a NaN, of which it draws another, and maybe the other zero (R111). -/
theorem sameUpToZero_fadd_zero {q z : F} (hq : isNaN q = true) (hz : isZero z = true) (x : F) :
    sameUpToZero (fadd q x z) x = true := by
  rw [isZero_iff] at hz
  have hfin : isFinite z = true := by rw [isFinite_iff, hz]; decide
  rcases lt_trichotomy (absBits x) infBits with hx | hx | hx
  · rw [fadd_of_isFinite ((isFinite_iff x).mpr hx) hfin, sval_eq_zero.mpr hz, add_zero]
    split
    next h0 =>
      have hzero : isZero (pack (signBit x && signBit z) 0) = true := by
        rw [isZero_iff, absBits_pack _ (by decide)]
      simp [sameUpToZero, hzero, (isZero_iff x).mpr (sval_eq_zero.mp h0)]
    next h0 => simp [sameUpToZero, sameUpToNaN, rndUnits_sval ((isFinite_iff x).mpr hx) h0]
  · simp [sameUpToZero, sameUpToNaN, fadd_isInf_left ((isInf_iff x).mpr hx) hfin]
  · have hnan := (isNaN_iff x).mpr hx
    obtain ⟨hadd, -⟩ := operations_of_isNaN (q := q) z hnan
    simp [sameUpToZero, sameUpToNaN, hadd, hq, hnan]

/-! ### Negative zero (R114) -/

/-- What a line that reads `+0` makes of the sample `-0`. -/
theorem dlStep_negZero (q : Nat → F) {dl : DelayLine} (hread : Memory.get dl.mem dl.idx = fZero)
    (hmix : isFinite dl.mix = true) :
    (dlStep q dl 0x80000000#32).1 = if signBit dl.mix = true then 0x80000000#32 else fZero := by
  have hsum : ∀ z : F, z = 0x80000000#32 ∨ z = fZero → fadd (q 1) 0x80000000#32 z = z := by
    rintro z (rfl | rfl)
    · rw [fadd_eq_zero (by decide) (by decide) (by decide)]; rfl
    · rw [fadd_eq_zero (by decide) (by decide) (by decide)]; rfl
  simp only [dlStep, dlRead, hread, fmul_fZero_left _ hmix]
  exact hsum _ (by split <;> simp)

/-- Settles O19: the product of the `+0` read and the mix is a zero of the mix's sign, and so is the sum with `-0`. -/
theorem negativeZeroThroughDelayLine : Obligations.NegativeZeroThroughDelayLine := by
  refine ⟨fun s a dl h hrv hx hread hmix => ⟨_, exec_stageInstr_of_ready h (Option.isSome_of_eq_some hrv), ?_⟩,
    fun s a dl h hds hx hread hmix => ⟨_, exec_stageInstr_of_ready h (Option.isSome_of_eq_some hds), ?_⟩⟩
  · rw [respond_resp, hx, stageSample, reverbSample_of_some hrv, dlStep_negZero _ hread hmix]; rfl
  · rw [respond_resp, hx, stageSample, distanceSample_of_some hds, dlStep_negZero _ hread hmix]; rfl

/-! ### Silence (R115) -/

section Silence
variable {dl : DelayLine} (hmem : dl.mem = []) (hmix : isFinite dl.mix = true) (hmix0 : signBit dl.mix = false)
  (hfb : isFinite dl.fb = true) (hfb0 : signBit dl.fb = false)
include hmem hmix hmix0 hfb hfb0

/-- With an empty memory and factors that are not negative, `+0` passes and only the cursor moves. -/
theorem dlStep_silence (q : Nat → F) :
    dlStep q dl fZero = (fZero, { dl with idx := (dl.idx + 1) % dl.len }) := by
  have hsum : fadd (q 1) fZero fZero = fZero := by
    rw [fadd_eq_zero (by decide) (by decide) (by decide)]; rfl
  have hset : Memory.set [] dl.idx fZero = [] := if_pos rfl
  simp only [dlStep, dlRead, dlWrite, hmem, Memory.get, fmul_fZero_left_of_nonneg _ hmix hmix0, hsum,
    fmul_comm _ dl.fb, fmul_fZero_left_of_nonneg _ hfb hfb0, hset]

theorem dlRun_silence (q : Nat → F) (hidx : dl.idx < dl.len) {xs : List F} (hxs : ∀ x ∈ xs, x = fZero) :
    dlRun q dl xs = (List.replicate xs.length fZero, { dl with idx := (dl.idx + xs.length) % dl.len }) := by
  induction xs generalizing q dl with
  | nil => simp [dlRun, Nat.mod_eq_of_lt hidx]
  | cons x xs ih =>
    obtain ⟨rfl, htail⟩ := List.forall_mem_cons.mp hxs
    have hidx' : (dl.idx + 1) % dl.len < dl.len := Nat.mod_lt _ (by omega)
    have hrest := fun q' => ih (dl := { dl with idx := (dl.idx + 1) % dl.len }) hmem hmix hmix0 hfb hfb0 q' hidx' htail
    simp only [dlRun, dlStep_silence hmem hmix hmix0 hfb hfb0, hrest, List.length_cons, List.replicate_succ,
      Nat.mod_add_mod, Nat.add_assoc, Nat.add_comm 1]

end Silence

theorem pull_mem {maxCount : Nat} {src : Source} {x : F} (h : x ∈ (pull maxCount src).1) : x ∈ src.stream := by
  obtain ⟨n, -, -, -, htake, -⟩ := pull_eq_take maxCount src
  exact List.mem_of_mem_take (htake ▸ h)

/-- Settles O18: the chain is its stage's run over the source's samples (O17), and these are all `+0`. -/
theorem silenceStaysSilence : Obligations.SilenceStaysSilence := by
  obtain ⟨hreverb, hdistance, -⟩ := singleStageChainsRunTheirStage
  refine ⟨fun s buf offset maxCount dl h heff hrv hmem hidx hmix hmix0 hfb hfb0 hzeros => ?_,
    fun s buf offset maxCount dl h heff hds hmem hidx hmix hmix0 hfb hfb0 hzeros => ?_⟩
  · have hrun := hreverb s buf offset maxCount dl h heff hrv
    simp only [dlRun_silence hmem hmix hmix0 hfb hfb0 _ hidx fun x hx => hzeros x (pull_mem hx)] at hrun
    exact hrun
  · have hrun := hdistance s buf offset maxCount dl h heff hds
    simp only [dlRun_silence hmem hmix hmix0 hfb hfb0 _ hidx fun x hx => hzeros x (pull_mem hx)] at hrun
    exact hrun

/-! ### The comb filter (R112) -/

/-- Each output of a fresh delay line: the sample plus `mix` times what was fed back `len` samples before. -/
theorem dlRun_fresh_getD (q : Nat → F) {len : Nat} (mix fb : F) (xs : List F) (hlen : 1 ≤ len) {n : Nat}
    (hn : n < xs.length) :
    let ys := (dlRun q (DelayLine.fresh len mix fb) xs).1
    ys.getD n fZero = fadd (q (3 * n + 1)) (xs.getD n fZero) (fmul (q (3 * n)) (fedBack q fb ys len n) mix) := by
  induction xs using List.reverseRecOn with
  | nil => cases hn
  | append_singleton xs x ih =>
    have hys := dlRun_length q (DelayLine.fresh len mix fb) xs
    rw [List.length_append, List.length_singleton] at hn
    simp only [dlRun_concat]
    rw [fedBack_append _ _ _ (by omega)]
    rcases Nat.lt_succ_iff_lt_or_eq.mp hn with hn | rfl
    · rw [List.getD_append _ _ _ _ (by omega), List.getD_append _ _ _ _ hn, ih hn]
    · obtain ⟨-, hmix, -, hidx, -⟩ := dlRun_keeps q (DelayLine.fresh len mix fb) xs hlen (Memory.wf_nil len)
      have hread := dlRun_fresh_get q mix fb xs hlen 0 hlen
      rw [DelayLine.fresh_idx, DelayLine.fresh_len, zero_add] at hidx
      rw [add_zero, ← hidx] at hread
      rw [getD_concat_length, ← hys, getD_concat_length, hys]
      simp only [dlStep, dlRead, hread, hmix, DelayLine.fresh_mix, Nat.zero_add, Nat.add_comm 1]

/-- Settles O16: nothing is fed back to the first `len` samples, and `fmul(fb, y[n - len])` to the others. -/
theorem combFilterClosedForm : Obligations.CombFilterClosedForm := by
  intro q len mix fb xs hlen hmix hq
  refine ⟨dlRun_length _ _ _, fun n hn hfirst => ?_, fun n hn hlater => ?_⟩
  · have hzero : isZero (if signBit mix = true then 0x80000000#32 else fZero) = true := by
      split <;> decide
    rw [dlRun_fresh_getD q mix fb xs hlen hn, fedBack, if_neg (by omega), fmul_fZero_left _ hmix]
    exact sameUpToZero_fadd_zero (hq _) hzero _
  · rw [dlRun_fresh_getD q mix fb xs hlen hn, fedBack, if_pos hlater]

end Sys2Proof.Machine
end

section
/-! SUPPORT. The delay length (R109): the nearest integer to the exact product, and the `BUILD` that rejects one. -/

namespace Sys2Proof.Machine

/-! ### Rounding a length -/

/-- Of the two integers about a value, `round_len` takes the lower one below their middle and, at the middle, where that
is even and the tie goes to the even one. -/
theorem roundLen_eq (tie : Tie) {v : Rat} {k : Nat} (hlo : k ≤ v) (hhi : v < k + 1) :
    roundLen tie v = if v < k + 1 / 2 ∨ (v = k + 1 / 2 ∧ tie = .even ∧ k % 2 = 0) then k else k + 1 := by
  have hv0 : 0 ≤ v := k.cast_nonneg.trans hlo
  have hden : (0 : Rat) < v.den := Nat.cast_pos.mpr v.den_pos
  have hv : v = v.num.toNat / v.den := by
    have hnum : ((v.num.toNat : Int) : Rat) = v.num := by rw [Int.toNat_of_nonneg (Rat.num_nonneg.mpr hv0)]
    rw [← Int.cast_natCast, hnum, Rat.num_div_den]
  have hdiv : v.num.toNat / v.den = k := by
    rw [← Nat.floor_div_eq_div (K := Rat), ← hv]
    exact (Nat.floor_eq_iff hv0).mpr ⟨hlo, hhi⟩
  have hrem : v - k = (v.num.toNat % v.den : Nat) / v.den := by
    have hsum : (v.num.toNat % v.den : Nat) + (k : Rat) * v.den = v.num.toNat := by
      rw [← hdiv]; exact_mod_cast Nat.mod_add_div' _ _
    rw [eq_div_iff hden.ne', sub_mul, sub_eq_iff_eq_add, hsum, ← eq_div_iff hden.ne', ← hv]
  have hlt : 2 * (v.num.toNat % v.den) < v.den ↔ v < k + 1 / 2 := by
    rw [← sub_lt_iff_lt_add', hrem, div_lt_div_iff₀ hden two_pos]
    norm_cast
    omega
  have hgt : v.den < 2 * (v.num.toNat % v.den) ↔ k + 1 / 2 < v := by
    rw [← lt_sub_iff_add_lt', hrem, div_lt_div_iff₀ two_pos hden]
    norm_cast
    omega
  simp only [roundLen, hdiv, hlt, hgt]
  rcases lt_trichotomy v (k + 1 / 2) with h | rfl | h
  · rw [if_pos h, if_pos (.inl h)]
  · cases tie <;> simp
  · simp only [h, h.not_gt, h.ne', false_and, or_false, if_true, if_false]

theorem roundLen_half (tie : Tie) (k : Nat) :
    roundLen tie (k + 1 / 2) = if tie = .even ∧ k % 2 = 0 then k else k + 1 := by
  rw [roundLen_eq (k := k) tie (by linarith) (by linarith)]
  simp

theorem roundLen_lt_half (tie : Tie) {v : Rat} (hv : 0 ≤ v) (h : v < 1 / 2) : roundLen tie v = 0 := by
  have hmid : v < (0 : Nat) + 1 / 2 := by simpa using h
  rw [roundLen_eq (k := 0) tie (by simpa using hv) (by linarith), if_pos (.inl hmid)]

/-- `round_len` is at most one half off. -/
theorem roundLen_near (tie : Tie) {v : Rat} (hv : 0 ≤ v) :
    v - 1 / 2 ≤ (roundLen tie v : Rat) ∧ (roundLen tie v : Rat) ≤ v + 1 / 2 := by
  have hlo := Nat.floor_le hv
  have hhi := Nat.lt_floor_add_one v
  rw [roundLen_eq tie hlo hhi]
  split
  next h =>
    have hle : v ≤ ⌊v⌋₊ + 1 / 2 := h.elim le_of_lt fun h => h.1.le
    constructor <;> linarith
  next h =>
    have hge : ⌊v⌋₊ + 1 / 2 ≤ v := not_lt.mp (not_or.mp h).1
    push_cast
    constructor <;> linarith

/-! ### A length `BUILD` rejects -/

theorem exec_build_of_not_stageOk {s : State} {fs : Nat} (hidle : s.hw.phase = .idle) (hfs : s.hw.cfg.fs = some fs)
    {k : Kind} (hk : selects (effOf s.hw.cfg.sel) k = true) (hbad : stageOk s.impl s.hw.cfg fs k = false) :
    exec .build s = .next (raiseFault .invalidEffectParameter s) := by
  have hchecks : ∀ nch, buildOk s.impl s.hw.cfg fs nch = false := fun nch => by
    rw [← Bool.not_eq_true, buildOk_iff]
    rintro ⟨-, -, hok⟩
    rw [hok k hk] at hbad
    cases hbad
  cases hnch : s.hw.cfg.nch with
  | none => simp [exec, execBuild, hidle, hfs, hnch]
  | some nch => simp [exec, execBuild, hidle, hfs, hnch, hchecks]

/-- Settles O37: `round_len` is at most one half off and decides which way a half goes; `BUILD` checks the delay and the
length of each selected stage. -/
theorem delayLengthIsNearest : Obligations.DelayLengthIsNearest := by
  refine ⟨fun p delay fs hdelay hfs => ?_, fun s fs hidle hfs hbad => ?_⟩
  · have hpos : 0 ≤ delay * fs := mul_nonneg hdelay.le fs.cast_nonneg
    refine ⟨one_le_delayLen p delay fs, fun hsmall => ?_, fun hhalf => ?_, fun k hk htie => ?_, fun k hk htie => ?_⟩
    · rw [delayLen, roundLen_lt_half _ hpos hsmall]; rfl
    · obtain ⟨hlo, hhi⟩ := roundLen_near (tieOf p) hpos
      rw [delayLen, Nat.cast_max, Nat.cast_one]
      exact ⟨le_max_of_le_right hlo, max_le (by linarith) hhi⟩
    · rw [delayLen, hk, roundLen_half, htie, if_neg (by simp)]
      exact max_eq_right (by omega)
    · rw [delayLen, hk, roundLen_half, htie]
      simp only [true_and]
  · obtain ⟨k, hk, hstage⟩ : ∃ k, selects (effOf s.hw.cfg.sel) k = true ∧ stageOk s.impl s.hw.cfg fs k = false := by
      rcases hbad with ⟨hk, hdelay | hlen⟩ | ⟨hk, hdelay | hlen⟩
      · exact ⟨.reverb, hk, by simp [stageOk, hdelay.not_gt]⟩
      · exact ⟨.reverb, hk, by simp [stageOk, hlen.not_ge]⟩
      · exact ⟨.distance, hk, by simp [stageOk, hdelay.not_gt]⟩
      · exact ⟨.distance, hk, by simp [stageOk, hlen.not_ge]⟩
    exact ⟨_, exec_build_of_not_stageOk hidle hfs hk hstage, rfl⟩

end Sys2Proof.Machine
end

section
/-! SUPPORT. Signs and order in the arithmetic (R8): negation and absolute value, products of a negated factor or of an
infinity, and values of magnitude at most 1.0. -/

namespace Sys2Proof.Machine

/-! ### Negation and absolute value -/

@[simp] theorem isZero_fneg (a : F) : isZero (fneg a) = isZero a := by simp [isZero]

@[simp] theorem fneg_fneg (a : F) : fneg (fneg a) = a :=
  eq_of_signBit_of_absBits (by simp) (by simp)

theorem fneg_pack (neg : Bool) {bits : Nat} (h : bits < 2 ^ 31) : fneg (pack neg bits) = pack (!neg) bits :=
  eq_of_signBit_of_absBits (by simp [signBit_pack _ h]) (by simp [absBits_pack _ h])

@[simp] theorem fneg_rndUnits (neg : Bool) (n d : Nat) : fneg (rndUnits neg n d) = rndUnits (!neg) n d :=
  fneg_pack neg (magBits_lt n d)

theorem toNat_fabs (a : F) : (fabs a).toNat = absBits a := by
  have hmask : (0x7FFFFFFF#32).toNat = 2 ^ 31 - 1 := rfl
  rw [fabs, BitVec.toNat_and, hmask, Nat.and_two_pow_sub_one_eq_mod, absBits]

@[simp] theorem absBits_fabs (a : F) : absBits (fabs a) = absBits a := by
  rw [absBits, toNat_fabs, Nat.mod_eq_of_lt (absBits_lt a)]

@[simp] theorem signBit_fabs (a : F) : signBit (fabs a) = false := by
  rw [signBit, toNat_fabs, Nat.div_eq_of_lt (absBits_lt a)]; rfl

@[simp] theorem isNaN_fabs (a : F) : isNaN (fabs a) = isNaN a := by simp [isNaN]

@[simp] theorem isInf_fabs (a : F) : isInf (fabs a) = isInf a := by simp [isInf]

@[simp] theorem fabs_fneg (a : F) : fabs (fneg a) = fabs a :=
  eq_of_signBit_of_absBits (by simp) (by simp)

/-! ### The order by ranks -/

@[simp] theorem rank_fneg (a : F) : rank (fneg a) = -rank a := by
  rw [rank, rank, signBit_fneg, absBits_fneg]
  cases signBit a <;> simp

@[simp] theorem rank_fabs (a : F) : rank (fabs a) = absBits a := by simp [rank]

theorem abs_rank (a : F) : |rank a| = absBits a := by
  unfold rank; split <;> simp

theorem rank_fZero : rank fZero = 0 := by decide

theorem rank_fOne : rank fOne = absBits fOne := by decide

theorem rank_of_isZero {a : F} (h : isZero a = true) : rank a = 0 := by simp [rank, (isZero_iff a).mp h]

/-- Away from NaN the comparison is that of the ranks. -/
theorem flt_eq_decide {a b : F} (ha : isNaN a = false) (hb : isNaN b = false) : flt a b = decide (rank a < rank b) := by
  simp [flt, ha, hb]

theorem flt_eq_false_iff {a b : F} (ha : isNaN a = false) (hb : isNaN b = false) :
    flt a b = false ↔ rank b ≤ rank a := by
  simp [flt_eq_decide ha hb]

theorem rank_nonneg {a : F} (ha : isNaN a = false) (h : flt a fZero = false) : 0 ≤ rank a :=
  rank_fZero ▸ (flt_eq_false_iff ha (by decide)).mp h

/-! ### Products -/

theorem isNaN_asNaN (w : F) : isNaN (asNaN w) = true := by
  have hfrac : fracField w < 2 ^ 23 := Nat.mod_lt _ (by decide)
  have hbits : infBits = 255 * 2 ^ 23 := rfl
  rw [isNaN_iff, asNaN]
  generalize fracField w = f at *
  rw [absBits_pack _ (by split <;> omega)]
  split <;> omega

/-- The draw is a NaN (R8; log 2). -/
theorem isNaN_nanDraw (k : Kind) (i : Nat) : isNaN (nanDraw k i) = true := isNaN_asNaN _

theorem fmul_isNaN_right (q a : F) {b : F} (hb : isNaN b = true) : fmul q a b = q := by simp [fmul, hb]

/-- An infinity times a value that is neither zero nor NaN, another infinity included. -/
theorem fmul_isInf_right (q : F) {a b : F} (ha : isNaN a = false) (h0 : isZero a = false) (hb : isInf b = true) :
    fmul q a b = pack (signBit a != signBit b) infBits := by
  have ha0 : absBits a ≠ 0 := beq_eq_false_iff_ne.mp h0
  have hb0 : absBits b ≠ 0 := by rw [(isInf_iff b).mp hb]; decide
  simp [fmul, ha, isNaN_of_isInf hb, hb, ha0, hb0]

theorem isFinite_or_isInf {a : F} (h : isNaN a = false) : isFinite a = true ∨ isInf a = true := by
  rw [isFinite_iff, isInf_iff]
  simp only [isNaN, decide_eq_false_iff_not] at h
  omega

/-- A finite value other than zero and a value that is no NaN have a product. -/
theorem isNaN_fmul_of_ne_zero (q : F) {a b : F} (ha : isFinite a = true) (h0 : isZero a = false)
    (hb : isNaN b = false) : isNaN (fmul q a b) = false := by
  rcases isFinite_or_isInf hb with hfin | hinf
  · rw [fmul_of_isFinite ha hfin, isNaN_rndUnits]
  · rw [fmul_isInf_right q (isNaN_of_isFinite ha) h0 hinf, isNaN_pack _ le_rfl]

/-- A product that no operand makes a NaN changes sign with its second factor. -/
theorem fmul_fneg_right (q : F) {a b : F} (ha : isFinite a = true) (hb : isNaN b = false)
    (h : isZero a = false ∨ isFinite b = true) : fmul q a (fneg b) = fneg (fmul q a b) := by
  have hsign : (signBit a != !signBit b) = !(signBit a != signBit b) := by
    cases signBit a <;> cases signBit b <;> rfl
  have hmag : mag (fneg b) = mag b := by rw [mag_eq_unitsOf, mag_eq_unitsOf, absBits_fneg]
  rcases isFinite_or_isInf hb with hfin | hinf
  · rw [fmul_of_isFinite ha hfin, fmul_of_isFinite ha ((isFinite_fneg b).trans hfin), fneg_rndUnits, signBit_fneg, hmag,
      hsign]
  · have h0 : isZero a = false := h.resolve_right fun hfin => by simp [isInf_of_isFinite hfin] at hinf
    rw [fmul_isInf_right q (isNaN_of_isFinite ha) h0 hinf,
      fmul_isInf_right q (isNaN_of_isFinite ha) h0 ((isInf_fneg b).trans hinf), fneg_pack _ infBits_lt, signBit_fneg,
      hsign]

theorem absBits_fmul_of_isZero (q : F) {a b : F} (ha : isFinite a = true) (hb : isZero b = true) :
    absBits (fmul q a b) = 0 := by
  rw [isZero_iff] at hb
  have hfin : isFinite b = true := by rw [isFinite_iff, hb]; decide
  rw [fmul_of_isFinite ha hfin, absBits_rndUnits, mag_eq_zero.mpr hb, Nat.mul_zero, magBits_zero (by positivity)]

/-! ### Magnitudes up to 1.0 -/

/-- `|a| ≤ 1.0`, and so `a` is finite. -/
def WithinOne (a : F) : Prop := absBits a ≤ absBits fOne

theorem WithinOne.isFinite {a : F} (h : WithinOne a) : isFinite a = true :=
  (isFinite_iff a).mpr (h.trans_lt (by decide))

theorem WithinOne.isNaN {a : F} (h : WithinOne a) : isNaN a = false := isNaN_of_isFinite h.isFinite

theorem WithinOne.fgt_fabs {a : F} (h : WithinOne a) : fgt (fabs a) fOne = false := by
  rw [fgt, flt_eq_false_iff (by decide) (by simpa using h.isNaN), rank_fabs, rank_fOne]
  exact_mod_cast h

theorem unitsOf_absBits_fOne : unitsOf (absBits fOne) = 2 ^ 149 := by decide

theorem WithinOne.mag_le {a : F} (h : WithinOne a) : mag a ≤ 2 ^ 149 := by
  rw [mag_eq_unitsOf, ← unitsOf_absBits_fOne]
  exact unitsOf_strictMono.monotone h

theorem withinOne_rndUnits (neg : Bool) {n d : Nat} (hd : 0 < d) (h : n ≤ 2 ^ 149 * d) :
    WithinOne (rndUnits neg n d) := by
  rw [WithinOne, absBits_rndUnits]
  exact magBits_le hd (unitsOf_absBits_fOne ▸ h)

theorem WithinOne.fmul (q : F) {a b : F} (ha : WithinOne a) (hb : WithinOne b) : WithinOne (fmul q a b) := by
  rw [fmul_of_isFinite ha.isFinite hb.isFinite]
  exact withinOne_rndUnits _ (by positivity) (Nat.mul_le_mul ha.mag_le hb.mag_le)

/-- A value in `[0, 1]`, by the comparisons of R8. -/
theorem withinOne_of_mem_unit {a : F} (ha : isNaN a = false)
    (hunit : flt a fZero = false ∧ fgt a fOne = false) : WithinOne a := by
  have h0 := rank_nonneg ha hunit.1
  have h1 := (flt_eq_false_iff (by decide) ha).mp hunit.2
  rw [rank_fOne] at h1
  have habs := abs_rank a
  rw [abs_of_nonneg h0] at habs
  unfold WithinOne
  omega

/-- The distance from 1.0 down to a value in `[0, 1]`. -/
theorem withinOne_fsub_one (q : F) {a : F} (ha : isNaN a = false)
    (hunit : flt a fZero = false ∧ fgt a fOne = false) : WithinOne (fsub q fOne a) := by
  have hwithin := withinOne_of_mem_unit ha hunit
  have h0 : ¬ sval a < sval fZero := by
    rw [← rank_lt_rank_iff, not_lt]; exact (flt_eq_false_iff ha (by decide)).mp hunit.1
  have h1 : ¬ sval fOne < sval a := by
    rw [← rank_lt_rank_iff, not_lt]; exact (flt_eq_false_iff (by decide) ha).mp hunit.2
  have hzero : sval fZero = 0 := by decide
  have hone : sval fOne = 2 ^ 149 := by decide
  rw [fsub, fadd_of_isFinite (by decide) ((isFinite_fneg a).trans hwithin.isFinite), sval_fneg, hone]
  split
  · rw [WithinOne, absBits_pack _ (by decide)]; exact Nat.zero_le _
  · exact withinOne_rndUnits _ one_pos (by omega)

end Sys2Proof.Machine
end

section
/-! SUPPORT. The waveshapers (42_waveshaper.md): the clamp of R122 by ranks, the two branches of R123, and the odd
symmetry of both stages. -/

namespace Sys2Proof.Machine

/-! ### One step on a ready stage -/

theorem exec_distortion_of_ready {a : Nat} {s : State} {p : Shaper} (h : StageReady .distortion a s)
    (hdt : s.hw.dt = some p) :
    let y := distortion (fun j => nanDraw .distortion (s.draws.dt + j)) p (bufRead s.buf a)
    exec (.distortion a) s = .next { s with
      buf := bufWrite s.buf a y, draws := { s.draws with dt := s.draws.dt + 1 }, resp := .sample y } := by
  have hexec := exec_stageInstr_of_ready h (Option.isSome_of_eq_some hdt)
  simp only [stageSample, sampleAt, distortionSample, hdt] at hexec
  exact hexec

theorem exec_overdrive_of_ready {a : Nat} {s : State} {p : Shaper} (h : StageReady .overdrive a s)
    (hod : s.hw.od = some p) :
    let y := overdrive s.impl.num (fun j => nanDraw .overdrive (s.draws.od + j)) p (bufRead s.buf a)
    exec (.overdrive a) s = .next { s with
      buf := bufWrite s.buf a y, draws := { s.draws with od := s.draws.od + 5 }, resp := .sample y } := by
  have hexec := exec_stageInstr_of_ready h (Option.isSome_of_eq_some hod)
  simp only [stageSample, sampleAt, overdriveSample, hod] at hexec
  exact hexec

/-! ### The clamp (R122) -/

theorem clamp_of_isNaN {v : F} (hv : isNaN v = true) (lo hi : F) : clamp v lo hi = v := by
  simp [clamp, fgt, flt, hv]

/-- Away from NaN the two tests of the clamp compare ranks. -/
theorem clamp_neg_eq {v t : F} (hv : isNaN v = false) (ht : isNaN t = false) :
    clamp v (fneg t) t = if rank v < -rank t then fneg t else if rank t < rank v then t else v := by
  simp [clamp, fgt, flt_eq_decide, hv, ht]

/-- For `t ≥ 0` the clamped value is a number of magnitude at most `t`. -/
theorem clamp_bounded {v t : F} (hv : isNaN v = false) (ht : isNaN t = false) (h0 : 0 ≤ rank t) :
    isNaN (clamp v (fneg t) t) = false ∧ fgt (fabs (clamp v (fneg t) t)) t = false := by
  have hbound : ∀ {y : F}, isNaN y = false → |rank y| ≤ rank t → isNaN y = false ∧ fgt (fabs y) t = false :=
    fun hy hle => ⟨hy, by rwa [fgt, flt_eq_false_iff ht (by simpa using hy), rank_fabs, ← abs_rank]⟩
  rw [clamp_neg_eq hv ht]
  split
  next => exact hbound (by simpa using ht) (by simp [abs_of_nonneg h0])
  next hlo =>
    split
    next => exact hbound ht (abs_of_nonneg h0).le
    next hhi => exact hbound hv (abs_le.mpr ⟨by omega, by omega⟩)

/-- For `t ≥ 0` the interval `[-t, t]` is symmetric, and so is the clamp to it. -/
theorem clamp_fneg {v t : F} (hv : isNaN v = false) (ht : isNaN t = false) (h0 : 0 ≤ rank t) :
    clamp (fneg v) (fneg t) t = fneg (clamp v (fneg t) t) := by
  rw [clamp_neg_eq hv ht, clamp_neg_eq (by simpa using hv) ht, rank_fneg]
  rcases lt_or_ge (rank v) (-rank t) with hlo | hlo
  · rw [if_pos hlo, if_neg (by omega), if_pos (by omega), fneg_fneg]
  · rw [if_neg (by omega : ¬ rank v < -rank t)]
    rcases lt_or_ge (rank t) (rank v) with hhi | hhi
    · rw [if_pos hhi, if_pos (by omega)]
    · rw [if_neg (by omega), if_neg (by omega), if_neg (by omega)]

/-- A negative threshold leaves no value between the tests (R127 (f)). -/
theorem clamp_of_rank_neg {v t : F} (hv : isNaN v = false) (ht : isNaN t = false) (hneg : rank t < 0) :
    clamp v (fneg t) t = if flt v (fneg t) = true then fneg t else t := by
  rw [clamp]
  cases hlo : flt v (fneg t) with
  | true => rfl
  | false =>
    have hge := (flt_eq_false_iff hv (by simpa using ht)).mp hlo
    rw [rank_fneg] at hge
    have hhi : fgt v t = true := by rw [fgt, flt_eq_decide ht hv, decide_eq_true_eq]; omega
    simp [hhi]

/-- An infinity is clamped to the threshold of its sign (R127 (c)). -/
theorem clamp_of_isInf {v t : F} (hv : isInf v = true) (ht : isFinite t = true) :
    clamp v (fneg t) t = if signBit v = true then fneg t else t := by
  obtain ⟨-, hlo⟩ := flt_isInf ((isFinite_fneg t).trans ht) hv
  obtain ⟨hhi, -⟩ := flt_isInf ht hv
  rw [clamp, fgt, hlo, hhi]
  cases signBit v <;> rfl

/-! ### The branches of the overdrive (R123) -/

/-- What the saturating branch multiplies the sign of the sample by. -/
def saturation (num : NumSel) (q : Nat → F) (u : F) : F := fsub (q 2) fOne (numExp num (q 1) (fneg u))

section Branches
variable {num : NumSel} {q : Nat → F} {p : Shaper} {x : F}

theorem overdrive_of_above (h : fgt (fabs (fmul (q 0) p.g x)) p.t = true) :
    overdrive num q p x = fmul (q 4) (fsign (q 3) x) (saturation num q (fabs (fmul (q 0) p.g x))) :=
  if_pos h

theorem overdrive_of_below (h : fgt (fabs (fmul (q 0) p.g x)) p.t = false) :
    overdrive num q p x = fmul (q 0) p.g x :=
  if_neg (Bool.eq_false_iff.mp h)

end Branches

theorem fneg_fOne : fneg fOne = 0xBF800000#32 := by decide

/-- Away from the zeros and NaN the sign of a sample is `-1.0` or `1.0`. -/
theorem fsign_of_ne_zero (q : F) {x : F} (hx : isNaN x = false) (h0 : isZero x = false) :
    fsign q x = if signBit x = true then fneg fOne else fOne := by
  simp [fsign, hx, h0]

theorem withinOne_fsign (q : F) {x : F} (hx : isNaN x = false) : WithinOne (fsign q x) := by
  rw [WithinOne, fsign, if_neg (Bool.eq_false_iff.mp hx)]
  repeat' split
  all_goals decide

theorem fsign_fneg (q : F) {x : F} (hx : isNaN x = false) (h0 : isZero x = false) :
    fsign q (fneg x) = fneg (fsign q x) := by
  rw [fsign_of_ne_zero q hx h0, fsign_of_ne_zero q (by simpa using hx) (by simpa using h0), signBit_fneg]
  cases signBit x <;> simp

/-- `NUM.exp` of a value that is not above zero lies in `[0, 1]`. -/
theorem numExp_fneg_fabs_mem_unit (num : NumSel) (q : F) {v : F} (hv : isNaN v = false) :
    isNaN (numExp num q (fneg (fabs v))) = false ∧
    flt (numExp num q (fneg (fabs v))) fZero = false ∧ fgt (numExp num q (fneg (fabs v))) fOne = false := by
  have hnan : isNaN (fneg (fabs v)) = false := by simpa using hv
  have hpos : fgt (fneg (fabs v)) fZero = false := by
    rw [fgt, flt_eq_false_iff (by decide) hnan, rank_fneg, rank_fabs, rank_fZero]; omega
  exact ⟨isNaN_numExp num q hnan, numExp_mem_unit num q hnan hpos⟩

theorem withinOne_saturation (num : NumSel) (q : Nat → F) {v : F} (hv : isNaN v = false) :
    WithinOne (saturation num q (fabs v)) := by
  obtain ⟨hnan, hunit⟩ := numExp_fneg_fabs_mem_unit num (q 1) hv
  exact withinOne_fsub_one (q 2) hnan hunit

/-- At an infinite argument the exponential is `+0`, and the sign alone is left. -/
theorem saturation_of_isInf (num : NumSel) (q : Nat → F) {v : F} (hv : isInf v = true) :
    saturation num q (fabs v) = fOne := by
  rw [saturation, numExp_neg_isInf num (q 1) (by simpa using hv) (by simp), fsub,
    fadd_of_isFinite (by decide) (by decide)]
  decide

/-- Above a threshold that is not negative, with a finite gain, the sample is not a zero. -/
theorem isZero_eq_false_of_above {q g t x : F} (hg : isFinite g = true) (h0 : 0 ≤ rank t)
    (h : fgt (fabs (fmul q g x)) t = true) : isZero x = false := by
  obtain ⟨-, -, hrank⟩ := flt_iff.mp h
  refine Bool.eq_false_iff.mpr fun hx => ?_
  rw [rank_fabs, absBits_fmul_of_isZero q hg hx] at hrank
  exact absurd hrank (by simpa using h0)

/-! ### Results no draw decides -/

/-- With a finite gain and a finite sample no operation of `DISTORTION` draws. -/
theorem distortion_draws (q q' : Nat → F) {p : Shaper} {x : F} (hg : isFinite p.g = true) (hx : isFinite x = true) :
    distortion q p x = distortion q' p x := by
  rw [distortion, distortion, fmul_of_isFinite hg hx, fmul_of_isFinite hg hx]

theorem saturation_draws (num : NumSel) (q q' : Nat → F) {v : F} (hv : isNaN v = false) :
    saturation num q (fabs v) = saturation num q' (fabs v) := by
  have hexp : numExp num (q 1) (fneg (fabs v)) = numExp num (q' 1) (fneg (fabs v)) := by simp [numExp, hv]
  obtain ⟨hnan, hunit⟩ := numExp_fneg_fabs_mem_unit num (q' 1) hv
  have hfin := (isFinite_fneg _).trans (withinOne_of_mem_unit hnan hunit).isFinite
  rw [saturation, saturation, hexp, fsub, fsub, fadd_of_isFinite (by decide) hfin, fadd_of_isFinite (by decide) hfin]

/-- With a finite gain and a finite sample no operation of `OVERDRIVE` draws. -/
theorem overdrive_draws (num : NumSel) (q q' : Nat → F) {p : Shaper} {x : F} (hg : isFinite p.g = true)
    (hx : isFinite x = true) : overdrive num q p x = overdrive num q' p x := by
  have hv : fmul (q 0) p.g x = fmul (q' 0) p.g x := by rw [fmul_of_isFinite hg hx, fmul_of_isFinite hg hx]
  have hsign : fsign (q 3) x = fsign (q' 3) x := by simp [fsign, isNaN_of_isFinite hx]
  cases h : fgt (fabs (fmul (q' 0) p.g x)) p.t with
  | false => rw [overdrive_of_below (hv ▸ h), overdrive_of_below h, hv]
  | true =>
    obtain ⟨-, hnan, -⟩ := flt_iff.mp h
    rw [isNaN_fabs] at hnan
    have hsfin := (withinOne_fsign (q' 3) (isNaN_of_isFinite hx)).isFinite
    have hrfin := (withinOne_saturation num q' hnan).isFinite
    rw [overdrive_of_above (hv ▸ h), overdrive_of_above h, hv, hsign, saturation_draws num q q' hnan,
      fmul_of_isFinite hsfin hrfin, fmul_of_isFinite hsfin hrfin]

/-! ### Special samples -/

theorem isNaN_of_fmul_nanDraw {k : Kind} {i : Nat} {g x : F} (h : isNaN (fmul (nanDraw k i) g x) = false) :
    isNaN x = false := Bool.eq_false_iff.mpr fun hx => by
  simp [fmul_isNaN_right _ g hx, isNaN_nanDraw] at h

/-- R127 (b): the product is the value drawn, and the clamp returns it. -/
theorem isNaN_distortion (q : Nat → F) (p : Shaper) {x : F} (hx : isNaN x = true) (hq : isNaN (q 0) = true) :
    isNaN (distortion q p x) = true := by
  rw [distortion, fmul_isNaN_right _ _ hx, clamp_of_isNaN hq, hq]

/-- R127 (b): the product is the value drawn, which is not above the knee. -/
theorem isNaN_overdrive (num : NumSel) (q : Nat → F) (p : Shaper) {x : F} (hx : isNaN x = true)
    (hq : isNaN (q 0) = true) : isNaN (overdrive num q p x) = true := by
  have hdraw := fmul_isNaN_right (q 0) p.g hx
  have hbelow : fgt (fabs (q 0)) p.t = false := flt_eq_false_of_isNaN (.inr (by simpa using hq))
  rw [overdrive_of_below (by rw [hdraw, hbelow]), hdraw, hq]

section Infinite
variable {p : Shaper} {x : F} (hx : isInf x = true) (hg : isNaN p.g = false) (hg0 : isZero p.g = false)
  (ht : isFinite p.t = true)
include hx hg hg0 ht

theorem distortion_of_isInf (q : Nat → F) :
    distortion q p x = if signBit p.g = signBit x then p.t else fneg p.t := by
  have hv := fmul_isInf_right (q 0) hg hg0 hx
  have hinf : isInf (fmul (q 0) p.g x) = true := by rw [hv, isInf_iff, absBits_pack _ infBits_lt]
  rw [distortion, clamp_of_isInf hinf ht, hv, signBit_pack _ infBits_lt]
  cases signBit p.g <;> cases signBit x <;> rfl

theorem overdrive_of_isInf (num : NumSel) (q : Nat → F) :
    overdrive num q p x = if signBit x = true then fneg fOne else fOne := by
  have hinf : isInf (fmul (q 0) p.g x) = true := by
    rw [fmul_isInf_right (q 0) hg hg0 hx, isInf_iff, absBits_pack _ infBits_lt]
  have habove : fgt (fabs (fmul (q 0) p.g x)) p.t = true := by
    obtain ⟨h, -⟩ := flt_isInf ht ((isInf_fabs _).trans hinf)
    rw [fgt, h, signBit_fabs]; rfl
  have hx0 : isZero x = false := by
    rw [isInf_iff] at hx
    simp [isZero, hx, infBits]
  have hsign := withinOne_fsign (q 3) (isNaN_of_isInf hx)
  rw [overdrive_of_above habove, saturation_of_isInf num q hinf, fmul_comm]
  exact (fmul_one_left _ hsign.isFinite).trans (fsign_of_ne_zero _ (isNaN_of_isInf hx) hx0)

end Infinite

/-! ### Bounds and symmetry -/

/-- R125: above the knee the output is a product of two values of magnitude at most 1.0. -/
theorem overdrive_bounded (num : NumSel) (q : Nat → F) {p : Shaper} {x : F} (hx : isNaN x = false)
    (hv : isNaN (fmul (q 0) p.g x) = false) :
    isNaN (overdrive num q p x) = false ∧
    (fgt (fabs (fmul (q 0) p.g x)) p.t = true → fgt (fabs (overdrive num q p x)) fOne = false) ∧
    (fgt (fabs (fmul (q 0) p.g x)) p.t = false → fgt (fabs (overdrive num q p x)) p.t = false) := by
  cases h : fgt (fabs (fmul (q 0) p.g x)) p.t with
  | false =>
    rw [overdrive_of_below h]
    exact ⟨hv, nofun, fun _ => h⟩
  | true =>
    have hbound := (withinOne_fsign (q 3) hx).fmul (q 4) (withinOne_saturation num q hv)
    rw [overdrive_of_above h]
    exact ⟨hbound.isNaN, fun _ => hbound.fgt_fabs, nofun⟩

theorem isZero_eq_false_of_pos {a : F} (h : flt fZero a = true) : isZero a = false := by
  obtain ⟨-, -, hrank⟩ := flt_iff.mp h
  rw [rank_fZero] at hrank
  exact Bool.eq_false_iff.mpr fun h0 => hrank.ne' (rank_of_isZero h0)

section Odd
variable {p : Shaper} {x : F} (hg : isFinite p.g = true) (hg0 : isZero p.g = false) (ht0 : 0 ≤ rank p.t)
  (hx : isNaN x = false)
include hg hg0 ht0 hx

theorem distortion_fneg (q : Nat → F) (ht : isNaN p.t = false) :
    distortion q p (fneg x) = fneg (distortion q p x) := by
  rw [distortion, distortion, fmul_fneg_right (q 0) hg hx (.inl hg0),
    clamp_fneg (isNaN_fmul_of_ne_zero (q 0) hg hg0 hx) ht ht0]

theorem overdrive_fneg (num : NumSel) (q : Nat → F) :
    overdrive num q p (fneg x) = fneg (overdrive num q p x) := by
  have hodd := fmul_fneg_right (q 0) hg hx (.inl hg0)
  have hu : fabs (fmul (q 0) p.g (fneg x)) = fabs (fmul (q 0) p.g x) := by rw [hodd, fabs_fneg]
  cases h : fgt (fabs (fmul (q 0) p.g x)) p.t with
  | false => rw [overdrive_of_below (hu ▸ h), overdrive_of_below h, hodd]
  | true =>
    have hsign := withinOne_fsign (q 3) hx
    have hsat := withinOne_saturation num q (isNaN_fmul_of_ne_zero (q 0) hg hg0 hx)
    rw [overdrive_of_above (hu ▸ h), overdrive_of_above h, hu, fsign_fneg (q 3) hx (isZero_eq_false_of_above hg ht0 h),
      fmul_comm, fmul_fneg_right _ hsat.isFinite hsign.isNaN (.inr hsign.isFinite), fmul_comm]

end Odd

/-! ### The statements -/

/-- Settles O20: the clamp of R122, bounded for `t ≥ 0`; the examples draw nothing, so any draws do. -/
theorem distortionClips : Obligations.DistortionClips := by
  refine ⟨fun s a p h hdt => ⟨exec_distortion_of_ready h hdt, fun ht h0 hv => clamp_bounded hv ht (rank_nonneg ht h0)⟩,
    fun q => ?_⟩
  refine ⟨?_, ?_, ?_⟩ <;> rw [distortion_draws q (fun _ => fZero) (by decide) (by decide)] <;> decide +kernel

/-- Settles O21: the formula is the definition with the sign of R124 in it; the examples draw nothing. -/
theorem overdriveFollowsFormula : Obligations.OverdriveFollowsFormula := by
  refine ⟨fun s a p h hod => ?_, fun q => ?_⟩
  · have hexec := exec_overdrive_of_ready h hod
    simp only [overdrive, fsign, fneg_fOne] at hexec
    exact hexec
  · refine ⟨?_, ?_, ?_⟩ <;> rw [overdrive_draws _ q (fun _ => fZero) (by decide) (by decide)] <;> decide +kernel

/-- Settles O22: above the knee both factors are of magnitude at most 1.0, and so is their product; else the branch test
is the bound. -/
theorem overdriveIsBounded : Obligations.OverdriveIsBounded := fun _ _ _ h hod _ hv =>
  ⟨_, _, exec_overdrive_of_ready h hod, rfl, overdrive_bounded _ _ (isNaN_of_fmul_nanDraw hv) hv⟩

/-- Settles O23: `g·x` is an infinity, which the clamp cuts to the threshold and at which `NUM.exp` is `+0`. -/
theorem infiniteSamplesSaturate : Obligations.InfiniteSamplesSaturate := by
  refine ⟨fun s a p h hdt hx hg hg0 ht => ⟨_, exec_distortion_of_ready h hdt, ?_⟩,
    fun s a p h hod hx hg hg0 ht => ⟨_, exec_overdrive_of_ready h hod, ?_⟩⟩
  · exact congrArg _ (distortion_of_isInf hx hg hg0 ht _)
  · exact congrArg _ (fneg_fOne ▸ overdrive_of_isInf hx hg hg0 ht _ _)

/-- Settles O24: the product is the NaN drawn, for which every comparison is false. -/
theorem waveshapersPassNaN : Obligations.WaveshapersPassNaN :=
  ⟨fun _ _ p h hdt hx =>
      ⟨_, _, exec_distortion_of_ready h hdt, rfl, isNaN_distortion _ p hx (isNaN_nanDraw _ _)⟩,
    fun _ _ p h hod hx =>
      ⟨_, _, exec_overdrive_of_ready h hod, rfl, isNaN_overdrive _ _ p hx (isNaN_nanDraw _ _)⟩⟩

/-- Settles O25: the product changes sign with the sample; the clamp's interval is symmetric, and above the knee the
output changes sign with the sample too. -/
theorem waveshapersAreOdd : Obligations.WaveshapersAreOdd := by
  intro num q p x hg hpos ht ht0 hx
  have hg0 : isZero p.g = false := isZero_eq_false_of_pos hpos
  have hrank := rank_nonneg ht ht0
  exact ⟨distortion_fneg hg hg0 hrank hx q ht, overdrive_fneg hg hg0 hrank hx num q⟩

/-- Settles O26: what is not below `-t` is above a negative `t`. -/
theorem negativeThresholdClips : Obligations.NegativeThresholdClips := by
  intro s a p h hdt hneg v hv
  obtain ⟨ht, -, hrank⟩ := flt_iff.mp hneg
  exact ⟨_, exec_distortion_of_ready h hdt, congrArg _ (clamp_of_rank_neg hv ht hrank)⟩

end Sys2Proof.Machine
end

section
/-! SUPPORT. Rounding and bounds (R8, R139; log 5): rounding keeps the order, so what lies between two values that round
alike rounds as they do; and the roundings of a quotient of integers. -/

namespace Sys2Proof.Machine

/-! ### Rounding keeps the order -/

section Midpoint
variable {n d b : Nat} (hd : 0 < d)
include hd

/-- A value rounded up past a magnitude lies in the upper half of what is between them. -/
theorem midpoint_le_of_lt_roundBits (h : b < roundBits n d) : (unitsOf (roundBits n d) + unitsOf b) * d ≤ 2 * n := by
  have hlt : unitsOf b * d < unitsOf (roundBits n d) * d := Nat.mul_lt_mul_of_pos_right (unitsOf_strictMono h) hd
  have hnear := (le_abs_self _).trans (roundBits_nearest (n := n) hd b).1
  rw [add_mul]
  zify at hlt ⊢
  rcases le_abs.mp hnear with h | h <;> omega

/-- A value rounded down past a magnitude lies in the lower half of what is between them. -/
theorem le_midpoint_of_roundBits_lt (h : roundBits n d < b) : 2 * n ≤ (unitsOf (roundBits n d) + unitsOf b) * d := by
  have hlt : unitsOf (roundBits n d) * d < unitsOf b * d := Nat.mul_lt_mul_of_pos_right (unitsOf_strictMono h) hd
  have hnear := (neg_le_abs _).trans (roundBits_nearest (n := n) hd b).1
  rw [add_mul]
  zify at hlt ⊢
  rcases le_abs.mp hnear with h | h <;> omega

end Midpoint

/-- Of two quotients the greater one does not round to the smaller magnitude: the midpoint of the two magnitudes would
separate the quotients the wrong way round. -/
theorem magBits_mono {n d n' d' : Nat} (hd : 0 < d) (hd' : 0 < d') (h : n * d' ≤ n' * d) :
    magBits n d ≤ magBits n' d' := by
  rcases h.eq_or_lt with h | h
  · exact (magBits_congr hd hd' h).le
  rw [magBits_eq_min, magBits_eq_min]
  refine min_le_min_right _ (not_lt.mp fun hlt => ?_)
  have hup := Nat.mul_le_mul_right d' (midpoint_le_of_lt_roundBits hd hlt)
  have hdown := Nat.mul_le_mul_right d (le_midpoint_of_roundBits_lt hd' hlt)
  linarith

theorem natAbs_num_eq (r : Rat) : (r.num.natAbs : Rat) = |r| * r.den := by
  rw [← Nat.abs_cast r.den, ← abs_mul, Rat.mul_den_eq_num, Nat.cast_natAbs, Int.cast_abs]

@[simp] theorem signBit_rndF (r : Rat) : signBit (rndF r) = decide (r < 0) := by
  rw [rndF, signBit_rndUnits, decide_eq_decide, Rat.num_neg]

theorem absBits_rndF_mono {a b : Rat} (h : |a| ≤ |b|) : absBits (rndF a) ≤ absBits (rndF b) := by
  rw [rndF, rndF, absBits_rndUnits, absBits_rndUnits]
  refine magBits_mono a.den_pos b.den_pos ?_
  have hcross : (a.num.natAbs : Rat) * 2 ^ 149 * b.den ≤ b.num.natAbs * 2 ^ 149 * a.den := by
    rw [natAbs_num_eq, natAbs_num_eq]
    calc |a| * a.den * 2 ^ 149 * b.den = |a| * (a.den * 2 ^ 149 * b.den) := by ring
      _ ≤ |b| * (a.den * 2 ^ 149 * b.den) := mul_le_mul_of_nonneg_right h (by positivity)
      _ = |b| * b.den * 2 ^ 149 * a.den := by ring
  exact_mod_cast hcross

/-- What lies between two values that round alike rounds as they do. The two have the same sign, or they would not round
to the same zero. -/
theorem rndF_eq_of_between {a r b : Rat} (har : a ≤ r) (hrb : r ≤ b) (h : rndF a = rndF b) : rndF r = rndF a := by
  have hsign : a < 0 ↔ b < 0 := by simpa using congrArg signBit h
  have habs := congrArg absBits h
  rcases lt_or_ge r 0 with hr | hr
  · have ha := har.trans_lt hr
    have hb := hsign.mp ha
    have hup := absBits_rndF_mono (abs_le_abs_of_nonpos hr.le har)
    have hdown := absBits_rndF_mono (abs_le_abs_of_nonpos hb.le hrb)
    exact eq_of_signBit_of_absBits (by simp [ha, hr]) (by omega)
  · have hb : ¬ b < 0 := (hr.trans hrb).not_gt
    have ha : 0 ≤ a := not_lt.mp (hsign.not.mpr hb)
    have hup := absBits_rndF_mono (abs_le_abs_of_nonneg hr hrb)
    have hdown := absBits_rndF_mono (abs_le_abs_of_nonneg ha har)
    exact eq_of_signBit_of_absBits (by simp [ha.not_gt, hr.not_gt]) (by omega)

/-! ### Bounds -/

theorem unit_eq (p : Nat) : unit p = 2 ^ p := by simp [unit]

theorem roundBound_eq_rndF (p : Nat) (x : Int) : roundBound p x = rndF (x / 2 ^ p) := by
  have hpos : (0 : Rat) < 2 ^ p := by positivity
  refine (rndF_eq_rndUnits (Nat.two_pow_pos p) ?_ ?_).symm
  · rw [div_lt_iff₀ hpos, zero_mul, Int.cast_lt_zero, decide_eq_true_iff]
  · rw [abs_div, abs_of_pos hpos]
    push_cast [Nat.cast_natAbs]
    field_simp
    norm_num

theorem le_divDown_iff {n d k : Int} (hd : 0 < d) : k ≤ divDown n d ↔ k * d ≤ n := Int.le_ediv_iff_mul_le hd

theorem divUp_le_iff {n d k : Int} (hd : 0 < d) : divUp n d ≤ k ↔ n ≤ k * d := by
  rw [divUp, neg_le, Int.le_ediv_iff_mul_le hd, neg_mul, neg_le_neg_iff]

theorem divDown_mul_self (n : Int) {d : Int} (hd : 0 < d) : divDown (n * d) d = n := Int.mul_ediv_cancel n hd.ne'

theorem divUp_mul_self (n : Int) {d : Int} (hd : 0 < d) : divUp (n * d) d = n := by
  rw [divUp, ← neg_mul, Int.mul_ediv_cancel _ hd.ne', neg_neg]

end Sys2Proof.Machine
end

section
/-! SUPPORT. The coefficient calculator (R137 to R141; log 5): a quotient rounded once, the tolerance of the open
function, and the raw coefficients at a gain of 0 dB. -/

namespace Sys2Proof.Machine

/-! ### A quotient rounded once (R139) -/

/-- What a rounded quotient can be: the rounding on which both bounds agree, or, between close bounds on which they do
not, that of the first multiple of 2^-150 not below them. -/
theorem roundQuotient_some {p sep : Nat} {n d : Enc} {x : F} (h : roundQuotient p sep n d = some x) :
    0 < d.lo ∧ d.lo ≤ d.hi ∧
    ((roundBound p (Enc.div p n d).lo = roundBound p (Enc.div p n d).hi ∧ roundBound p (Enc.div p n d).lo = x) ∨
      (((Enc.div p n d).hi - (Enc.div p n d).lo) * unit sep < unit p ∧
        roundBound 150 (divUp ((Enc.div p n d).lo * unit 150) (unit p)) = x)) := by
  unfold roundQuotient at h
  split at h
  next => cases h
  next hd =>
    refine ⟨by omega, by omega, ?_⟩
    dsimp only at h
    split at h
    next heq => exact .inl ⟨heq, Option.some.inj h⟩
    next =>
      split at h
      next hclose => exact .inr ⟨hclose, Option.some.inj h⟩
      next => cases h

/-- Settles O56: the bounds round alike, and so does all between them; or the multiple of 2^-150 is the lower bound
rounded up to one. -/
theorem coefficientsRoundedOnce : Obligations.CoefficientsRoundedOnce := by
  intro p sep n d x h
  obtain ⟨hpos, hle, ⟨heq, rfl⟩ | ⟨hclose, rfl⟩⟩ := roundQuotient_some h
  · refine ⟨hpos, hle, .inl fun r hlo hhi => ?_⟩
    have hunit : (0 : Rat) < 2 ^ p := by positivity
    rw [roundBound_eq_rndF, roundBound_eq_rndF] at heq
    rw [roundBound_eq_rndF]
    exact rndF_eq_of_between ((div_le_iff₀ hunit).mpr hlo) ((le_div_iff₀ hunit).mpr hhi) heq
  · simp only [unit_eq] at hclose
    refine ⟨hpos, hle, .inr ⟨hclose, divUp ((Enc.div p n d).lo * unit 150) (unit p), ?_, ?_, ?_⟩⟩
    · simpa only [unit_eq] using (divUp_le_iff (unit_pos p)).mp le_rfl
    · simpa only [unit_eq, not_le] using (divUp_le_iff (unit_pos p)).not.mp (sub_one_lt _).not_ge
    · exact (roundBound_eq_rndF 150 _).symm

/-! ### The tolerance of the open function (R141) -/

theorem tolCoef_nonneg : 0 ≤ tolCoef := by
  unfold tolCoef
  split
  next => exact le_rfl
  next h => exact not_lt.mp h

/-- Where the bounds of the denominator can be divided by, a value between the bounds of the quotient is as far from `x`
as the tolerance and the width of the bounds allow. -/
theorem withinAt_dist {p : Nat} {x tol v : Rat} {n d : Enc} (h : withinAt p x tol n d = true) (hpos : 0 < d.lo)
    (hle : d.lo ≤ d.hi) (hlo : ((Enc.div p n d).lo : Rat) ≤ v * 2 ^ p) (hhi : v * 2 ^ p ≤ ((Enc.div p n d).hi : Rat)) :
    |x - v| * 2 ^ p ≤ tol * 2 ^ p + (((Enc.div p n d).hi : Rat) - (Enc.div p n d).lo) := by
  have hdiv : ¬ (d.lo ≤ 0 ∨ d.hi < d.lo) := by omega
  simp only [withinAt, hdiv, decide_false, Bool.false_or, Bool.and_eq_true, decide_eq_true_iff] at h
  obtain ⟨habove, hbelow⟩ := h
  have hunit : (0 : Rat) < 2 ^ p := by positivity
  have habs : |x - v| * 2 ^ p = |(x - v) * 2 ^ p| := by rw [abs_mul, abs_of_pos hunit]
  rw [habs, abs_le]
  constructor <;> linarith

/-- A coefficient that passes the test of the open function is finite, and no precision tried refutes it. -/
theorem coefClose_iff {pick : RawCoefs → Enc} {x : F} {fs : Nat} {f0 q gdb : Rat} :
    coefClose pick x fs f0 q gdb = true ↔ isFinite x = true ∧
      ∀ k, k < doublings (sepBits (toleranceBits (fToRat x) tolCoef) fs f0 q gdb) →
        withinAt (coefPrecision gdb * 2 ^ k) (fToRat x) tolCoef
          (pick (rawCoefs (coefPrecision gdb * 2 ^ k) fs f0 q gdb))
          (rawCoefs (coefPrecision gdb * 2 ^ k) fs f0 q gdb).a0r = true := by
  simp only [coefClose, Bool.and_eq_true, List.all_eq_true, List.mem_range]

theorem openCoef_cases (fs : Nat) (f0 q gdb : Rat) :
    openCoef fs f0 q gdb = refCoef fs f0 q gdb ∨ coefsClose (openCoef fs f0 q gdb) fs f0 q gdb = true := by
  unfold openCoef
  dsimp only
  split
  next h => exact .inr h
  next => exact .inl rfl

/-- Settles O57: the open function is the reference or passes the test of every coefficient. -/
theorem coefficientsWithinTolerance : Obligations.CoefficientsWithinTolerance := by
  refine ⟨tolCoef_nonneg, fun fs f0 q gdb => ⟨rfl, (openCoef_cases fs f0 q gdb).imp_right fun h x pick hmem => ?_⟩⟩
  have hclose : coefClose pick x fs f0 q gdb = true := by
    simp only [coefsClose, Bool.and_eq_true] at h
    obtain ⟨⟨⟨⟨hb0, hb1⟩, hb2⟩, ha1⟩, ha2⟩ := h
    simp only [numCoef, List.mem_cons, Prod.mk.injEq, List.not_mem_nil, or_false] at hmem
    rcases hmem with ⟨rfl, rfl⟩ | ⟨rfl, rfl⟩ | ⟨rfl, rfl⟩ | ⟨rfl, rfl⟩ | ⟨rfl, rfl⟩ <;> assumption
  obtain ⟨hfin, hall⟩ := coefClose_iff.mp hclose
  exact ⟨hfin, fun k hk hpos hle v hlo hhi => withinAt_dist (hall k hk) hpos hle hlo hhi⟩

/-! ### A gain of 0 dB (R147 (d)) -/

/-- Bounds in the order of a real's: the lower one is not above the upper one. -/
def Enc.Ordered (x : Enc) : Prop := x.lo ≤ x.hi

theorem encSqrtA_zero (p : Nat) : encSqrtA p 0 = Enc.exact (unit p) := if_pos rfl

/-- The product with an exact integer that is not negative puts the bounds in order. -/
theorem Enc.mul_exact (p : Nat) {n : Int} (hn : 0 ≤ n) (x : Enc) :
    Enc.mul p (Enc.exact (n * unit p)) x = ⟨n * min x.lo x.hi, n * max x.lo x.hi⟩ := by
  have hunit : 0 ≤ n * unit p := Int.mul_nonneg hn (unit_pos p).le
  have hmin : min (n * unit p * x.lo) (n * unit p * x.hi) = n * min x.lo x.hi * unit p := by
    rw [← mul_min_of_nonneg _ _ hunit, mul_right_comm]
  have hmax : max (n * unit p * x.lo) (n * unit p * x.hi) = n * max x.lo x.hi * unit p := by
    rw [← mul_max_of_nonneg _ _ hunit, mul_right_comm]
  simp only [Enc.mul, Enc.exact_lo, Enc.exact_hi, min_self, max_self, hmin, hmax,
    divDown_mul_self _ (unit_pos p), divUp_mul_self _ (unit_pos p)]

theorem Enc.mul_unit (p : Nat) {x : Enc} (hx : x.Ordered) : Enc.mul p (Enc.exact (unit p)) x = x := by
  have h := Enc.mul_exact p zero_le_one x
  rwa [one_mul, one_mul, one_mul, min_eq_left hx, max_eq_right hx] at h

theorem Enc.mul_zero (p : Nat) (x : Enc) : Enc.mul p (Enc.exact 0) x = Enc.exact 0 := by
  have h := Enc.mul_exact p le_rfl x
  rwa [zero_mul, zero_mul, zero_mul] at h

theorem Enc.ordered_mul_two (p : Nat) (x : Enc) : (Enc.mul p (Enc.exact (2 * unit p)) x).Ordered := by
  rw [Enc.mul_exact p zero_le_two, Enc.Ordered]
  exact mul_le_mul_of_nonneg_left min_le_max zero_le_two

/-- Twice the negative is minus two times the value. -/
theorem Enc.scale_two_zero_sub (x : Enc) : ((Enc.exact 0).sub x).scale 2 = ((Enc.exact 0).add x).scale (-2) := by
  simp [Enc.scale, Enc.sub, Enc.add, divDown, divUp]

/-- At 0 dB `A` is exactly 1, and where the bounds of `a0` are in order the raw numerator is the raw denominator. -/
theorem rawCoefs_zero_gain {p fs : Nat} {f0 q : Rat} (h : (rawCoefs p fs f0 q 0).a0r.Ordered) :
    (rawCoefs p fs f0 q 0).b0r = (rawCoefs p fs f0 q 0).a0r ∧ (rawCoefs p fs f0 q 0).b1r = (rawCoefs p fs f0 q 0).a1r ∧
      (rawCoefs p fs f0 q 0).b2r = (rawCoefs p fs f0 q 0).a2r := by
  have hA : Enc.mul p (Enc.exact (unit p)) (Enc.exact (unit p)) = Enc.exact (unit p) := Enc.mul_unit p le_rfl
  have hup : (Enc.exact (unit p)).add (Enc.exact (unit p)) = Enc.exact (2 * unit p) := by
    simp [Enc.add, Enc.exact, two_mul]
  have hdown : (Enc.exact (unit p)).sub (Enc.exact (unit p)) = Enc.exact 0 := by
    simp [Enc.sub, Enc.exact]
  have hsum : (Enc.exact (2 * unit p)).add (Enc.exact 0) = Enc.exact (2 * unit p) := by simp [Enc.add, Enc.exact]
  have hdiff : (Enc.exact (2 * unit p)).sub (Enc.exact 0) = Enc.exact (2 * unit p) := by simp [Enc.sub, Enc.exact]
  simp only [rawCoefs, encSqrtA_zero, hA, hup, hdown, Enc.mul_zero, hsum, hdiff] at h ⊢
  generalize Enc.scale 2 _ = beta at h ⊢
  generalize encCos _ _ = cw
  have hbeta : beta.Ordered := by simpa [Enc.Ordered, Enc.add] using h
  have hsub : ((Enc.exact (2 * unit p)).sub beta).Ordered := sub_le_sub_left hbeta _
  have hcos : ((Enc.exact 0).sub (Enc.mul p (Enc.exact (2 * unit p)) cw)).Ordered :=
    sub_le_sub_left (Enc.ordered_mul_two p cw) 0
  rw [Enc.mul_unit p h, Enc.mul_unit p hsub, Enc.mul_unit p hcos, Enc.scale_two_zero_sub]
  exact ⟨rfl, rfl, rfl⟩

/-- Where the bounds tell the coefficients at 0 dB, numerator and denominator agree. -/
theorem coefsAt_zero_gain {p sep fs : Nat} {f0 q : Rat} {c : Coefs}
    (h : coefsAt p sep (rawCoefs p fs f0 q 0) = some c) :
    c.b1 = c.a1 ∧ c.b2 = c.a2 ∧
      roundQuotient p sep (rawCoefs p fs f0 q 0).a0r (rawCoefs p fs f0 q 0).a0r = some c.b0 := by
  obtain ⟨hb0, hb1, hb2, ha1, ha2⟩ := coefsAt_some h
  obtain ⟨-, hle, -⟩ := coefficientsRoundedOnce _ _ _ _ _ hb0
  obtain ⟨h0, h1, h2⟩ := rawCoefs_zero_gain hle
  rw [h0] at hb0
  rw [h1, ha1] at hb1
  rw [h2, ha2] at hb2
  exact ⟨(Option.some.inj hb1).symm, (Option.some.inj hb2).symm, hb0⟩

/-- The bounds of a quotient of a real by itself hold 1. -/
theorem Enc.div_self_bounds (p : Nat) {d : Enc} (hpos : 0 < d.lo) (hle : d.Ordered) :
    (Enc.div p d d).lo ≤ unit p ∧ unit p ≤ (Enc.div p d d).hi := by
  have hdown := divDown_mul_self (unit p) hpos
  have hup := divUp_mul_self (unit p) (hpos.trans_le hle)
  rw [mul_comm] at hdown hup
  exact ⟨(min_le_left _ _).trans_eq hdown, hup.symm.trans_le (le_max_right _ _)⟩

theorem rndF_one : rndF 1 = fOne := by decide +kernel

/-- `a0` over itself rounds to 1.0, from bounds that differ by less than 2^-150 as well: the multiple of 2^-150 from the
lower one on is 1. -/
theorem roundQuotient_self {p sep : Nat} (hsep : 150 ≤ sep) {d : Enc} {x : F} (h : roundQuotient p sep d d = some x) :
    x = fOne := by
  obtain ⟨hpos, hle, hcases⟩ := coefficientsRoundedOnce _ _ _ _ _ h
  obtain ⟨hlo, hhi⟩ := Enc.div_self_bounds p hpos hle
  rw [unit_eq] at hlo hhi
  rcases hcases with hbetween | ⟨hclose, k, hk, hk', rfl⟩
  · rw [← rndF_one]
    exact (hbetween 1 (by rw [one_mul]; exact_mod_cast hlo) (by rw [one_mul]; exact_mod_cast hhi)).symm
  · have hp : (0 : Int) < 2 ^ p := by positivity
    have hwidth : (2 ^ p - (Enc.div p d d).lo) * 2 ^ 150 < 2 ^ p :=
      calc (2 ^ p - (Enc.div p d d).lo) * 2 ^ 150 ≤ ((Enc.div p d d).hi - (Enc.div p d d).lo) * 2 ^ sep :=
            mul_le_mul (by omega) (pow_le_pow_right₀ (by decide) hsep) (by positivity) (by omega)
        _ < 2 ^ p := hclose
    have hbelow : k - 1 < 2 ^ 150 := lt_of_mul_lt_mul_right (hk'.trans_le (by linarith)) hp.le
    have habove : 2 ^ 150 - 1 < k := lt_of_mul_lt_mul_right (a := (2 : Int) ^ p) (by linarith) hp.le
    obtain rfl : k = 2 ^ 150 := by omega
    rw [← rndF_one]
    norm_num

/-- Settles O32: an answer comes from the bounds of one precision; without one all coefficients are `+0`. -/
theorem zeroGainCoefficientsAgree : Obligations.ZeroGainCoefficientsAgree := by
  intro fs f0 q
  have hanswer : ∀ {sep fuel c}, coefSearch sep fs f0 q 0 fuel (coefPrecision 0) = some c →
      ∃ p, coefsAt p sep (rawCoefs p fs f0 q 0) = some c := fun h =>
    let ⟨_, _, hat⟩ := coefSearch_some h
    ⟨_, hat⟩
  rw [← and_assoc]
  constructor
  · unfold refCoef
    dsimp only
    cases hsearch : coefSearch _ fs f0 q 0 _ (coefPrecision 0) with
    | none => exact ⟨rfl, rfl⟩
    | some c =>
      obtain ⟨p, hat⟩ := hanswer hsearch
      obtain ⟨h1, h2, -⟩ := coefsAt_zero_gain hat
      exact ⟨h1, h2⟩
  · intro sep fuel c hsep hsearch
    obtain ⟨p, hat⟩ := hanswer hsearch
    obtain ⟨-, -, h0⟩ := coefsAt_zero_gain hat
    exact roundQuotient_self hsep h0

end Sys2Proof.Machine
end

section
/-! SUPPORT. The biquad stage (43_biquad.md): one step on a ready stage (R142), zeros and NaNs through a run of it (R147),
and the printed coefficients. -/

namespace Sys2Proof.Machine

/-! ### One step on a ready stage -/

/-- Settles O27: a ready stage runs its sample step, which is the recurrence on the stage's record. -/
theorem bassboostCompletes : Obligations.BassboostCompletes := by
  intro s a bb h hbb
  have hexec := exec_stageInstr_of_ready h (Option.isSome_of_eq_some hbb)
  simp only [stageSample, sampleAt, bassboostSample, hbb] at hexec
  exact hexec

/-! ### Silence (R147 (a)) -/

/-- A zero of either sign, added to `+0` or subtracted from it, leaves `+0`. -/
theorem fadd_fZero_zero (q : F) {z : F} (hz : isZero z = true) : fadd q fZero z = fZero ∧ fsub q fZero z = fZero := by
  have hsum : ∀ {z : F}, isZero z = true → fadd q fZero z = fZero := fun {z} hz => by
    have hz0 := (isZero_iff z).mp hz
    have hfin : isFinite z = true := by rw [isFinite_iff, hz0]; decide
    have hsign : signBit fZero = false := by decide
    rw [fadd_eq_zero (by decide) hfin (by rw [sval_eq_zero.mpr hz0]; decide), hsign]
    rfl
  exact ⟨hsum hz, hsum (by simpa using hz)⟩

/-- A fresh biquad answers `+0` to `+0`: the first product is `+0`, and the others are zeros. -/
theorem biquadOut_silence (q : Nat → F) {c : Coefs} (hb0 : isFinite c.b0 = true) (hsign : signBit c.b0 = false)
    (hb1 : isFinite c.b1 = true) (hb2 : isFinite c.b2 = true) (ha1 : isFinite c.a1 = true)
    (ha2 : isFinite c.a2 = true) : biquadOut q (Biquad.fresh c) fZero = fZero := by
  have hzero : ∀ (q : F) {x : F}, isFinite x = true → isZero (fmul q x fZero) = true := fun q x hx => by
    rw [isZero_iff, absBits_fmul_of_isZero q hx rfl]
  have hfirst : fmul (q 0) c.b0 fZero = fZero := by rw [fmul_comm, fmul_fZero_left_of_nonneg _ hb0 hsign]
  simp only [biquadOut, Biquad.fresh_b0, Biquad.fresh_b1, Biquad.fresh_b2, Biquad.fresh_a1, Biquad.fresh_a2,
    Biquad.fresh_x1, Biquad.fresh_x2, Biquad.fresh_y1, Biquad.fresh_y2, hfirst, (fadd_fZero_zero _ (hzero _ hb1)).1,
    (fadd_fZero_zero _ (hzero _ hb2)).1, (fadd_fZero_zero _ (hzero _ ha1)).2, (fadd_fZero_zero _ (hzero _ ha2)).2]

/-- Settles O29, by induction on the number of samples: each is answered by `+0`, and `+0` is what the history holds. -/
theorem biquadSilence : Obligations.BiquadSilence := by
  intro q c n hb0 hsign hb1 hb2 ha1 ha2
  have hstep : ∀ q, biquadStep q (Biquad.fresh c) fZero = (fZero, Biquad.fresh c) := fun q => by
    simp only [biquadStep, biquadOut_silence q hb0 hsign hb1 hb2 ha1 ha2]
    rfl
  change biquadRun q (Biquad.fresh c) (List.replicate n fZero) = (List.replicate n fZero, Biquad.fresh c)
  induction n generalizing q with
  | zero => rfl
  | succ n ih => simp only [List.replicate_succ, biquadRun, hstep, ih]

/-! ### NaNs (R147 (c)) -/

/-- A NaN as the sample or as the last output makes the output a NaN: every operation from there on draws one. -/
theorem isNaN_biquadOut {q : Nat → F} (hq : ∀ j, isNaN (q j) = true) {bb : Biquad} {x : F}
    (h : isNaN x = true ∨ isNaN bb.y1 = true) : isNaN (biquadOut q bb x) = true := by
  have hadd : ∀ j {a} b, isNaN a = true → fadd (q j) a b = q j := fun j _ b ha => (operations_of_isNaN b ha).1
  have hsub : ∀ j {a} b, isNaN a = true → fsub (q j) a b = q j := fun j _ b ha => hadd j _ ha
  have hsub' : ∀ j a {b}, isNaN b = true → fsub (q j) a b = q j := fun j a _ hb => by
    obtain ⟨-, -, -, hright, -⟩ := operations_of_isNaN (q := q j) a hb
    exact hright
  rcases h with hx | hy
  · simp only [biquadOut, fmul_isNaN_right _ _ hx, hadd _ _ (hq _), hsub _ _ (hq _), hq]
  · simp only [biquadOut, fmul_isNaN_right _ _ hy, hsub' _ _ (hq _), hsub _ _ (hq _), hq]

/-- From a NaN on, as the sample or as the last output, every output is a NaN, since each becomes the last output. -/
theorem biquadRun_isNaN {q : Nat → F} (hq : ∀ j, isNaN (q j) = true) {bb : Biquad} {x : F} (xs : List F)
    (h : isNaN x = true ∨ isNaN bb.y1 = true) : (biquadRun q bb (x :: xs)).1.all isNaN = true := by
  induction xs generalizing q bb x with
  | nil => simpa [biquadRun, biquadStep] using isNaN_biquadOut hq h
  | cons x' xs ih =>
    have hout := isNaN_biquadOut hq h
    rw [biquadRun, List.all_cons, Bool.and_eq_true]
    exact ⟨hout, ih (fun j => hq _) (.inr hout)⟩

/-- Settles O30: the sample is a NaN. -/
theorem biquadNaNForEver : Obligations.BiquadNaNForEver := fun q bb x xs hq hx =>
  ⟨biquadRun_isNaN hq xs (.inl hx), biquadRun_length q bb (x :: xs)⟩

/-! ### The printed coefficients -/

/-- Settles O31: each search ends at its first precision, where the bounds round to the printed words. -/
theorem referenceCoefficients : Obligations.ReferenceCoefficients :=
  ⟨by decide +kernel, by decide +kernel⟩

end Sys2Proof.Machine
end

section
/-! SUPPORT. The chain wrapper (44_chain_builder.md): reading and writing a register by its number (R26, R77), and each
way a command of the wrapper can go (R162, R166, R167). -/

namespace Sys2Proof.Machine

/-! ### The register file by number -/

/-- The registers of R26 with what each reads as. -/
def registers (hw : Hw) : List (Nat × ReadVal) := [
  (0, readNat hw.cfg.fs), (1, readNat hw.cfg.nch),
  (2, .value (.word hw.cfg.sel.toNat)), (3, .value (.real hw.cfg.rvDelay)), (4, .value (.f hw.cfg.rvMix)),
  (5, .value (.f hw.cfg.rvFb)), (6, .value (.f hw.cfg.dtGain)),
  (7, .value (.f hw.cfg.dtThr)), (8, .value (.real hw.cfg.bbF0)), (9, .value (.real hw.cfg.bbQ)),
  (10, .value (.real hw.cfg.bbGdb)), (11, .value (.f hw.cfg.odGain)), (12, .value (.f hw.cfg.odThr)),
  (13, .value (.real hw.cfg.dsDelay)), (14, .value (.f hw.cfg.dsMix)), (15, .value (.f hw.cfg.dsFb)),
  (16, .phase hw.phase), (17, .fault (faultNumber hw.fault))]

theorem cfgGet_of_mem_registers {hw : Hw} {p : Nat × ReadVal} (h : p ∈ registers hw) : cfgGet p.1 hw = some p.2 := by
  unfold registers at h
  fin_cases h <;> rfl

theorem cfgGet_of_ge {reg : Nat} (h : 18 ≤ reg) (hw : Hw) : cfgGet reg hw = none := by
  obtain ⟨n, rfl⟩ := Nat.exists_eq_add_of_le' h
  rfl

/-- The value a register holds after a write: a word, which only `SEL` takes, is cut to six bits (R73). -/
def storedValue : CfgVal → CfgVal
  | .word w => .word (w % 64)
  | v => v

theorem CfgVal.lt_of_fits {reg : Nat} {v : CfgVal} (h : v.fits reg = true) : reg < 16 := by
  cases v <;> simp [CfgVal.fits] at h <;> omega

theorem cfgGet_cfgSet_same {reg : Nat} {v : CfgVal} {hw : Hw} {c : Cfg} (h : cfgSet reg v hw.cfg = some c) :
    cfgGet reg { hw with cfg := c } = some (.value (storedValue v)) := by
  unfold cfgSet at h
  split at h <;> cases h <;> rfl

theorem cfgGet_cfgSet_other {reg r : Nat} {v : CfgVal} {hw : Hw} {c : Cfg} (h : cfgSet reg v hw.cfg = some c)
    (hr : r ≠ reg) : cfgGet r { hw with cfg := c } = cfgGet r hw := by
  unfold cfgSet at h
  split at h <;> cases h <;> unfold cfgGet <;> split <;> trivial

/-! ### `CFGWR` and `CFGRD` -/

theorem exec_cfgwr_of_phase (reg : Nat) (v : CfgVal) {s : State} (h : s.hw.phase ≠ .idle) :
    exec (.cfgwr reg v) s = .next (respond (.refused .wrongPhase) s) :=
  if_pos h

theorem exec_cfgwr_of_ge {reg : Nat} (v : CfgVal) {s : State} (hidle : s.hw.phase = .idle) (h : 16 ≤ reg) :
    exec (.cfgwr reg v) s =
      .next (respond (.refused (if 18 ≤ reg then .noSuchRegister else .readOnlyRegister)) s) := by
  by_cases h18 : 18 ≤ reg <;> simp [exec, execCfgwr, refuse, hidle, h, h18]

theorem exec_cfgwr_of_cfgSet {reg : Nat} {v : CfgVal} {s : State} {c : Cfg} (hidle : s.hw.phase = .idle)
    (hreg : reg < 16) (hset : cfgSet reg v s.hw.cfg = some c) :
    exec (.cfgwr reg v) s = .next (respond .ended { s with hw := { s.hw with cfg := c } }) := by
  have h18 : ¬ 18 ≤ reg := by omega
  simp [exec, execCfgwr, hidle, hreg.not_ge, h18, hset]

theorem exec_cfgrd_of_some {reg : Nat} {v : ReadVal} {s : State} (h : cfgGet reg s.hw = some v) :
    exec (.cfgrd reg) s = .next (respond (.value v) s) := by
  rw [exec, execCfgrd, h]

theorem exec_cfgrd_of_ge {reg : Nat} (s : State) (h : 18 ≤ reg) :
    exec (.cfgrd reg) s = .next (respond (.refused .noSuchRegister) s) := by
  rw [exec, execCfgrd, cfgGet_of_ge h, refuse]

/-! ### `BUILD` -/

theorem forall_kind {P : Kind → Prop} :
    (∀ k, P k) ↔ P .reverb ∧ P .distortion ∧ P .bassboost ∧ P .overdrive ∧ P .distance :=
  ⟨fun h => ⟨h _, h _, h _, h _, h _⟩, fun ⟨h0, h1, h2, h3, h4⟩ k => by cases k <;> assumption⟩

/-- R162's conditions are the checks the model makes, once both format registers are written. -/
theorem buildAccepts_iff {p : Impl} {c : Cfg} :
    BuildAccepts p c ↔ ∃ fs nch, c.fs = some fs ∧ c.nch = some nch ∧ buildOk p c fs nch = true := by
  simp only [BuildAccepts, buildOk_iff, forall_kind, stageOk, Bool.and_eq_true, decide_eq_true_eq, and_assoc]

theorem exec_build_of_phase {s : State} (h : s.hw.phase ≠ .idle) :
    exec .build s = .next (respond (.refused .wrongPhase) s) :=
  if_pos h

theorem exec_build_of_buildOk {s : State} {fs nch : Nat} (hidle : s.hw.phase = .idle) (hfs : s.hw.cfg.fs = some fs)
    (hnch : s.hw.cfg.nch = some nch) (hok : buildOk s.impl s.hw.cfg fs nch = true) :
    exec .build s = .next (respond .ended { s with hw := builtHw s.impl fs nch s.hw }) := by
  simp [exec, execBuild, hidle, hfs, hnch, hok]

theorem exec_build_of_not_accepts {s : State} (hidle : s.hw.phase = .idle) (h : ¬ BuildAccepts s.impl s.hw.cfg) :
    exec .build s = .next (raiseFault .invalidEffectParameter s) := by
  rw [exec, execBuild, if_neg (not_not.mpr hidle)]
  split
  next fs nch hfs hnch =>
    exact if_neg fun hok => h (buildAccepts_iff.mpr ⟨fs, nch, hfs, hnch, hok⟩)
  · rfl

/-! ### The phase -/

/-- The phase afterwards: as it was, but for `RESET`, for a `BUILD` in `IDLE`, and for `FAIL`, which leads to `FAULT`. -/
theorem HwEffect.phase {i : Instr} {s : State} {h : Hw} (he : HwEffect i s h) :
    h.phase = s.hw.phase ∨ i = .reset ∨ (i = .build ∧ s.hw.phase = .idle) ∨ ((∃ c, i = .fail c) ∧ h.phase = .fault) := by
  cases he with
  | kept => exact .inl rfl
  | reset hi => exact .inr (.inl hi)
  | configured => exact .inl rfl
  | built hi hidle => exact .inr (.inr (.inl ⟨hi, hidle⟩))
  | raised hi =>
    cases hi with
    | build hidle => exact .inr (.inr (.inl ⟨rfl, hidle⟩))
    | failUnreadable => exact .inr (.inr (.inr ⟨⟨2, rfl⟩, rfl⟩))
    | failWrite => exact .inr (.inr (.inr ⟨⟨3, rfl⟩, rfl⟩))
  | sampled _ hs => exact .inl hs.phase_fault.1

theorem exec_keeps_phase {i : Instr} {s t : State} (h : exec i s = .next t) (hreset : i ≠ .reset) (hbuild : i ≠ .build)
    (hfail : ∀ c, i ≠ .fail c) : t.hw.phase = s.hw.phase := by
  rcases (exec_effect h).1.phase with e | hi | ⟨hi, -⟩ | ⟨⟨c, hi⟩, -⟩
  · exact e
  · exact absurd hi hreset
  · exact absurd hi hbuild
  · exact absurd hi (hfail c)

theorem build_leaves_idle {s t : State} (hidle : s.hw.phase = .idle) (h : exec .build s = .next t) :
    t.hw.phase = .run ∨ t.hw.phase = .fault := by
  by_cases hacc : BuildAccepts s.impl s.hw.cfg
  · obtain ⟨fs, nch, hfs, hnch, hok⟩ := buildAccepts_iff.mp hacc
    rw [exec_build_of_buildOk hidle hfs hnch hok] at h
    cases h; exact .inl rfl
  · rw [exec_build_of_not_accepts hidle hacc] at h
    cases h; exact .inr rfl

/-- The factors at reset are the documented defaults, rounded once (R6, R26). -/
theorem reset_factors :
    Cfg.reset.rvMix = rndF (1 / 2) ∧ Cfg.reset.rvFb = rndF 1 ∧ Cfg.reset.dtGain = rndF 3 ∧
    Cfg.reset.dtThr = rndF (6 / 10) ∧ Cfg.reset.odGain = rndF 3 ∧ Cfg.reset.odThr = rndF (3 / 10) ∧
    Cfg.reset.dsMix = rndF (1 / 2) ∧ Cfg.reset.dsFb = rndF (1 / 2) := by decide +kernel

/-! ### The statements -/

/-- Settles O34: a value that fits is stored, and each register reads its own field. -/
theorem cfgwrWritesOneRegister : Obligations.CfgwrWritesOneRegister := by
  refine ⟨fun s reg value hidle hfits => ?_, fun s reg value h => exec_cfgwr_of_phase reg value h,
    fun s reg value hidle h => exec_cfgwr_of_ge value hidle h⟩
  obtain ⟨c, hset⟩ := Option.isSome_iff_exists.mp ((cfgSet_isSome reg value s.hw.cfg).trans hfits)
  exact ⟨_, exec_cfgwr_of_cfgSet hidle (CfgVal.lt_of_fits hfits) hset, cfgGet_cfgSet_same hset,
    fun r hr => cfgGet_cfgSet_other hset hr, rfl⟩

/-- Settles O36: `BUILD` goes by the checks of R162. -/
theorem buildMakesChainOrFaults : Obligations.BuildMakesChainOrFaults := by
  refine ⟨fun s h => exec_build_of_phase h, fun s hidle h => exec_build_of_not_accepts hidle h,
    fun s hidle h => ?_⟩
  obtain ⟨fs, nch, hfs, hnch, hok⟩ := buildAccepts_iff.mp h
  exact ⟨fs, nch, hfs, hnch, _, exec_build_of_buildOk hidle hfs hnch hok, rfl, rfl, rfl, rfl, rfl, rfl, rfl, rfl, rfl,
    rfl, rfl⟩

/-- Settles O46: the phase is kept by all but `RESET`, `BUILD` and `FAIL`, whose next phases their own cases give. -/
theorem phaseTable : Obligations.PhaseTable := by
  intro i s t h
  have hkept := exec_keeps_phase h
  have hrefused : exec i s = .next (respond (.refused .wrongPhase) s) → t = respond (.refused .wrongPhase) s :=
    fun e => Host.Outcome.next.inj (h.symm.trans e)
  refine ⟨?reset, ?cfgwr, ?cfgrd, ?build, ?produce, ?format, ?fail, hkept⟩
  case reset => rintro rfl; cases h; rfl
  case cfgwr => rintro r v rfl; exact ⟨hkept nofun nofun nofun, fun hp => hrefused (exec_cfgwr_of_phase r v hp)⟩
  case cfgrd => rintro r rfl; exact hkept nofun nofun nofun
  case build =>
    rintro rfl
    exact ⟨fun hidle => build_leaves_idle hidle h, fun hp => hrefused (exec_build_of_phase hp)⟩
  case produce =>
    rintro b o m rfl
    exact ⟨hkept nofun nofun nofun, fun hp => hrefused (exec_produce_of_phase b o m hp)⟩
  case format => rintro rfl; exact ⟨hkept nofun nofun nofun, fun hp => hrefused (if_pos hp)⟩
  case fail =>
    rintro c rfl hc
    rcases hc with rfl | rfl <;> cases h <;> exact ⟨rfl, fun hcode => if_neg hcode⟩

/-- Settles O33: `RESET` loads the reset record, and no other instruction leads from `FAULT`, or from `RUN` but into
`FAULT`. -/
theorem resetLeavesDefaults : Obligations.ResetLeavesDefaults := by
  refine ⟨fun s => ?_, fun i s t h hi => ?_⟩
  · obtain ⟨hrvMix, hrvFb, hdtGain, hdtThr, hodGain, hodThr, hdsMix, hdsFb⟩ := reset_factors
    exact ⟨resetHw s, rfl, rfl, rfl, rfl, rfl, rfl, rfl, rfl, hrvMix, hrvFb, hdtGain, hdtThr, rfl, rfl, rfl, hodGain,
      hodThr, rfl, hdsMix, hdsFb, rfl, rfl⟩
  · rcases (exec_effect h).1.phase with e | hreset | ⟨-, hidle⟩ | ⟨-, hfault⟩
    · exact ⟨e.trans, fun hrun => .inl (e.trans hrun)⟩
    · exact absurd hreset hi
    · simp [hidle]
    · exact ⟨fun _ => hfault, fun _ => .inr hfault⟩

/-- Settles O35: the listed values are what the registers read as. -/
theorem cfgrdReturnsRegister : Obligations.CfgrdReturnsRegister := by
  refine ⟨fun s reg v h => ?_, fun s reg h => exec_cfgrd_of_ge s h⟩
  have hget : cfgGet reg s.hw = some v := cfgGet_of_mem_registers (hw := s.hw) (p := (reg, v)) h
  exact ⟨hget, exec_cfgrd_of_some hget⟩

end Sys2Proof.Machine
end

section
/-! SUPPORT. Refusals, faults and completion (R177, R180, R187): what is refused and changes only the answer, what a
fault leaves, and that under the invariant every instruction has a next state. -/

namespace Sys2Proof.Machine

/-! ### `FAIL` (R177) -/

theorem exec_fail_of_reported {code : Nat} {c : FaultCode} (h : reportedFault code = some c) (s : State) :
    exec (.fail code) s = .next (raiseFault c s) := by
  rw [exec, execFail, h]

theorem exec_fail_of_not_reported {code : Nat} (h : reportedFault code = none) (s : State) :
    exec (.fail code) s = .next (respond (.refused .badFailCode) s) := by
  rw [exec, execFail, h, refuse]

theorem reportedFault_eq_some {code : Nat} (h : code = 2 ∨ code = 3) :
    reportedFault code = some (if code = 2 then .sourceUnreadable else .writeFailure) := by
  rcases h with rfl | rfl <;> rfl

theorem reportedFault_eq_none {code : Nat} (h2 : code ≠ 2) (h3 : code ≠ 3) : reportedFault code = none :=
  if_neg (not_or.mpr ⟨h2, h3⟩)

theorem faultNumber_of_reported {code : Nat} {c : FaultCode} (h : reportedFault code = some c) :
    faultNumber c = code := by
  rcases reportedFault_cases code with ⟨rfl, e⟩ | ⟨rfl, e⟩ | ⟨-, -, e⟩ <;> rw [e] at h <;> cases h <;> rfl

/-- Register 17, read after a fault has entered with code `c` as the first one, has that code's number (R78, R177). -/
theorem cfgrd_fault_of_raiseFault {s u : State} {c : FaultCode} (hnone : s.hw.fault = .none)
    (h : exec (.cfgrd 17) (raiseFault c s) = .next u) : u.resp = .value (.fault (faultNumber c)) := by
  have hget : cfgGet 17 (raiseFault c s).hw = some (.fault (faultNumber (raiseFault c s).hw.fault)) := rfl
  rw [raiseFault_hw_fault, if_pos hnone] at hget
  rw [exec_cfgrd_of_some hget] at h
  cases h
  rfl

/-! ### Refused commands (R180) -/

theorem exec_format_of_phase {s : State} (h : s.hw.phase ≠ .run) :
    exec .format s = .next (respond (.refused .wrongPhase) s) :=
  if_pos h

/-- Command code 7 is refused with any operands (R81 (d)). -/
theorem serve_reservedCommand (args : Args) (s : State) :
    serve (.cmd 0b111#3 args) s = .next (respond (.refused .reservedCommand) s) := by
  cases args <;> rfl

theorem step_reservedCommand {s : State} {args : Args} {rest : List Request}
    (h : s.queue = .cmd 0b111#3 args :: rest) :
    step s = .next { s with queue := rest, resp := .refused .reservedCommand } :=
  (step_of_queue h).trans (serve_reservedCommand args _)

/-- A `CFGWR` is refused outside `IDLE`, and of a register that cannot be written (R166). -/
theorem exec_cfgwr_refused {reg : Nat} (v : CfgVal) {s : State} (h : s.hw.phase ≠ .idle ∨ 16 ≤ reg) :
    ∃ why, exec (.cfgwr reg v) s = .next (respond (.refused why) s) := by
  by_cases hidle : s.hw.phase = .idle
  · exact ⟨_, exec_cfgwr_of_ge v hidle (h.resolve_left (not_not.mpr hidle))⟩
  · exact ⟨_, exec_cfgwr_of_phase reg v hidle⟩

/-- A `PRODUCE` is refused outside `RUN`, and of a range that the buffer does not hold (R90). -/
theorem exec_produce_refused {buf : Option (List F)} {offset maxCount : Nat} {s : State}
    (h : s.hw.phase ≠ .run ∨ (buf.getD s.buf).length < offset + maxCount) :
    ∃ why, exec (.produce buf offset maxCount) s = .next (respond (.refused why) s) := by
  by_cases hrun : s.hw.phase = .run
  · exact ⟨_, exec_produce_of_beyond hrun (h.resolve_left (not_not.mpr hrun))⟩
  · exact ⟨_, exec_produce_of_phase buf offset maxCount hrun⟩

/-! ### Completion (R187) -/

/-- The invariant gives each stage of the mask its record, so in `RUN` only the range decides on a `PRODUCE` (R90). -/
theorem HwOk.produceReady {p : Impl} {buf : Option (List F)} {offset maxCount : Nat} {s : State} (hs : HwOk p s.hw)
    (hrun : s.hw.phase = .run) (hrange : offset + maxCount ≤ (buf.getD s.buf).length) :
    ProduceReady buf offset maxCount s :=
  ⟨hrun, hrange, fun k hk => (hs.present k).trans hk⟩

theorem stageInstr_completes {p : Impl} {s : State} (hs : HwOk p s.hw) (k : Kind) (a : Nat) :
    ∃ t, exec (stageInstr k a) s = .next t := by
  rw [exec_stageInstr]
  rcases runStage_cases k (stagePresent s.hw k) (stageSample k) a s with
    ⟨-, e⟩ | ⟨-, -, -, e⟩ | ⟨-, hsel, -, habsent, -⟩ | ⟨-, -, -, -, e⟩
  · exact ⟨_, e⟩
  · exact ⟨_, e⟩
  · rw [hs.present, hsel] at habsent
    cases habsent
  · exact ⟨_, e⟩

theorem cfgwr_completes {reg : Nat} {v : CfgVal} {s : State}
    (hfits : s.hw.phase = .idle → reg ≤ 15 → v.fits reg = true) : ∃ t, exec (.cfgwr reg v) s = .next t := by
  by_cases hrefused : s.hw.phase ≠ .idle ∨ 16 ≤ reg
  · obtain ⟨why, h⟩ := exec_cfgwr_refused v hrefused
    exact ⟨_, h⟩
  · obtain ⟨hidle, hreg⟩ := not_or.mp hrefused
    rw [not_not] at hidle
    have hset : (cfgSet reg v s.hw.cfg).isSome = true := (cfgSet_isSome ..).trans (hfits hidle (by omega))
    obtain ⟨c, hc⟩ := Option.isSome_iff_exists.mp hset
    exact ⟨_, exec_cfgwr_of_cfgSet hidle (not_le.mp hreg) hc⟩

theorem cfgrd_completes (reg : Nat) (s : State) : ∃ t, exec (.cfgrd reg) s = .next t := by
  cases hget : cfgGet reg s.hw with
  | none => exact ⟨_, by rw [exec, execCfgrd, hget, refuse]⟩
  | some v => exact ⟨_, exec_cfgrd_of_some hget⟩

theorem build_completes (s : State) : ∃ t, exec .build s = .next t := by
  by_cases hidle : s.hw.phase = .idle
  · by_cases hacc : BuildAccepts s.impl s.hw.cfg
    · obtain ⟨fs, nch, hfs, hnch, hok⟩ := buildAccepts_iff.mp hacc
      exact ⟨_, exec_build_of_buildOk hidle hfs hnch hok⟩
    · exact ⟨_, exec_build_of_not_accepts hidle hacc⟩
  · exact ⟨_, exec_build_of_phase hidle⟩

theorem produce_completes {p : Impl} {s : State} (hs : HwOk p s.hw) (buf : Option (List F)) (offset maxCount : Nat) :
    ∃ t, exec (.produce buf offset maxCount) s = .next t := by
  by_cases hrefused : s.hw.phase ≠ .run ∨ (buf.getD s.buf).length < offset + maxCount
  · obtain ⟨why, h⟩ := exec_produce_refused hrefused
    exact ⟨_, h⟩
  · obtain ⟨hrun, hrange⟩ := not_or.mp hrefused
    exact ⟨_, exec_produce_of_ready (hs.produceReady (not_not.mp hrun) (not_lt.mp hrange))⟩

theorem format_completes {p : Impl} {s : State} (hs : HwOk p s.hw) : ∃ t, exec .format s = .next t := by
  by_cases hrun : s.hw.phase = .run
  · obtain ⟨f, hf⟩ := Option.isSome_iff_exists.mp (hs.run hrun)
    exact ⟨_, exec_format_of_running hrun hf⟩
  · exact ⟨_, exec_format_of_phase hrun⟩

theorem fail_completes (code : Nat) (s : State) : ∃ t, exec (.fail code) s = .next t := by
  cases h : reportedFault code with
  | none => exact ⟨_, exec_fail_of_not_reported h s⟩
  | some c => exact ⟨_, exec_fail_of_reported h s⟩

/-! ### The statements -/

/-- Settles O51: the two faults want a record or a format that the invariant gives, and the one refusal a value that
does not fit. -/
theorem everyCommandCompletes : Obligations.EveryCommandCompletes := by
  intro s i hinv hfits
  have hs : HwOk s.impl s.hw := (inv_iff s).mp hinv
  cases i with
  | charR | charD | charB | charO | charF | charA | selR | selD | selB | selO | selF | selA => exact ⟨_, rfl⟩
  | reverb a => exact stageInstr_completes hs .reverb a
  | distortion a => exact stageInstr_completes hs .distortion a
  | bassboost a => exact stageInstr_completes hs .bassboost a
  | overdrive a => exact stageInstr_completes hs .overdrive a
  | distance a => exact stageInstr_completes hs .distance a
  | reset => exact ⟨_, rfl⟩
  | cfgwr reg v => exact cfgwr_completes (hfits reg v rfl)
  | build => exact build_completes s
  | produce buf offset maxCount => exact produce_completes hs buf offset maxCount
  | format => exact format_completes hs
  | fail code => exact fail_completes code s
  | cfgrd reg => exact cfgrd_completes reg s

/-- Settles O49: one lemma for each command of R180's list. -/
theorem refusedCommandsChangeNothing : Obligations.RefusedCommandsChangeNothing := by
  refine ⟨fun i s h => ?_, fun s args rest h => ⟨_, step_reservedCommand h⟩⟩
  rcases h with ⟨reg, v, rfl, h⟩ | ⟨reg, rfl, h⟩ | ⟨rfl, h⟩ | ⟨buf, offset, maxCount, rfl, h⟩ | ⟨rfl, h⟩ |
    ⟨code, rfl, h2, h3⟩
  · exact exec_cfgwr_refused v h
  · exact ⟨_, exec_cfgrd_of_ge s h⟩
  · exact ⟨_, exec_build_of_phase h⟩
  · exact exec_produce_refused h
  · exact ⟨_, exec_format_of_phase h⟩
  · exact ⟨_, exec_fail_of_not_reported (reportedFault_eq_none h2 h3) s⟩

/-- Settles O45: `FAIL` and a `BUILD` that raises enter `FAULT` by the same operation, which keeps an earlier code. -/
theorem failRecordsFirstCode : Obligations.FailRecordsFirstCode := by
  refine ⟨?failEnters, ?failRefused, ?failRead, ?buildRead, ?buildEnters, ?refusedInFault⟩
  case failEnters =>
    exact fun s code hcode => exec_fail_of_reported (reportedFault_eq_some hcode) s
  case failRefused =>
    exact fun s code h2 h3 => exec_fail_of_not_reported (reportedFault_eq_none h2 h3) s
  case failRead =>
    intro s t u code hcode hnone hfail hread
    have hreported := reportedFault_eq_some hcode
    rw [exec_fail_of_reported hreported] at hfail
    cases hfail
    rw [cfgrd_fault_of_raiseFault hnone hread, faultNumber_of_reported hreported]
  case buildRead =>
    intro s t u hidle hnone hrejects hbuild hread
    rw [exec_build_of_not_accepts hidle hrejects] at hbuild
    cases hbuild
    exact cfgrd_fault_of_raiseFault hnone hread
  case buildEnters =>
    exact fun s hidle hrejects => ⟨_, exec_build_of_not_accepts hidle hrejects, rfl, rfl⟩
  case refusedInFault =>
    intro s i hfault hi
    have hidle : s.hw.phase ≠ .idle := by simp [hfault]
    have hrun : s.hw.phase ≠ .run := by simp [hfault]
    rcases hi with rfl | ⟨reg, v, rfl⟩ | ⟨buf, offset, maxCount, rfl⟩ | rfl
    · exact exec_build_of_phase hidle
    · exact exec_cfgwr_of_phase reg v hidle
    · exact exec_produce_of_phase buf offset maxCount hrun
    · exact exec_format_of_phase hrun

/-- Settles O4: an empty queue is the idle step, and code 7 is refused by the sequencer itself. -/
theorem stepWithoutInstruction : Obligations.StepWithoutInstruction :=
  ⟨fun s h => by rw [step, runNext, h], fun _ _ _ => step_reservedCommand⟩

end Sys2Proof.Machine
end

section
/-! SUPPORT. The bookkeeping of a run (R204): what a command hands over, and one induction for what a run keeps. -/

namespace Sys2Proof.Machine

/-! ### What a `PRODUCE` that completes did -/

theorem produceReady_of_absentStage {buf : Option (List F)} {offset maxCount : Nat} {s : State}
    (hrun : s.hw.phase = .run) (hrange : offset + maxCount ≤ (buf.getD s.buf).length)
    (h : absentStage s.hw = none) : ProduceReady buf offset maxCount s := by
  rw [absentStage, List.find?_eq_none] at h
  exact ⟨hrun, hrange, fun k hk => by simpa [hk] using h k (mem_canonicalOrder k)⟩

/-- A `PRODUCE` that completes was refused, or was ready (R90). -/
theorem exec_produce_next {buf : Option (List F)} {offset maxCount : Nat} {s t : State}
    (h : exec (.produce buf offset maxCount) s = .next t) :
    (∃ why, t = respond (.refused why) s) ∨ ProduceReady buf offset maxCount s := by
  by_cases hrefused : s.hw.phase ≠ .run ∨ (buf.getD s.buf).length < offset + maxCount
  · obtain ⟨why, e⟩ := exec_produce_refused hrefused
    rw [e] at h
    cases h
    exact .inl ⟨why, rfl⟩
  · obtain ⟨hrun, hrange⟩ := not_or.mp hrefused
    change execProduce buf offset maxCount s = _ at h
    rw [execProduce, if_neg hrun, if_neg hrange] at h
    cases habsent : absentStage s.hw with
    | some k => rw [habsent] at h; cases h
    | none => exact .inr (produceReady_of_absentStage (not_not.mp hrun) (not_lt.mp hrange) habsent)

/-- Only in `RUN` does a `PRODUCE` return a count, and the sub-range it filled has that many samples (R90, R93). -/
theorem exec_produce_count {buf : Option (List F)} {offset maxCount n : Nat} {s t : State}
    (h : exec (.produce buf offset maxCount) s = .next t) (hresp : t.resp = .count n) :
    s.hw.phase = .run ∧ (filled offset n t).length = n := by
  rcases exec_produce_next h with ⟨why, rfl⟩ | hready
  · cases hresp
  · have hwithin := pull_within hready
    rw [exec_produce_eq hready] at h
    cases h
    cases hresp
    rw [← oneAtATime_length _ s] at hwithin
    have hfilled := take_drop_bufFill hwithin
    rw [oneAtATime_length] at hfilled
    exact ⟨hready.1, (congrArg List.length hfilled).trans (oneAtATime_length _ s)⟩

/-! ### What a command hands over -/

theorem returnedCount_eq_some {i : Instr} {t : State} {n : Nat} :
    returnedCount i t = some n ↔ (∃ b o m, i = .produce b o m) ∧ t.resp = .count n := by
  unfold returnedCount
  split
  next hresp => simp [hresp]
  next hother => exact iff_of_false nofun fun ⟨⟨b, o, m, hi⟩, hresp⟩ => hother b o m n hi hresp

theorem handedOver_of_count {b : Option (List F)} {o m n : Nat} {t : State} (h : t.resp = .count n) :
    handedOver (.produce b o m) t = filled o n t := by
  simp [handedOver, h]

theorem handedOver_of_no_count {i : Instr} {t : State} (h : ∀ b o m n, i = .produce b o m → t.resp ≠ .count n) :
    handedOver i t = [] := by
  unfold handedOver
  split
  next hresp => exact absurd hresp (h _ _ _ _ rfl)
  next => rfl

theorem handedOver_of_not_run {i : Instr} {s t : State} (hexec : exec i s = .next t) (h : s.hw.phase ≠ .run) :
    handedOver i t = [] := by
  refine handedOver_of_no_count fun b o m n hi hresp => ?_
  subst hi
  exact h (exec_produce_count hexec hresp).1

/-- Only `RESET` leaves `FAULT` (R165, R178). -/
theorem exec_keeps_fault {i : Instr} {s t : State} (hexec : exec i s = .next t) (hreset : i ≠ .reset)
    (h : s.hw.phase = .fault) : t.hw.phase = .fault := by
  rcases (exec_effect hexec).1.phase with e | hi | ⟨-, hidle⟩ | ⟨-, e⟩
  · exact e.trans h
  · exact absurd hi hreset
  · rw [h] at hidle; cases hidle
  · exact e

/-! ### Runs -/

theorem Run.note_output {i : Instr} (h : i ≠ .reset) (t : State) (r : Run) :
    (r.note i t).output = r.output ++ handedOver i t :=
  congrArg Run.output (r.note_other h t)

theorem Run.note_ended_iff {i : Instr} (h : i ≠ .reset) (t : State) (r : Run) :
    (r.note i t).ended = true ↔
      r.ended = true ∨ ((∃ b o m, i = .produce b o m) ∧ t.resp = .count 0) ∨ t.hw.phase = .fault := by
  simp only [r.note_other h, Bool.or_eq_true, decide_eq_true_iff, returnedCount_eq_some, or_assoc]

theorem runCommands_cons {i : Instr} {is : List Instr} {s : State} {r : Run} {p : State × Run}
    (h : runCommands (i :: is) s r = some p) :
    ∃ u, exec i s = .next u ∧ runCommands is u (r.note i u) = some p := by
  rw [runCommands] at h
  split at h
  next u hexec => exact ⟨u, hexec, h⟩
  next => cases h
  next => cases h

/-- What every command but `RESET` keeps of the state and the run, a run keeps. -/
theorem runCommands_induction {P : State → Run → Prop}
    (hP : ∀ i s t r, i ≠ .reset → exec i s = .next t → P s r → P t (r.note i t))
    {cmds : List Instr} (hcmds : WithinRun cmds) {s t : State} {r r' : Run}
    (h : runCommands cmds s r = some (t, r')) (hs : P s r) : P t r' := by
  induction cmds generalizing s r with
  | nil => cases h; exact hs
  | cons i is ih =>
    obtain ⟨u, hexec, hrest⟩ := runCommands_cons h
    obtain ⟨-, hreset⟩ := hcmds i List.mem_cons_self
    exact ih (fun j hj => hcmds j (List.mem_cons_of_mem i hj)) hrest (hP i s u r hreset hexec hs)

theorem runCommands_keeps_ended {cmds : List Instr} (hcmds : WithinRun cmds) {s t : State} {r r' : Run}
    (h : runCommands cmds s r = some (t, r')) (hended : r.ended = true) : r'.ended = true :=
  runCommands_induction (P := fun _ q => q.ended = true)
    (fun _ _ u q hi _ hq => (q.note_ended_iff hi u).mpr (.inl hq)) hcmds h hended

theorem runCommands_extends_output {cmds : List Instr} (hcmds : WithinRun cmds) {s t : State} {r r' : Run}
    (h : runCommands cmds s r = some (t, r')) : r.output <+: r'.output :=
  runCommands_induction (P := fun _ q => r.output <+: q.output)
    (fun i _ u q hi _ hq => by rw [q.note_output hi]; exact hq.trans (List.prefix_append ..)) hcmds h
    (List.prefix_refl _)

theorem runCommands_fault_output {cmds : List Instr} (hcmds : WithinRun cmds) {s t : State} {r r' : Run}
    (h : runCommands cmds s r = some (t, r')) (hfault : s.hw.phase = .fault) : r'.output = r.output := by
  have hkeeps := runCommands_induction (P := fun u q => u.hw.phase = .fault ∧ q.output = r.output) ?step hcmds h
    ⟨hfault, rfl⟩
  case step =>
    intro i u v q hi hexec ⟨hu, hq⟩
    have hnone : handedOver i v = [] := handedOver_of_not_run hexec (by simp [hu])
    exact ⟨exec_keeps_fault hexec hi hu, by rw [q.note_output hi, hnone, List.append_nil, hq]⟩
  exact hkeeps.2

/-- Settles O54: what `RESET` and one command do to a run, and what the commands after them keep. -/
theorem runEndsAndOutput : Obligations.RunEndsAndOutput := by
  refine ⟨?begins, ?oneCommand, ?wholeRun⟩
  case begins =>
    exact fun s cmds r => ⟨_, rfl, runCommands_next rfl cmds r⟩
  case oneCommand =>
    intro i s t r _ hreset hexec
    refine ⟨?ends, fun b o m n hi hresp => ?adds, fun hnone => ?addsNothing⟩
    case ends =>
      have hrun : (∃ b o m, i = .produce b o m) → t.resp = .count 0 → s.hw.phase = .run := by
        rintro ⟨b, o, m, rfl⟩ hresp
        exact (exec_produce_count hexec hresp).1
      rw [r.note_ended_iff hreset]
      exact or_congr_right (or_congr_left
        ⟨fun ⟨hi, hresp⟩ => ⟨hi, hrun hi hresp, hresp⟩, fun ⟨hi, _, hresp⟩ => ⟨hi, hresp⟩⟩)
    case adds =>
      subst hi
      have hout := r.note_output hreset t
      rw [handedOver_of_count hresp] at hout
      exact ⟨hout, by rw [hout, List.length_append, (exec_produce_count hexec hresp).2]⟩
    case addsNothing =>
      rw [r.note_output hreset, handedOver_of_no_count hnone, List.append_nil]
  case wholeRun =>
    intro cmds s t r r' hcmds h
    obtain ⟨more, hmore⟩ := runCommands_extends_output hcmds h
    exact ⟨runCommands_keeps_ended hcmds h, ⟨more, hmore.symm⟩, runCommands_fault_output hcmds h⟩

end Sys2Proof.Machine
end
